-- ==== Sys2Proof/Word.lean ====
section
/-! DEFINITION. The word types of AMR-BCE: bytes, 32-bit operand and result fields, PCM samples, the 72-bit command word and
the 80-bit response word (00_scope.md R5, 10_state.md R28, 30_encoding.md R61 and R66). -/

namespace Sys2Proof

/-- A byte: bit 7 is the most significant (R5). -/
abbrev Byte := BitVec 8

/-- An operand field A or B of a command word, or a result field of a response word (R11, R61, R66). -/
abbrev Word := BitVec 32

/-- One PCM sample, signed 16-bit: its value is `toInt`; the engine never computes on it (R28, R105). -/
abbrev Sample := BitVec 16

/-- A PCM block: a list of samples, `NSAMP[KIND]` of them when the host keeps its contract (R28). -/
abbrev PcmBlock := List Sample

/-- A command word: OP in bits 71..64, A in bits 63..32, B in bits 31..0 (R61). -/
abbrev CmdWord := BitVec 72

/-- A response word: STATUS, WFLAGS, R0, R1 from the most significant end (R66). -/
abbrev RspWord := BitVec 80

end Sys2Proof
end

