-- ==== Sys2Proof/Config.lean ====
section
/-! DEFINITION. What an implementation of AMR-BCE fixes (00_scope.md R4), with the constraints every configuration must meet
(43_frame_tables.md R151), and the one free value of the model: the contents of a byte of BUF that nothing has written
(93_implementation_defined.md U1). The default values stand in Sys2Proof/Machine/Defaults.lean. -/

namespace Sys2Proof

/-- The ContainerKind of a stream (R16): Unknown, Narrowband, Wideband. Its numeric coding is `Machine.kindCode`. -/
inductive Kind where
  | unknown
  | nb
  | wb
deriving DecidableEq, Repr

/-- The OPEN parameters of R4. The record-length tables hold bytes, since every entry is at most 255 (R151 (f)). -/
structure Config where
  /-- `BUFMAX`, the capacity of BUF in bytes. -/
  bufmax : Nat
  /-- `FLEN[NB][0..15]`: record length per frame type, TOC byte included; 0 marks an unused index. -/
  flenNB : Vector Byte 16
  /-- `FLEN[WB][0..15]`. -/
  flenWB : Vector Byte 16
  /-- `FTMAX[NB]`, the largest valid narrowband frame type. -/
  ftmaxNB : Nat
  /-- `FTMAX[WB]`. -/
  ftmaxWB : Nat
  /-- `ENG_FT_SHIFT`: 3, or 4 for the alternative reading of 90_conflicts.md C1. -/
  ftShift : Nat
deriving DecidableEq, Repr

/-- `TOCCAP`, the hard cap on the number of entries of a TOC chain (R4). -/
abbrev Config.tocCap : Nat := 20

/-- The constraints of R4 and R151 (a), (c), (d) and of D3; (b), (e) and (f) follow from the types and from `Machine.engMax`. -/
abbrev Config.wf (c : Config) : Prop :=
  1 ≤ c.bufmax ∧ c.bufmax ≤ 2 ^ 28 ∧ (c.flenNB[7]).toNat = 32 ∧ (∀ i : Fin 16, (c.flenNB[i]).toNat ≤ 32) ∧
    7 ≤ c.ftmaxNB ∧ c.ftmaxNB ≤ 15 ∧ c.ftmaxWB ≤ 15 ∧ (c.ftShift = 3 ∨ c.ftShift = 4)

/-- FREE VALUE (U1, R31, R261; log entry 2). The byte of BUF at the second argument that nothing has written since the reset
that the first argument counts: one fixed but unknown value. No body, so nothing can be proved about it. -/
opaque Config.freeByte : Nat → Nat → Byte

end Sys2Proof
end

