-- ==== Sys2Proof/Syntax.lean ====
section
/-! DEFINITION. The seventeen operations of AMR-BCE as syntax, one constructor per row of spec/opcode_table.json
(30_encoding.md R62), and the one reason a command word is no operation (R64). Operands are the 32-bit fields A and B exactly as
they stand in the command word (R63); a field the operation ignores is no operand. -/

namespace Sys2Proof

/-- The operations of R62. -/
inductive Instr where
  /-- BC.ATTACH (R91): `A = len` bytes, `B = pos0` bit address. -/
  | bcAttach (len pos0 : Word)
  /-- BC.RD (R93): `A = n` bits. -/
  | bcRd (n : Word)
  /-- BC.WR (R96): `A = n` bits, `B = value`. -/
  | bcWr (n value : Word)
  /-- BC.RDB (R99): `A = len` bytes. -/
  | bcRdb (len : Word)
  /-- BC.WRB (R102): `A = len` bytes. -/
  | bcWrb (len : Word)
  /-- HS.DETECT (R121). -/
  | hsDetect
  /-- KIND.SET (R124): `A = kind` code. -/
  | kindSet (kind : Word)
  /-- FL.LOOKUP (R156): `A = ft`. -/
  | flLookup (ft : Word)
  /-- TOC.DEC (R132). -/
  | tocDec
  /-- TOC.ENC (R137): `A = k` entries. -/
  | tocEnc (k : Word)
  /-- GRP.DEC (R161). -/
  | grpDec
  /-- GRP.ENC (R181): `A = nblk` blocks, `B = mode` token. -/
  | grpEnc (nblk mode : Word)
  /-- CSR.RD (R201): `A = idx`. -/
  | csrRd (idx : Word)
  /-- FLG.CLR (R202): `A = mask`. -/
  | flgClr (mask : Word)
  /-- HM.LD (R204): `A = addr` byte index, `B = len` bytes. -/
  | hmLd (addr len : Word)
  /-- HM.ST (R205): `A = addr` byte index, `B = len` bytes. -/
  | hmSt (addr len : Word)
  /-- NOP (R207). -/
  | nop
deriving DecidableEq, Repr

/-- Why a command word is no operation. -/
inductive DecodeError where
  /-- The opcode is not listed in R62: reserved, hence illegal (R64). -/
  | illegalOpcode (op : Byte)
deriving DecidableEq, Repr

end Sys2Proof
end

