-- ==== Sys2Proof/WellFormed.lean ====
section
/-! DEFINITION. When an operation's operands lie in the range its rule gives (30_encoding.md R63: each operation's rule states the
legal range of its operands and raises E_BAD_OPERAND outside it). Every operation has an encoding whatever its operands, so
encoding and decoding do not depend on this check; the meanings make their own tests, and a statement relates the two. -/

namespace Sys2Proof

/-- The operands lie in the range of the operation's rule, under configuration `c` (R91, R93, R96, R99, R102, R124, R156, R137,
R181, R201 with R24, R204, R205). -/
def Instr.wellFormed (c : Config) : Instr → Bool
  | .bcAttach len pos0 => decide (len.toNat ≤ c.bufmax ∧ pos0.toNat ≤ 8 * len.toNat)
  | .bcRd n => decide (1 ≤ n.toNat ∧ n.toNat ≤ 32)
  | .bcWr n _ => decide (1 ≤ n.toNat ∧ n.toNat ≤ 32)
  | .bcRdb len => decide (len.toNat ≤ c.bufmax)
  | .bcWrb len => decide (len.toNat ≤ c.bufmax)
  | .hsDetect => true
  | .kindSet kind => decide (kind.toNat = 1 ∨ kind.toNat = 2)
  | .flLookup ft => decide (ft.toNat ≤ 15)
  | .tocDec => true
  | .tocEnc k => decide (1 ≤ k.toNat ∧ k.toNat ≤ Config.tocCap)
  | .grpDec => true
  | .grpEnc nblk _ => decide (nblk.toNat ≤ Config.tocCap)
  | .csrRd idx => decide (idx.toNat ≤ 9 ∨ (16 ≤ idx.toNat ∧ idx.toNat < 16 + Config.tocCap))
  | .flgClr _ => true
  | .hmLd addr len => decide (addr.toNat + len.toNat ≤ c.bufmax)
  | .hmSt addr len => decide (addr.toNat + len.toNat ≤ c.bufmax)
  | .nop => true

end Sys2Proof
end

