-- ==== Sys2Proof/Decode.lean ====
section
/-! DEFINITION. The decoder of 72-bit command words and the encoder beside it (30_encoding.md R61 to R64). One format: OP in bits
71..64, A in bits 63..32, B in bits 31..0. Decoding needs only OP; a word whose OP is not in R62 is rejected by name. -/

namespace Sys2Proof

/-- The `OP` field of a command word (R61). -/
def cmdOp (w : CmdWord) : Byte := w.extractLsb' 64 8

/-- The `A` field of a command word (R61). -/
def cmdA (w : CmdWord) : Word := w.extractLsb' 32 32

/-- The `B` field of a command word (R61). -/
def cmdB (w : CmdWord) : Word := w.extractLsb' 0 32

/-- A command word from its fields (R61). -/
def mkCmd (op : Byte) (a b : Word) : CmdWord := op ++ a ++ b

/-- The decoder (R62, R64): total on every command word; fields marked ignored are dropped (R63). -/
def decode (w : CmdWord) : Except DecodeError Instr :=
  match (cmdOp w).toNat with
  | 0x01 => .ok (.bcAttach (cmdA w) (cmdB w))
  | 0x02 => .ok (.bcRd (cmdA w))
  | 0x03 => .ok (.bcWr (cmdA w) (cmdB w))
  | 0x04 => .ok (.bcRdb (cmdA w))
  | 0x05 => .ok (.bcWrb (cmdA w))
  | 0x08 => .ok .hsDetect
  | 0x09 => .ok (.kindSet (cmdA w))
  | 0x0A => .ok (.flLookup (cmdA w))
  | 0x10 => .ok .tocDec
  | 0x11 => .ok (.tocEnc (cmdA w))
  | 0x18 => .ok .grpDec
  | 0x19 => .ok (.grpEnc (cmdA w) (cmdB w))
  | 0x20 => .ok (.csrRd (cmdA w))
  | 0x21 => .ok (.flgClr (cmdA w))
  | 0x28 => .ok (.hmLd (cmdA w) (cmdB w))
  | 0x29 => .ok (.hmSt (cmdA w) (cmdB w))
  | 0x30 => .ok .nop
  | _ => .error (.illegalOpcode (cmdOp w))

/-- The opcode of an operation (R62). -/
def opcode : Instr → Byte
  | .bcAttach _ _ => 0x01
  | .bcRd _ => 0x02
  | .bcWr _ _ => 0x03
  | .bcRdb _ => 0x04
  | .bcWrb _ => 0x05
  | .hsDetect => 0x08
  | .kindSet _ => 0x09
  | .flLookup _ => 0x0A
  | .tocDec => 0x10
  | .tocEnc _ => 0x11
  | .grpDec => 0x18
  | .grpEnc _ _ => 0x19
  | .csrRd _ => 0x20
  | .flgClr _ => 0x21
  | .hmLd _ _ => 0x28
  | .hmSt _ _ => 0x29
  | .nop => 0x30

/-- The command word of an operation; ignored fields are emitted as 0 (R62, R63). -/
def encode (i : Instr) : CmdWord :=
  match i with
  | .bcAttach len pos0 => mkCmd (opcode i) len pos0
  | .bcRd n => mkCmd (opcode i) n 0
  | .bcWr n value => mkCmd (opcode i) n value
  | .bcRdb len => mkCmd (opcode i) len 0
  | .bcWrb len => mkCmd (opcode i) len 0
  | .hsDetect => mkCmd (opcode i) 0 0
  | .kindSet kind => mkCmd (opcode i) kind 0
  | .flLookup ft => mkCmd (opcode i) ft 0
  | .tocDec => mkCmd (opcode i) 0 0
  | .tocEnc k => mkCmd (opcode i) k 0
  | .grpDec => mkCmd (opcode i) 0 0
  | .grpEnc nblk mode => mkCmd (opcode i) nblk mode
  | .csrRd idx => mkCmd (opcode i) idx 0
  | .flgClr mask => mkCmd (opcode i) mask 0
  | .hmLd addr len => mkCmd (opcode i) addr len
  | .hmSt addr len => mkCmd (opcode i) addr len
  | .nop => mkCmd (opcode i) 0 0

/-- The operation the decoder reads from a command word whose low `nbits` bits are those of `w`, numbered as
spec/opcode_table.json numbers them (bit 0 the least significant bit of the 72-bit word), every bit above them 0. -/
def decodeTableWord (nbits w : Nat) : Option Instr :=
  if nbits ≤ 72 then
    match decode (BitVec.ofNat 72 (w % 2 ^ nbits)) with
    | .ok i => some i
    | .error _ => none
  else none

end Sys2Proof
end

