-- ==== Sys2Proof/Machine/Defaults.lean ====
section
/-! DEFINITION. The configuration a machine has right after reset when nothing else is chosen: the default tables of
43_frame_tables.md R152 and the default maxima of R153, which the spec takes from general knowledge and no statement of this
package rests on (log entry 1). -/

namespace Sys2Proof.Machine

/-- `FLEN[NB]` of R152. PRESUMED but for index 7, which R151 (a) fixes (log entry 1). -/
def defaultFlenNB : Vector Byte 16 := #v[13, 14, 16, 18, 20, 21, 27, 32, 6, 0, 0, 0, 0, 0, 0, 1]

/-- `FLEN[WB]` of R152. PRESUMED (log entry 1). -/
def defaultFlenWB : Vector Byte 16 := #v[18, 24, 33, 37, 41, 47, 51, 59, 61, 6, 0, 0, 0, 0, 1, 1]

/-- The default configuration: BUFMAX at the largest value R4 allows (DESIGN CHOICE, log entry 1), the tables of R152, the maxima of
R153 (PRESUMED, log entry 1), `ENG_FT_SHIFT = 3` (R4). -/
def defaultConfig : Config where
  bufmax := 2 ^ 28
  flenNB := defaultFlenNB
  flenWB := defaultFlenWB
  ftmaxNB := 8
  ftmaxWB := 9
  ftShift := 3

end Sys2Proof.Machine
end

