-- ==== Sys2Proof/Machine/State.lean ====
section
/-! DEFINITION. The state of AMR-BCE as plain data (10_state.md R10), the traffic of its channels, streams and codec engine port
(R25 to R29), and the state right after reset (R31). -/

namespace Sys2Proof.Machine

/-- The status codes of 60_exceptions.md R231; the code numbers are `statusCode`. -/
inductive Status where
  | ok
  | unknownFormat
  | malformedToc
  | invalidFrameType
  | noData
  | noSpace
  | illegalOp
  | badOperand
deriving DecidableEq, Repr

/-- A response (30_encoding.md R66): status, the warnings raised by this operation, and the two results. As one 80-bit word it is
`Rsp.word`; bits 7..3 of WFLAGS are 0 there. -/
structure Rsp where
  status : Status
  wflags : BitVec 3
  r0 : Word
  r1 : Word
deriving DecidableEq, Repr

/-- A request on the codec engine port (10_state.md R29). -/
inductive EngReq where
  /-- `ENG.decode(rec)`. -/
  | decode (record : List Byte)
  /-- `ENG.encode(block, mode)`. -/
  | encode (block : PcmBlock) (mode : Word)
deriving DecidableEq, Repr

/-- A reply to `ENG.encode` (10_state.md R29): the signed 32-bit `size` and the record's bytes. -/
structure EncReply where
  size : BitVec 32
  record : List Byte
deriving DecidableEq, Repr

/-- The state. The comment of each field names the rule that gives it. -/
@[ext]
structure State where
  /-- The implementation's parameters (00_scope.md R4), which no operation writes (log entry 1). -/
  cfg : Config
  /-- BUF (R13): the bytes written since reset, addresses strictly rising; see `State.bufByte` for the others. -/
  buf : List Host.Cell
  /-- LEN, 29 bits (R14). -/
  len : BitVec 29
  /-- POS, 32 bits (R15). -/
  pos : BitVec 32
  /-- KIND, 2 bits as a code (R16). -/
  kind : Kind
  /-- FLAGS: bit 0 TRUNC, bit 1 PLM, bit 2 EEF (R17). -/
  flags : BitVec 3
  /-- ERR, 8 bits (R18). -/
  err : BitVec 8
  /-- TOCN, 5 bits (R19). -/
  tocn : BitVec 5
  /-- TOCBUF (R20). -/
  tocbuf : Vector Byte Config.tocCap
  /-- EXPPAY (R21). -/
  exppay : BitVec 32
  /-- REMPAY (R22). -/
  rempay : BitVec 32
  /-- SKIPCNT (R23). -/
  skipcnt : BitVec 32
  /-- DIN, oldest byte first (R26). -/
  din : List Byte
  /-- DOUT, oldest byte first (R27). -/
  dout : List Byte
  /-- PIN, oldest block first (R28). -/
  pin : List PcmBlock
  /-- POUT, oldest block first (R28). -/
  pout : List PcmBlock
  /-- The command channel: the words the host presents, in order (R25). -/
  cmds : List CmdWord
  /-- The response channel: the responses sent, oldest first (R25). -/
  rsps : List Rsp
  /-- The codec engine port: the requests made, oldest first (R29). -/
  engReqs : List EngReq
  /-- The codec engine port: its replies to `ENG.decode` not yet taken, next first (R29; log entry 4). -/
  decReps : List PcmBlock
  /-- The codec engine port: its replies to `ENG.encode` not yet taken, next first (R29; log entry 4). -/
  encReps : List EncReply
  /-- The model's own count of resets, the argument of the free bytes of BUF (U1; log entry 2). -/
  epoch : Nat
deriving DecidableEq, Repr

/-- Why a step has no next state. Every one is safe: the hardware waits, or has nothing to do, where the model stops. -/
inductive Fault where
  /-- `step`: the host presents no command word, the run has ended (48_host_sequences.md R226). Safe. -/
  | noCommand
  /-- BC.WRB, TOC.ENC, HM.LD: DIN holds fewer bytes than the operation pops; it waits without limit (R271). Safe. -/
  | waitDin
  /-- GRP.ENC: PIN holds no block for the operation to pop; it waits without limit (R271). Safe. -/
  | waitPin
  /-- GRP.DEC: the codec engine has not answered `ENG.decode`; the operation waits without limit (R271). Safe. -/
  | waitDecode
  /-- GRP.ENC: the codec engine has not answered `ENG.encode`; the operation waits without limit (R271). Safe. -/
  | waitEncode
deriving DecidableEq, Repr

/-- Why the model gives a step no meaning. -/
inductive Refusal where
  /-- Raised only by an arm of `exec` whose operation has no meaning yet; no arm does. Safe. -/
  | notModelled (mnemonic : String)
  /-- GRP.ENC: the codec engine answered `ENG.encode` with a plausible size and a record of another length, which breaks the
  contract of R29; 93_implementation_defined.md U2 gives this the treatment `refuse`. Safe. -/
  | recordContract
deriving DecidableEq, Repr

/-- The state right after reset (R31) of a machine with configuration `c`. -/
def State.resetWith (c : Config) : State where
  cfg := c
  buf := []
  len := 0
  pos := 0
  kind := .unknown
  flags := 0
  err := 0
  tocn := 0
  tocbuf := Vector.replicate Config.tocCap 0
  exppay := 0
  rempay := 0
  skipcnt := 0
  din := []
  dout := []
  pin := []
  pout := []
  cmds := []
  rsps := []
  engReqs := []
  decReps := []
  encReps := []
  epoch := 0

/-- The state right after reset (R31), with the default configuration (log entry 1). -/
def State.reset : State := State.resetWith defaultConfig

end Sys2Proof.Machine
end

