-- ==== Sys2Proof/Machine/Flags.lean ====
section
/-! DEFINITION. The warning bits (10_state.md R17, 60_exceptions.md R237), which are the same in FLAGS and in the `wflags` field of a
response, and the conditions that raise them. -/

namespace Sys2Proof.Machine

/-- TRUNC, bit 0 (R17, R237). -/
def wTrunc : BitVec 3 := 0b001

/-- PLM, bit 1 (R17, R237). -/
def wPlm : BitVec 3 := 0b010

/-- EEF, bit 2 (R17, R237). -/
def wEef : BitVec 3 := 0b100

/-- The warning a field or byte copy raises when it wanted more than there was (R93, R96, R99, R102). -/
def truncWarn (wanted there : Nat) : BitVec 3 :=
  if there < wanted then wTrunc else 0

/-- The warning the consistency check of GRP.DEC raises: the expected and the remaining payload length differ (R161, R164). -/
def plmWarn (expected remaining : Nat) : BitVec 3 :=
  if expected = remaining then 0 else wPlm

/-- FLAGS after FLG.CLR: the bits selected by the low three bits of the mask are cleared (R202). -/
def clearFlags (flags : BitVec 3) (mask : Word) : BitVec 3 :=
  flags &&& ~~~(mask.extractLsb' 0 3)

end Sys2Proof.Machine
end

