-- ==== Sys2Proof/Machine/Operands.lean ====
section
/-! DEFINITION. How AMR-BCE reads its operands and its data: bit fields most significant bit first (20_memory.md R42, R45), the TOC
octet (30_encoding.md R69, R70, R74), the magic literals (R72), the kind's code (10_state.md R16), and the frame-length tables with
their derived functions (43_frame_tables.md R151, R154, R155). -/

namespace Sys2Proof.Machine

/-- The bits of the `n`-bit field `v`, most significant first: bit `n-1-i` of `v` is the `i`-th (R45). -/
def fieldBits (n v : Nat) : List Bool :=
  (List.range n).map fun i => v.testBit (n - 1 - i)

/-- The value of a field given by its bits, most significant first (R45): a shift-in from the left. -/
def bitsValue (bs : List Bool) : Nat :=
  bs.foldl (fun v b => 2 * v + b.toNat) 0

/-- The bits of a byte list, byte by byte, each most significant bit first (R42). -/
def bytesBits (bs : List Byte) : List Bool :=
  bs.flatMap fun b => fieldBits 8 b.toNat

/-- Bit `i` of a byte replaced by `b`, the other seven unchanged (R44). -/
def setBit (x : Byte) (i : Nat) (b : Bool) : Byte :=
  if b then x ||| BitVec.twoPow 8 i else x &&& ~~~(BitVec.twoPow 8 i)

/-- The TOC octet `(F << 7) | (FT << 3) | (Q << 2)`, padding 0 (R69, R70). -/
def tocOctet (f : Bool) (ft : BitVec 4) (q : Bool) : Byte :=
  ((BitVec.ofBool f).setWidth 8 <<< 7) ||| (ft.setWidth 8 <<< 3) ||| ((BitVec.ofBool q).setWidth 8 <<< 2)

/-- The continuation bit of a TOC octet: bit 7 (R69). -/
def octetF (b : Byte) : Bool := b.getLsbD 7

/-- The frame type of a TOC octet: bits 6..3 (R69). -/
def octetFt (b : Byte) : BitVec 4 := b.extractLsb' 3 4

/-- The quality bit of a TOC octet: bit 2 (R69). -/
def octetQ (b : Byte) : Bool := b.getLsbD 2

/-- The frame type of byte 0 of a record that `ENG.encode` answered: `(rec[0] >> ENG_FT_SHIFT) & 0xF` (R74, R181). -/
def recordFt (c : Config) (b : Byte) : BitVec 4 := (b >>> c.ftShift).setWidth 4

/-- The narrowband header literal (R72). -/
def magicNB : List Byte := [0x23, 0x21, 0x41, 0x4D, 0x52, 0x0A]

/-- The wideband header literal (R72). -/
def magicWB : List Byte := [0x23, 0x21, 0x41, 0x4D, 0x52, 0x2D, 0x57, 0x42, 0x0A]

/-- The code of a kind: 0 Unknown, 1 Narrowband, 2 Wideband (R16). -/
def kindCode : Kind → Nat
  | .unknown => 0
  | .nb => 1
  | .wb => 2

/-- `NSAMP[kind]`: samples in one PCM block (R4). No operation uses it: a block's length is the contract of the host and of the
codec engine (R28, R29). -/
def nsamp : Kind → Nat
  | .unknown => 0
  | .nb => 160
  | .wb => 320

/-- `FLEN[kind][ft]` (R150); 0 for an index outside the table. -/
def flen (c : Config) (k : Kind) (ft : Nat) : Nat :=
  match k with
  | .unknown => 0
  | .nb => (c.flenNB.toList.getD ft 0).toNat
  | .wb => (c.flenWB.toList.getD ft 0).toNat

/-- `FTMAX[kind]` (R4). -/
def ftmax (c : Config) : Kind → Nat
  | .unknown => 0
  | .nb => c.ftmaxNB
  | .wb => c.ftmaxWB

/-- `ENGMAX[kind]` (R4, R185): 32 for narrowband, the largest table entry for wideband, 0 while the kind is unknown (R24). -/
def engMax (c : Config) : Kind → Nat
  | .unknown => 0
  | .nb => 32
  | .wb => c.flenWB.toList.foldl (fun m b => max m b.toNat) 0

/-- `Valid(kind, ft)` (R155). -/
def validFt (c : Config) (k : Kind) (ft : Nat) : Bool :=
  decide (k ≠ .unknown ∧ ft ≤ ftmax c k ∧ 1 ≤ flen c k ft)

/-- `PAYLEN(kind, ft)` (R154): one less than the record length, 0 for an invalid index. -/
def paylen (c : Config) (k : Kind) (ft : Nat) : Nat :=
  if validFt c k ft then flen c k ft - 1 else 0

/-- The expected payload length of a chain given by its octets (R164): invalid entries contribute 0. -/
def expectedPay (c : Config) (k : Kind) (ents : List Byte) : Nat :=
  (ents.map fun e => paylen c k (octetFt e).toNat).sum

/-- A reply's size is plausible: `0 < size` and `size <= ENGMAX[kind]`, both signed comparisons (R105 (e), R184). -/
def plausible (c : Config) (k : Kind) (size : BitVec 32) : Bool :=
  decide (0 < size.toInt ∧ size.toInt ≤ (engMax c k : Int))

end Sys2Proof.Machine
end

