-- ==== Sys2Proof/Machine/Ops.lean ====
section
/-! DEFINITION. The named operations over memory, cursor, streams, codec engine port and response channel that the meanings of the
operations are made of. Error entry (`raise`, `respond`, 60_exceptions.md R232) is `Run.raise` and `Run.respond`; there is no return
from it (R244): the next command runs as after any response. -/

namespace Sys2Proof.Machine

/-! ## BUF (20_memory.md R40): the bytes written since reset, addresses strictly rising -/

/-- The byte listed at address `a`; none when nothing has written it since reset. -/
def Memory.lookup : List Host.Cell → Nat → Option Byte
  | [], _ => none
  | (k, v) :: m, a => if k = a then some v else Memory.lookup m a

/-- Byte `b` written at address `a`, keeping the addresses strictly rising. -/
def Memory.store : List Host.Cell → Nat → Byte → List Host.Cell
  | [], a, b => [(a, b)]
  | (k, v) :: m, a, b =>
    if a < k then (a, b) :: (k, v) :: m
    else if k = a then (a, b) :: m
    else (k, v) :: Memory.store m a b

/-- The bytes `bs` written from address `a` upwards. -/
def Memory.storeAll (m : List Host.Cell) (a : Nat) : List Byte → List Host.Cell
  | [] => m
  | b :: bs => Memory.storeAll (Memory.store m a b) (a + 1) bs

/-- The canonical form: addresses strictly rising. An unlisted address reads as no value at all here (nothing has written it), so no
listed entry can equal what an unlisted address reads as. -/
abbrev Memory.wf (m : List Host.Cell) : Prop := m.Pairwise fun x y => x.1 < y.1

/-- `BUF[a]`: the byte written last, or the free value of a byte nothing has written since reset (R31, R51, U1). -/
def State.bufByte (s : State) (a : Nat) : Byte :=
  (Memory.lookup s.buf a).getD (Config.freeByte s.epoch a)

/-- `MemRead(a, n)` (R6). -/
def State.memRead (s : State) (a n : Nat) : List Byte :=
  (List.range n).map fun i => s.bufByte (a + i)

/-- `MemWrite(a, |bs|, bs)` (R6). -/
def State.memWrite (s : State) (a : Nat) (bs : List Byte) : State :=
  { s with buf := Memory.storeAll s.buf a bs }

/-! ## Bits and the cursor (R42 to R44, 10_state.md R14, R15) -/

/-- `8*LEN`, the first bit address past the attached region (R14). -/
def State.limit (s : State) : Nat := 8 * s.len.toNat

/-- POS as a number (R15). -/
def State.cursor (s : State) : Nat := s.pos.toNat

/-- The bits left between the cursor and the end of the region. -/
def State.avail (s : State) : Nat := s.limit - s.cursor

/-- The bit of BUF that bit address `a` names: bit `7 - (a mod 8)` of byte `a div 8` (R42), inside the region or not. -/
def State.bufBit (s : State) (a : Nat) : Bool :=
  (s.bufByte (a / 8)).getLsbD (7 - a % 8)

/-- `GetBit(a)` (R43): 0 past the end of the region. -/
def State.getBit (s : State) (a : Nat) : Bool :=
  if a < s.limit then s.bufBit a else false

/-- `PutBit(a, b)` (R44): no effect past the end of the region. -/
def State.putBit (s : State) (a : Nat) (b : Bool) : State :=
  if a < s.limit then s.memWrite (a / 8) [setBit (s.bufByte (a / 8)) (7 - a % 8) b] else s

/-- The `n` bits at bit addresses `a .. a+n-1`, in that order (R43). -/
def State.getBits (s : State) (a n : Nat) : List Bool :=
  (List.range n).map fun i => s.getBit (a + i)

/-- The bits `bs` put at bit addresses `a, a+1, ..`, in that order (R44). -/
def State.putBits (s : State) (a : Nat) : List Bool → State
  | [] => s
  | b :: bs => State.putBits (s.putBit a b) (a + 1) bs

/-- POS written. -/
def State.setCursor (s : State) (p : Nat) : State :=
  { s with pos := BitVec.ofNat 32 p }

/-- The cursor advanced by `m` bits, saturating at the end of the region (40_bit_cursor.md R92). -/
def State.advance (s : State) (m : Nat) : State :=
  s.setCursor (min (s.cursor + m) s.limit)

/-- The whole bytes among `len` that remain between the cursor and the end of the region (R99, R102). -/
def State.wholeBytes (s : State) (len : Nat) : Nat :=
  min len (s.avail / 8)

/-! ## The TOC store (10_state.md R19, R20) -/

/-- TOCN and TOCBUF hold the chain `ents`; the entries past it are 0 (R20). -/
def State.setToc (s : State) (ents : List Byte) : State :=
  { s with
    tocn := BitVec.ofNat 5 ents.length
    tocbuf := ⟨((ents ++ List.replicate Config.tocCap 0).take Config.tocCap).toArray, by simp⟩ }

/-! ## Streams and the codec engine port (10_state.md R26 to R29) -/

/-- `DIN.pop(n)` (R26): none while DIN holds fewer than `n` bytes. -/
def State.popDin (s : State) (n : Nat) : Option (List Byte × State) :=
  if s.din.length < n then none else some (s.din.take n, { s with din := s.din.drop n })

/-- `DOUT.push(bs)` (R27). -/
def State.pushDout (s : State) (bs : List Byte) : State :=
  { s with dout := s.dout ++ bs }

/-- `PIN.pop()` (R28): none while PIN is empty. -/
def State.popPin (s : State) : Option (PcmBlock × State) :=
  match s.pin with
  | [] => none
  | blk :: rest => some (blk, { s with pin := rest })

/-- `POUT.push(blk)` (R28). -/
def State.pushPout (s : State) (blk : PcmBlock) : State :=
  { s with pout := s.pout ++ [blk] }

/-- `ENG.decode(rec)` (R29): the request is made and the reply taken; none while the codec engine has not answered. -/
def State.engDecode (s : State) (record : List Byte) : Option (PcmBlock × State) :=
  match s.decReps with
  | [] => none
  | blk :: rest => some (blk, { s with engReqs := s.engReqs ++ [.decode record], decReps := rest })

/-- `ENG.encode(block, mode)` (R29): the request is made and the reply taken; none while the codec engine has not answered. -/
def State.engEncode (s : State) (block : PcmBlock) (mode : Word) : Option (EncReply × State) :=
  match s.encReps with
  | [] => none
  | rep :: rest => some (rep, { s with engReqs := s.engReqs ++ [.encode block mode], encReps := rest })

/-! ## An operation in progress, its warnings and its response (60_exceptions.md R232, R236) -/

/-- An operation in progress: the state so far and the warnings raised so far by this operation. -/
structure Run where
  st : State
  wflags : BitVec 3
deriving DecidableEq, Repr

/-- An operation begins with no warning raised (R66). -/
def Run.begin (s : State) : Run := ⟨s, 0⟩

/-- `warn`: the bits of `w` are set in FLAGS and in this operation's `wflags`, and the operation continues (R236). -/
def Run.warn (o : Run) (w : BitVec 3) : Run :=
  ⟨{ o.st with flags := o.st.flags ||| w }, o.wflags ||| w⟩

/-- The state so far changed by `f`. -/
def Run.modify (o : Run) (f : State → State) : Run := ⟨f o.st, o.wflags⟩

/-- The code of a status (R231). -/
def statusCode : Status → Byte
  | .ok => 0x00
  | .unknownFormat => 0x01
  | .malformedToc => 0x02
  | .invalidFrameType => 0x03
  | .noData => 0x04
  | .noSpace => 0x05
  | .illegalOp => 0x10
  | .badOperand => 0x11

/-- The response as one 80-bit word (R66). -/
def Rsp.word (r : Rsp) : RspWord :=
  statusCode r.status ++ r.wflags.setWidth 8 ++ r.r0 ++ r.r1

/-- ERR after an operation that finishes with status `st`: the status's code, unchanged when `st` is OK (R18, R232). -/
def errAfter (err : BitVec 8) (st : Status) : BitVec 8 :=
  if st = .ok then err else statusCode st

/-- `respond(st, r0, r1)` (R66, R232): ERR takes a status other than OK, the response is sent with the warnings raised by this
operation, and the operation is over. -/
def Run.respond (o : Run) (st : Status) (r0 r1 : Nat) : Host.Outcome State Fault Refusal :=
  .next { o.st with
    err := errAfter o.st.err st
    rsps := o.st.rsps ++ [⟨st, o.wflags, BitVec.ofNat 32 r0, BitVec.ofNat 32 r1⟩] }

/-- `raise E` (R232): error entry, `respond(E, 0, 0)`. -/
def Run.raise (o : Run) (e : Status) : Host.Outcome State Fault Refusal :=
  o.respond e 0 0

/-- `RdField(n)` (42_toc_codec.md R131), the body of BC.RD (R93): the value, zero-padded past the end, the TRUNC warning, the advance. -/
def Run.rdField (o : Run) (n : Nat) : Nat × Run :=
  (bitsValue (o.st.getBits o.st.cursor n), (o.warn (truncWarn n o.st.avail)).modify (State.advance · n))

/-- `WrField(n, v)` (42_toc_codec.md R136), the body of BC.WR (R96): the low `n` bits of `v`, the TRUNC warning, the advance. -/
def Run.wrField (o : Run) (n v : Nat) : Run :=
  ((o.modify fun s => s.putBits s.cursor (fieldBits n v)).warn (truncWarn n o.st.avail)).modify (State.advance · n)

/-- `RdBytes(len)` (44_frame_demux.md R161), the body of BC.RDB (R99): the whole bytes that remain, at most `len`, the TRUNC warning,
the advance by what was copied. -/
def Run.rdBytes (o : Run) (len : Nat) : List Byte × Run :=
  let count := o.st.wholeBytes len
  let bs := (List.range count).map fun i => BitVec.ofNat 8 (bitsValue (o.st.getBits (o.st.cursor + 8 * i) 8))
  (bs, (o.warn (truncWarn len count)).modify fun s => s.setCursor (s.cursor + 8 * count))

/-- `WrBytes(src)` (45_frame_mux.md R181), the body of BC.WRB (R102): the first bytes of `src` that fit whole, the TRUNC warning, the
advance by what was written. -/
def Run.wrBytes (o : Run) (src : List Byte) : Run :=
  let count := o.st.wholeBytes src.length
  ((o.modify fun s => s.putBits s.cursor (bytesBits (src.take count))).warn (truncWarn src.length count)).modify
    fun s => s.setCursor (s.cursor + 8 * count)

/-! ## Presenting a command word, and the reset input -/

/-- The command channel's next word taken (R25); none while the host presents nothing. -/
def fetch (s : State) : Option (CmdWord × State) :=
  match s.cmds with
  | [] => none
  | w :: ws => some (w, { s with cmds := ws })

/-- The command word whose low `nbits` bits are those of `w`, every bit above them 0 (R61). -/
def tableWord (nbits w : Nat) : CmdWord := BitVec.ofNat 72 (w % 2 ^ nbits)

/-- Command word `w` put where `fetch` takes its next word. -/
def placeCommand (s : State) (w : CmdWord) : State :=
  { s with cmds := w :: s.cmds.drop 1 }

/-- The reset input applied (R260 to R262): every register, stream and channel as R31 says, BUF unspecified anew, the configuration
kept; the codec engine is the host's, so its port's traffic stays (R224, R262). -/
def State.applyReset (s : State) : State :=
  { State.resetWith s.cfg with
    engReqs := s.engReqs, decReps := s.decReps, encReps := s.encReps, epoch := s.epoch + 1 }

end Sys2Proof.Machine
end

