-- ==== Sys2Proof/Machine/BitCursor.lean ====
section
/-! DEFINITION. The bit cursor (40_bit_cursor.md): BC.ATTACH, BC.RD, BC.WR, BC.RDB, BC.WRB. -/

namespace Sys2Proof.Machine

/-- BC.ATTACH (R91): the region is `BUF[0..len-1]` and the cursor is at `pos0`; nothing else changes. -/
def execBcAttach (len pos0 : Word) (s : State) : Host.Outcome State Fault Refusal :=
  if s.cfg.bufmax < len.toNat ∨ 8 * len.toNat < pos0.toNat then (Run.begin s).raise .badOperand
  else (Run.begin { s with len := BitVec.ofNat 29 len.toNat, pos := pos0 }).respond .ok 0 0

/-- BC.RD (R93, R94): `R0` is the value, zero-padded at its low end past the region, `R1` the number of bits inside the region. -/
def execBcRd (n : Word) (s : State) : Host.Outcome State Fault Refusal :=
  if n.toNat < 1 ∨ 32 < n.toNat then (Run.begin s).raise .badOperand
  else
    let r := (Run.begin s).rdField n.toNat
    r.2.respond .ok r.1 (min n.toNat s.avail)

/-- BC.WR (R96, R97): the low `n` bits of `value`, most significant first; `R1` is the number of bits written. -/
def execBcWr (n value : Word) (s : State) : Host.Outcome State Fault Refusal :=
  if n.toNat < 1 ∨ 32 < n.toNat then (Run.begin s).raise .badOperand
  else ((Run.begin s).wrField n.toNat value.toNat).respond .ok 0 (min n.toNat s.avail)

/-- BC.RDB (R99, R100): the whole bytes that remain, at most `len`, pushed on DOUT; `R0` is their number. -/
def execBcRdb (len : Word) (s : State) : Host.Outcome State Fault Refusal :=
  if s.cfg.bufmax < len.toNat then (Run.begin s).raise .badOperand
  else
    let r := (Run.begin s).rdBytes len.toNat
    (r.2.modify (State.pushDout · r.1)).respond .ok (s.wholeBytes len.toNat) 0

/-- BC.WRB (R102, R103): exactly `len` bytes popped from DIN, those that fit whole written; `R0` is the number written. -/
def execBcWrb (len : Word) (s : State) : Host.Outcome State Fault Refusal :=
  if s.cfg.bufmax < len.toNat then (Run.begin s).raise .badOperand
  else
    match s.popDin len.toNat with
    | none => .fault .waitDin
    | some (src, s1) => ((Run.begin s1).wrBytes src).respond .ok (s.wholeBytes len.toNat) 0

end Sys2Proof.Machine
end

