-- ==== Sys2Proof/Machine/FrameTables.lean ====
section
/-! DEFINITION. The host's access to the frame-length tables (43_frame_tables.md): FL.LOOKUP. -/

namespace Sys2Proof.Machine

/-- FL.LOOKUP (R156): the tests in the rule's order; `R0` is the record length, `R1` the payload length. -/
def execFlLookup (ft : Word) (s : State) : Host.Outcome State Fault Refusal :=
  if 15 < ft.toNat then (Run.begin s).raise .badOperand
  else if s.kind = .unknown then (Run.begin s).raise .unknownFormat
  else if validFt s.cfg s.kind ft.toNat = false then (Run.begin s).raise .invalidFrameType
  else (Run.begin s).respond .ok (flen s.cfg s.kind ft.toNat) (paylen s.cfg s.kind ft.toNat)

end Sys2Proof.Machine
end

