-- ==== Sys2Proof/Machine/TocCodec.lean ====
section
/-! DEFINITION. The TOC codec (42_toc_codec.md): the shared procedures TocRead (R131) and TocWrite (R136), TOC.DEC and TOC.ENC. -/

namespace Sys2Proof.Machine

/-- What `TocRead` answers (R131): no whole octet remains, a chain that does not end within the cap, or the chain's normalised octets. -/
inductive TocResult where
  | noData
  | malformed
  | chain (ents : List Byte)
deriving DecidableEq, Repr

/-- One entry read at the cursor: fields of 1, 4, 1 and 2 bits, the padding discarded (R131, R134); the octet is normalised. -/
def Run.rdEntry (o : Run) : Byte × Run :=
  let f := o.rdField 1
  let ft := f.2.rdField 4
  let q := ft.2.rdField 1
  let p := q.2.rdField 2
  (tocOctet (f.1 == 1) (BitVec.ofNat 4 ft.1) (q.1 == 1), p.2)

/-- The loop of `TocRead` with `room` entries left under the cap and the octets `ents` read so far (R131). -/
def Run.tocLoop (o : Run) (ents : List Byte) : (room : Nat) → TocResult × Run
  | 0 => (.malformed, o)
  | room + 1 =>
    let e := o.rdEntry
    if octetF e.1 then Run.tocLoop e.2 (ents ++ [e.1]) room
    else (.chain (ents ++ [e.1]), e.2)

/-- `TocRead()` (R131). -/
def Run.tocRead (o : Run) : TocResult × Run :=
  if o.st.avail < 8 then (.noData, o) else o.tocLoop [] Config.tocCap

/-- TOC.DEC (R132 to R135): the chain goes to the TOC store and onto DOUT; `R0` is its length, `R1` the bytes consumed. -/
def execTocDec (s : State) : Host.Outcome State Fault Refusal :=
  match (Run.begin s).tocRead with
  | (.noData, _) => (Run.begin s).raise .noData
  | (.malformed, o) => (o.modify (State.setToc · [])).raise .malformedToc
  | (.chain ents, o) =>
    (o.modify fun s1 => (s1.setToc ents).pushDout ents).respond .ok ents.length ((o.st.cursor - s.cursor) / 8)

/-- The octets of a chain given by its (frame type, quality) pairs: the continuation bit is 1 for all but the last (R136). -/
def chainOctets : List (BitVec 4 × Bool) → List Byte
  | [] => []
  | [e] => [tocOctet false e.1 e.2]
  | e :: es => tocOctet true e.1 e.2 :: chainOctets es

/-- One octet written at the cursor, as fields of 1, 4, 1 and 2 bits, the padding 0 (R136). -/
def Run.wrEntry (o : Run) (e : Byte) : Run :=
  (((o.wrField 1 (octetF e).toNat).wrField 4 (octetFt e).toNat).wrField 1 (octetQ e).toNat).wrField 2 0

/-- `TocWrite(list)` (R136): the chain is written at the cursor and kept in the TOC store. -/
def Run.tocWrite (o : Run) (list : List (BitVec 4 × Bool)) : Run :=
  ((chainOctets list).foldl Run.wrEntry o).modify (State.setToc · (chainOctets list))

/-- TOC.ENC (R137, R138): `k` octets popped from DIN, of which only the frame type and the quality bit count; room is tested after. -/
def execTocEnc (k : Word) (s : State) : Host.Outcome State Fault Refusal :=
  if k.toNat < 1 ∨ Config.tocCap < k.toNat then (Run.begin s).raise .badOperand
  else
    match s.popDin k.toNat with
    | none => .fault .waitDin
    | some (src, s1) =>
      if s1.avail < 8 * k.toNat then (Run.begin s1).raise .noSpace
      else ((Run.begin s1).tocWrite (src.map fun b => (octetFt b, octetQ b))).respond .ok k.toNat k.toNat

end Sys2Proof.Machine
end

