-- ==== Sys2Proof/Machine/GroupDec.lean ====
section
/-! DEFINITION. The frame demultiplexer (44_frame_demux.md): GRP.DEC. -/

namespace Sys2Proof.Machine

/-- The legacy record of a frame (R74, R167, R168): the octet with F = 0, then the payload completed with zeros to `PAYLEN` bytes. -/
def legacyRecord (ft : BitVec 4) (q : Bool) (len : Nat) (pay : List Byte) : List Byte :=
  tocOctet false ft q :: (pay ++ List.replicate (len - pay.length) 0)

/-- Step 3 of GRP.DEC (R161, R166 to R169): the frames of the entries left, in chain order. `pos0` is the cursor at the start of the
operation and `nblk` the number of blocks pushed so far. -/
def grpDecFrames (pos0 : Nat) : List Byte → Nat → Run → Host.Outcome State Fault Refusal
  | [], nblk, o => o.respond .ok nblk ((o.st.cursor - pos0) / 8)
  | e :: es, nblk, o =>
    if validFt o.st.cfg o.st.kind (octetFt e).toNat = false then
      o.respond .invalidFrameType nblk ((o.st.cursor - pos0) / 8)
    else
      let len := paylen o.st.cfg o.st.kind (octetFt e).toNat
      let pay := o.rdBytes len
      match pay.2.st.engDecode (legacyRecord (octetFt e) (octetQ e) len pay.1) with
      | none => .fault .waitDecode
      | some (blk, s1) => grpDecFrames pos0 es (nblk + 1) ⟨s1.pushPout blk, pay.2.wflags⟩

/-- Step 2 of GRP.DEC (R161, R164, R165): the expected payload length against the whole bytes that remain; EXPPAY, REMPAY, PLM. -/
def Run.payloadCheck (o : Run) (ents : List Byte) : Run :=
  let expected := expectedPay o.st.cfg o.st.kind ents
  let remaining := o.st.avail / 8
  (o.modify fun s => { s with exppay := BitVec.ofNat 32 expected, rempay := BitVec.ofNat 32 remaining }).warn
    (plmWarn expected remaining)

/-- GRP.DEC (R161 to R171): `R0` is the number of blocks pushed on POUT, `R1` the bytes consumed. -/
def execGrpDec (s : State) : Host.Outcome State Fault Refusal :=
  if s.kind = .unknown then (Run.begin s).raise .unknownFormat
  else
    match (Run.begin s).tocRead with
    | (.noData, _) => (Run.begin s).raise .noData
    | (.malformed, o) =>
      (o.modify (State.setToc · [])).respond .malformedToc 0 ((o.st.cursor - s.cursor) / 8)
    | (.chain ents, o) =>
      grpDecFrames s.cursor ents 0 ((o.modify (State.setToc · ents)).payloadCheck ents)

end Sys2Proof.Machine
end

