-- ==== Sys2Proof/Machine/GroupEnc.lean ====
section
/-! DEFINITION. The frame multiplexer (45_frame_mux.md): GRP.ENC. -/

namespace Sys2Proof.Machine

/-- A frame to emit (R181): its type, its quality bit and its payload. -/
structure Frame where
  ft : BitVec 4
  q : Bool
  payload : List Byte
deriving DecidableEq, Repr

/-- The frame of a plausible reply (R181, R183): type and quality from byte 0 of the record, the other bytes the payload. -/
def frameOf (c : Config) (record : List Byte) : Frame :=
  ⟨recordFt c (record.headD 0), octetQ (record.headD 0), record.tail⟩

/-- A block skipped (R184): EEF is raised and SKIPCNT counts it. -/
def Run.skipBlock (o : Run) : Run :=
  (o.warn wEef).modify fun s => { s with skipcnt := s.skipcnt + 1 }

/-- Steps 1 and 2 of GRP.ENC (R181, R183, R184): `n` more blocks taken from PIN and compressed, `frames` being those kept so far. -/
def grpEncBlocks (mode : Word) : Nat → List Frame → Run → Host.Outcome (List Frame × Run) Fault Refusal
  | 0, frames, o => .next (frames, o)
  | n + 1, frames, o =>
    match o.st.popPin with
    | none => .fault .waitPin
    | some (blk, s1) =>
      match s1.engEncode blk mode with
      | none => .fault .waitEncode
      | some (rep, s2) =>
        if plausible s2.cfg s2.kind rep.size = false then grpEncBlocks mode n frames (Run.skipBlock ⟨s2, o.wflags⟩)
        else if rep.record.length ≠ rep.size.toNat then .refused .recordContract
        else grpEncBlocks mode n (frames ++ [frameOf s2.cfg rep.record]) ⟨s2, o.wflags⟩

/-- The bytes a group of frames takes: one octet per frame and the payloads (R75, R181). -/
def groupLength (frames : List Frame) : Nat :=
  frames.length + (frames.map fun f => f.payload.length).sum

/-- Step 3 of GRP.ENC (R181, R187 to R189): nothing to write, no room, or the chain and then the payloads. -/
def grpEncEmit (frames : List Frame) (o : Run) : Host.Outcome State Fault Refusal :=
  if frames = [] then (o.modify (State.setToc · [])).respond .ok 0 0
  else if o.st.avail < 8 * groupLength frames then o.raise .noSpace
  else
    (frames.foldl (fun r f => r.wrBytes f.payload) (o.tocWrite (frames.map fun f => (f.ft, f.q)))).respond
      .ok frames.length (groupLength frames)

/-- GRP.ENC (R181 to R190): `R0` is the number of frames emitted, `R1` the bytes written. -/
def execGrpEnc (nblk mode : Word) (s : State) : Host.Outcome State Fault Refusal :=
  if s.kind = .unknown then (Run.begin s).raise .unknownFormat
  else if Config.tocCap < nblk.toNat then (Run.begin s).raise .badOperand
  else
    match grpEncBlocks mode nblk.toNat [] (Run.begin { s with skipcnt := 0 }) with
    | .next (frames, o) => grpEncEmit frames o
    | .fault r => .fault r
    | .refused r => .refused r

end Sys2Proof.Machine
end

