-- ==== Sys2Proof/Machine/Sniffer.lean ====
section
/-! DEFINITION. The format sniffer (41_format_sniffer.md): HS.DETECT and KIND.SET, the only writers of KIND (R120). -/

namespace Sys2Proof.Machine

/-- The kind whose header literal stands at the start of the attached region (R121); a region shorter than a literal cannot match it. -/
def State.detectKind (s : State) : Kind :=
  if magicWB.length ≤ s.len.toNat ∧ s.memRead 0 magicWB.length = magicWB then .wb
  else if magicNB.length ≤ s.len.toNat ∧ s.memRead 0 magicNB.length = magicNB then .nb
  else .unknown

/-- The length in bytes of a kind's header literal, 0 for Unknown (R121). -/
def headerLength : Kind → Nat
  | .unknown => 0
  | .nb => magicNB.length
  | .wb => magicWB.length

/-- HS.DETECT (R121, R122): always OK; `R0` is the kind's code, `R1` the length of the matched literal. -/
def execHsDetect (s : State) : Host.Outcome State Fault Refusal :=
  let k := s.detectKind
  (Run.begin { s with kind := k }).respond .ok (kindCode k) (headerLength k)

/-- KIND.SET (R124): kind codes 1 and 2 only. -/
def execKindSet (kind : Word) (s : State) : Host.Outcome State Fault Refusal :=
  if kind.toNat = 1 then (Run.begin { s with kind := .nb }).respond .ok 0 0
  else if kind.toNat = 2 then (Run.begin { s with kind := .wb }).respond .ok 0 0
  else (Run.begin s).raise .badOperand

end Sys2Proof.Machine
end

