-- ==== Sys2Proof/Machine/System.lean ====
section
/-! DEFINITION. The system operations (46_system_ops.md): CSR.RD, FLG.CLR, HM.LD, HM.ST, NOP; and the answer to an illegal opcode
(30_encoding.md R64). -/

namespace Sys2Proof.Machine

/-- CAP (10_state.md R24): TOCCAP in bits 7..0, `ENGMAX[KIND]` in bits 15..8. -/
def State.capReg (s : State) : Nat := Config.tocCap + 2 ^ 8 * engMax s.cfg s.kind

/-- The register map (10_state.md R24): none for a reserved index. -/
def State.csr (s : State) (idx : Nat) : Option Nat :=
  match idx with
  | 0 => some s.pos.toNat
  | 1 => some s.len.toNat
  | 2 => some (kindCode s.kind)
  | 3 => some s.flags.toNat
  | 4 => some s.err.toNat
  | 5 => some s.tocn.toNat
  | 6 => some s.exppay.toNat
  | 7 => some s.rempay.toNat
  | 8 => some s.skipcnt.toNat
  | 9 => some s.capReg
  | i => if 16 ≤ i ∧ i < 16 + Config.tocCap then some (s.tocbuf.toList.getD (i - 16) 0).toNat else none

/-- CSR.RD (R201): `R0` is the register's value; no register changes. -/
def execCsrRd (idx : Word) (s : State) : Host.Outcome State Fault Refusal :=
  match s.csr idx.toNat with
  | none => (Run.begin s).raise .badOperand
  | some v => (Run.begin s).respond .ok v 0

/-- FLG.CLR (R202): the flags selected by mask bits 2..0 are cleared, and ERR when mask bit 8 is 1. -/
def execFlgClr (mask : Word) (s : State) : Host.Outcome State Fault Refusal :=
  (Run.begin { s with
    flags := clearFlags s.flags mask
    err := if mask.getLsbD 8 then 0 else s.err }).respond .ok 0 0

/-- HM.LD (R204, R206): `len` bytes popped from DIN and stored from byte index `addr`; the sum is formed without wrap-around. -/
def execHmLd (addr len : Word) (s : State) : Host.Outcome State Fault Refusal :=
  if s.cfg.bufmax < addr.toNat + len.toNat then (Run.begin s).raise .badOperand
  else
    match s.popDin len.toNat with
    | none => .fault .waitDin
    | some (src, s1) => (Run.begin (s1.memWrite addr.toNat src)).respond .ok len.toNat 0

/-- HM.ST (R205, R206): `len` bytes from byte index `addr` pushed on DOUT. -/
def execHmSt (addr len : Word) (s : State) : Host.Outcome State Fault Refusal :=
  if s.cfg.bufmax < addr.toNat + len.toNat then (Run.begin s).raise .badOperand
  else (Run.begin (s.pushDout (s.memRead addr.toNat len.toNat))).respond .ok len.toNat 0

/-- NOP (R65, R207): nothing changes, ERR included. -/
def execNop (s : State) : Host.Outcome State Fault Refusal :=
  (Run.begin s).respond .ok 0 0

/-- The answer to a command word whose opcode is illegal (R64): only ERR changes. -/
def execIllegal (s : State) : Host.Outcome State Fault Refusal :=
  (Run.begin s).raise .illegalOp

end Sys2Proof.Machine
end

