-- ==== Sys2Proof/Machine/Dispatch.lean ====
section
/-! DEFINITION. The dispatch of an operation to its meaning, one arm per operation (30_encoding.md R62). -/

namespace Sys2Proof.Machine

/-- The effect of one operation, as the rule named at its meaning says. -/
def exec (i : Instr) (s : State) : Host.Outcome State Fault Refusal :=
  match i with
  | .bcAttach len pos0 => Sys2Proof.Machine.execBcAttach len pos0 s
  | .bcRd n => Sys2Proof.Machine.execBcRd n s
  | .bcWr n value => Sys2Proof.Machine.execBcWr n value s
  | .bcRdb len => Sys2Proof.Machine.execBcRdb len s
  | .bcWrb len => Sys2Proof.Machine.execBcWrb len s
  | .hsDetect => Sys2Proof.Machine.execHsDetect s
  | .kindSet kind => Sys2Proof.Machine.execKindSet kind s
  | .flLookup ft => Sys2Proof.Machine.execFlLookup ft s
  | .tocDec => Sys2Proof.Machine.execTocDec s
  | .tocEnc k => Sys2Proof.Machine.execTocEnc k s
  | .grpDec => Sys2Proof.Machine.execGrpDec s
  | .grpEnc nblk mode => Sys2Proof.Machine.execGrpEnc nblk mode s
  | .csrRd idx => Sys2Proof.Machine.execCsrRd idx s
  | .flgClr mask => Sys2Proof.Machine.execFlgClr mask s
  | .hmLd addr len => Sys2Proof.Machine.execHmLd addr len s
  | .hmSt addr len => Sys2Proof.Machine.execHmSt addr len s
  | .nop => Sys2Proof.Machine.execNop s

end Sys2Proof.Machine
end

