-- ==== Sys2Proof/Machine/Step.lean ====
section
/-! DEFINITION. One step: the next command word is taken from the command channel, decoded and executed as one atomic operation
(10_state.md R25, 20_memory.md R50). -/

namespace Sys2Proof.Machine

/-- One step (R12, R25): no word presented is the end of the run (R226); an illegal word is answered E_ILLEGAL_OP (R64). -/
def step (s : State) : Host.Outcome State Fault Refusal :=
  match fetch s with
  | none => .fault .noCommand
  | some (w, s1) =>
    match decode w with
    | .ok i => exec i s1
    | .error _ => execIllegal s1

/-- `s` with the command word of `nbits` bits `w` presented as the next one (log entry 7). -/
def State.withFetchWord (s : State) (nbits w : Nat) : State :=
  placeCommand s (tableWord nbits w)

end Sys2Proof.Machine
end

