-- ==== Sys2Proof/Machine/Assembler.lean ====
section
/-! DEFINITION. The spec's notation for operations (30_encoding.md R78) and the host-side pseudo-operations (R79). -/

namespace Sys2Proof.Machine

/-- The mnemonic of an operation (R62). -/
def mnemonic : Instr → String
  | .bcAttach _ _ => "BC.ATTACH"
  | .bcRd _ => "BC.RD"
  | .bcWr _ _ => "BC.WR"
  | .bcRdb _ => "BC.RDB"
  | .bcWrb _ => "BC.WRB"
  | .hsDetect => "HS.DETECT"
  | .kindSet _ => "KIND.SET"
  | .flLookup _ => "FL.LOOKUP"
  | .tocDec => "TOC.DEC"
  | .tocEnc _ => "TOC.ENC"
  | .grpDec => "GRP.DEC"
  | .grpEnc _ _ => "GRP.ENC"
  | .csrRd _ => "CSR.RD"
  | .flgClr _ => "FLG.CLR"
  | .hmLd _ _ => "HM.LD"
  | .hmSt _ _ => "HM.ST"
  | .nop => "NOP"

/-- The named operands of an operation in the order A, B (R62, R78). -/
def operands : Instr → List Word
  | .bcAttach len pos0 => [len, pos0]
  | .bcRd n => [n]
  | .bcWr n value => [n, value]
  | .bcRdb len => [len]
  | .bcWrb len => [len]
  | .hsDetect => []
  | .kindSet kind => [kind]
  | .flLookup ft => [ft]
  | .tocDec => []
  | .tocEnc k => [k]
  | .grpDec => []
  | .grpEnc nblk mode => [nblk, mode]
  | .csrRd idx => [idx]
  | .flgClr mask => [mask]
  | .hmLd addr len => [addr, len]
  | .hmSt addr len => [addr, len]
  | .nop => []

/-- An operation as an assembler line without its bulk data: the mnemonic, then the operands in decimal, separated by commas (R78). -/
def asmLine (i : Instr) : String :=
  match operands i with
  | [] => mnemonic i
  | ops => mnemonic i ++ " " ++ String.intercalate ", " (ops.map fun v => toString v.toNat)

/-- BC.SEEK pos (R79): the region unchanged, the cursor at `pos`. -/
def pseudoSeek (s : State) (pos : Word) : Instr := .bcAttach (s.len.setWidth 32) pos

/-- BC.REWIND (R79). -/
def pseudoRewind (s : State) : Instr := pseudoSeek s 0

/-- BC.ALIGN (R79): the bits up to the next byte boundary are read and discarded; nothing at a byte boundary. -/
def pseudoAlign (s : State) : List Instr :=
  if s.cursor % 8 = 0 then [] else [.bcRd (BitVec.ofNat 32 (8 - s.cursor % 8))]

/-- HDR.PUT NB (R79): the operation and the bytes it pops from DIN. -/
def pseudoHdrPutNB : Instr × List Byte := (.bcWrb 6, magicNB)

/-- HDR.PUT WB (R79): the operation and the bytes it pops from DIN. -/
def pseudoHdrPutWB : Instr × List Byte := (.bcWrb 9, magicWB)

/-- HDR.SKIP (R79): HS.DETECT, then an attachment with the cursor after the header whose length `r1` HS.DETECT returned. -/
def pseudoHdrSkip (s : State) : Instr × (Word → Instr) :=
  (.hsDetect, fun r1 => .bcAttach (s.len.setWidth 32) (8 * r1))

end Sys2Proof.Machine
end

