-- ==== Sys2Proof/Machine/HostPort.lean ====
section
/-! DEFINITION. What the host and the codec engine may do between two operations (10_state.md R25 to R29, 48_host_sequences.md R220,
R225): nothing else outside the engine reaches the state, but for the reset input (`State.applyReset`). -/

namespace Sys2Proof.Machine

/-- The host presents one more command word (R25). -/
def State.presentCommand (s : State) (w : CmdWord) : State := { s with cmds := s.cmds ++ [w] }

/-- The host receives the oldest response it has not received yet (R25). -/
def State.takeResponse (s : State) : Option (Rsp × State) :=
  match s.rsps with
  | [] => none
  | r :: rest => some (r, { s with rsps := rest })

/-- The host pushes bytes on DIN (R26). -/
def State.supplyDin (s : State) (bs : List Byte) : State := { s with din := s.din ++ bs }

/-- The host drains up to `n` bytes from DOUT (R27). -/
def State.drainDout (s : State) (n : Nat) : List Byte × State := (s.dout.take n, { s with dout := s.dout.drop n })

/-- The host pushes a PCM block on PIN (R28). -/
def State.supplyPin (s : State) (blk : PcmBlock) : State := { s with pin := s.pin ++ [blk] }

/-- The host drains up to `n` PCM blocks from POUT (R28). -/
def State.drainPout (s : State) (n : Nat) : List PcmBlock × State := (s.pout.take n, { s with pout := s.pout.drop n })

/-- The codec engine will answer one more `ENG.decode` with this block (R29). -/
def State.answerDecode (s : State) (blk : PcmBlock) : State := { s with decReps := s.decReps ++ [blk] }

/-- The codec engine will answer one more `ENG.encode` with this reply (R29). -/
def State.answerEncode (s : State) (rep : EncReply) : State := { s with encReps := s.encReps ++ [rep] }

end Sys2Proof.Machine
end

