-- ==== Sys2Proof/Machine/HostContract.lean ====
section
/-! DEFINITION. The host's contract (48_host_sequences.md R220, R224, R225; 70_reset_and_hazards.md R266 to R272). The engine does not
enforce it: `exec` gives every operation the meaning of its rule whatever the host does (41_format_sniffer.md R125, R268). It is a
RUN that has no meaning when the host breaks a "must" or does a "never" of R225: a `Session` is the engine with what the host itself
must keep track of, and `Session.act` refuses such an action, naming the duty broken (log entry 11). -/

namespace Sys2Proof.Machine

/-- The host's codec engine for the current stream (R224): created once before the first GRP operation, destroyed once after the last. -/
inductive CodecLife where
  /-- Not created yet in this stream, and none of an earlier stream exists. -/
  | absent
  /-- Created for this stream and a kind. -/
  | live (kind : Kind)
  /-- Destroyed: this stream has had its codec engine. -/
  | destroyed
  /-- The codec engine of an earlier stream, which a reset ended: the host's to destroy (R262), of no use to this stream. -/
  | leftOver
deriving DecidableEq, Repr

/-- The kind a codec engine was created for; Unknown while there is none. -/
def CodecLife.kind : CodecLife → Kind
  | .live k => k
  | .absent | .destroyed | .leftOver => .unknown

/-- It is the current stream's, and of its kind where that is known: no kind is wrong for a stream of Unknown kind (R224, R225, U5). -/
def CodecLife.serves (c : CodecLife) (k : Kind) : Bool :=
  match c with
  | .live k' => decide (k = .unknown ∨ k' = k)
  | .absent | .destroyed | .leftOver => false

/-- A codec engine exists that the host has not destroyed. -/
def CodecLife.exists : CodecLife → Bool
  | .live _ | .leftOver => true
  | .absent | .destroyed => false

/-- What a reset, which ends the stream, makes of it (R262): one that exists stays the host's to destroy. -/
def CodecLife.afterReset (c : CodecLife) : CodecLife :=
  if c.exists then .leftOver else .absent

/-- What destroying it gives: the current stream has had its own, or an earlier stream's is out of the way. -/
def CodecLife.destroy : CodecLife → Option CodecLife
  | .live _ => some .destroyed
  | .leftOver => some .absent
  | .absent | .destroyed => none

/-- The engine and the host's own account of the current stream. -/
structure Session where
  /-- The engine. -/
  st : State
  /-- An HS.DETECT or KIND.SET has fixed the kind of the current stream (R125, R267). -/
  kindFixed : Bool
  /-- The codec engine of the current stream (R224). -/
  codec : CodecLife
  /-- The bytes that have left DOUT since the session began, oldest first: drained by the host, or emptied by a reset (R226). -/
  outBytes : List Byte
  /-- The blocks that have left POUT, likewise (R226). -/
  outBlocks : List PcmBlock
deriving DecidableEq, Repr

/-- The duty of R225 that an action breaks. The run has no meaning from there on; every one is safe. -/
inductive HostBreach where
  /-- A command is presented while one is outstanding or its response has not been received (R25, R266, U8). Safe. -/
  | commandOutstanding
  /-- HS.DETECT or KIND.SET would write KIND a second time in one stream (R125, R267, U10). Safe. -/
  | kindChanged
  /-- FL.LOOKUP, GRP.DEC or GRP.ENC before the kind of the stream is fixed (R267). Safe. -/
  | kindNotFixed
  /-- DIN does not hold exactly the bytes the operation pops: too few, or a surplus (R225, R272). Safe. -/
  | dinNotExact
  /-- PIN does not hold exactly the blocks the operation pops (R225). Safe. -/
  | pinNotExact
  /-- A PIN block does not have `NSAMP[KIND]` samples (R268, U6). Safe. -/
  | blockLength
  /-- A PIN block is not at the kind's sample rate (R225, R268). Safe. -/
  | sampleRate
  /-- A group operation while no codec engine of the stream exists, under an Unknown kind too, or one of another kind than the stream's
  (R224, R225, U5). Safe. -/
  | noCodec
  /-- A codec engine is created twice or for no kind, created while an earlier stream's exists, destroyed when there is none, or not
  destroyed when its stream is finished or the run ends (R224). Safe. -/
  | codecLifetime
  /-- The codec engine's reply breaks its contract: a block of another length, or a record of another length than its size
  (R29, U2, U3). Safe. -/
  | codecReply
  /-- The room for the output was not kept: the operation ended with E_NO_SPACE (R188, R269). Safe. -/
  | noRoom
deriving DecidableEq, Repr

/-- A block as the host has it: the rate in Hz its samples were taken at, which PIN does not carry (R268), and the samples (R28). -/
structure HostBlock where
  rate : Nat
  samples : PcmBlock
deriving DecidableEq, Repr

/-- The kind's sample rate in Hz: 8 kHz narrowband, 16 kHz wideband (R222, R268). -/
def sampleRate : Kind → Nat
  | .unknown => 0
  | .nb => 8000
  | .wb => 16000

/-- What the host, its codec engine and the platform can do at an operation boundary (R220, R225, R260). -/
inductive HostAction where
  /-- The host presents a command word, with the DIN bytes and PIN blocks that are meant for it, and the operation runs (R271). -/
  | issue (w : CmdWord) (din : List Byte) (pin : List HostBlock)
  /-- The host receives the response (R25). -/
  | receive
  /-- The host drains up to `n` bytes from DOUT (R27). -/
  | drainDout (n : Nat)
  /-- The host drains up to `n` blocks from POUT (R28). -/
  | drainPout (n : Nat)
  /-- The host creates the codec engine of the stream (R224). -/
  | createCodec (kind : Kind)
  /-- The host destroys it (R224). -/
  | destroyCodec
  /-- The stream is finished; what follows belongs to the next one (R125). -/
  | finishStream
  /-- The codec engine settles its next reply to `ENG.decode` (R29). -/
  | codecDecodes (blk : PcmBlock)
  /-- The codec engine settles its next reply to `ENG.encode` (R29). -/
  | codecEncodes (rep : EncReply)
  /-- The platform asserts reset (R260): the stream in progress is over. -/
  | reset
deriving DecidableEq, Repr

/-- The bytes of DIN an operation pops (R102, R137, R204): none when its operands are refused. -/
def dinTaken (c : Config) (i : Instr) : Nat :=
  if i.wellFormed c then
    match i with
    | .bcWrb len => len.toNat
    | .tocEnc k => k.toNat
    | .hmLd _ len => len.toNat
    | .bcAttach _ _ | .bcRd _ | .bcWr _ _ | .bcRdb _ | .hsDetect | .kindSet _ | .flLookup _ | .tocDec | .grpDec | .grpEnc _ _
    | .csrRd _ | .flgClr _ | .hmSt _ _ | .nop => 0
  else 0

/-- The blocks of PIN an operation pops under a kind (R181). -/
def pinTaken (k : Kind) : Instr → Nat
  | .grpEnc nblk _ => if k ≠ .unknown ∧ nblk.toNat ≤ Config.tocCap then nblk.toNat else 0
  | .bcAttach _ _ | .bcRd _ | .bcWr _ _ | .bcRdb _ | .bcWrb _ | .hsDetect | .kindSet _ | .flLookup _ | .tocDec | .tocEnc _ | .grpDec
  | .csrRd _ | .flgClr _ | .hmLd _ _ | .hmSt _ _ | .nop => 0

/-- The operation writes KIND (R121, R124): KIND.SET does when its operand is legal. -/
def fixesKind : Instr → Bool
  | .hsDetect => true
  | .kindSet kind => decide (kind.toNat = 1 ∨ kind.toNat = 2)
  | .bcAttach _ _ | .bcRd _ | .bcWr _ _ | .bcRdb _ | .bcWrb _ | .flLookup _ | .tocDec | .tocEnc _ | .grpDec | .grpEnc _ _ | .csrRd _
  | .flgClr _ | .hmLd _ _ | .hmSt _ _ | .nop => false

/-- A group operation (R161, R181): it calls the codec engine. -/
def usesCodec : Instr → Bool
  | .grpDec | .grpEnc _ _ => true
  | .bcAttach _ _ | .bcRd _ | .bcWr _ _ | .bcRdb _ | .bcWrb _ | .hsDetect | .kindSet _ | .flLookup _ | .tocDec | .tocEnc _ | .csrRd _
  | .flgClr _ | .hmLd _ _ | .hmSt _ _ | .nop => false

/-- The operation must not precede the one that fixes the kind of its stream (R225, R267). -/
def needsKind : Instr → Bool
  | .flLookup _ | .grpDec | .grpEnc _ _ => true
  | .bcAttach _ _ | .bcRd _ | .bcWr _ _ | .bcRdb _ | .bcWrb _ | .hsDetect | .kindSet _ | .tocDec | .tocEnc _ | .csrRd _ | .flgClr _
  | .hmLd _ _ | .hmSt _ _ | .nop => false

/-- The operation whose duties a command word carries: an illegal word pops nothing and needs nothing, like NOP (R64, R207). -/
def operationOf (w : CmdWord) : Instr :=
  match decode w with
  | .ok i => i
  | .error _ => .nop

/-- The bulk input of one operation supplied (R26, R28): of a block only its samples. -/
def State.supply (s : State) (din : List Byte) (pin : List HostBlock) : State :=
  { s.supplyDin din with pin := s.pin ++ pin.map HostBlock.samples }

/-- The duty broken by presenting the operation `i` to the engine `h.st`, whose bulk input has been supplied, its blocks `pin`; the first
one in this order. Nothing else stands on PIN between two actions (`Session.Inv`), so the blocks of `pin` are all whose rate matters. -/
def Session.breach (h : Session) (i : Instr) (pin : List HostBlock) : Option HostBreach :=
  if h.st.cmds ≠ [] ∨ h.st.rsps ≠ [] then some .commandOutstanding
  else if fixesKind i = true ∧ h.kindFixed = true then some .kindChanged
  else if needsKind i = true ∧ h.kindFixed = false then some .kindNotFixed
  else if h.st.din.length ≠ dinTaken h.st.cfg i then some .dinNotExact
  else if h.st.pin.length ≠ pinTaken h.st.kind i then some .pinNotExact
  else if ∃ blk ∈ h.st.pin, blk.length ≠ nsamp h.st.kind then some .blockLength
  else if ∃ blk ∈ pin, blk.rate ≠ sampleRate h.st.kind then some .sampleRate
  else if usesCodec i = true ∧ h.codec.serves h.st.kind = false then some .noCodec
  else none

/-- The host issues a command (R225): refused for a duty broken before the operation, or for room not kept; else the engine runs it. -/
def Session.issue (h : Session) (w : CmdWord) (din : List Byte) (pin : List HostBlock) : Host.Outcome Session Fault HostBreach :=
  match Session.breach { h with st := h.st.supply din pin } (operationOf w) pin with
  | some b => .refused b
  | none =>
    match step ((h.st.supply din pin).presentCommand w) with
    | .fault r => .fault r
    | .refused _ => .refused .codecReply
    | .next t =>
      if ∃ r ∈ t.rsps, r.status = .noSpace then .refused .noRoom
      else .next { h with st := t, kindFixed := h.kindFixed || fixesKind (operationOf w) }

/-- The codec engine's reply is within the oracle of R29 for the kind the engine was created for. -/
def Session.codecSettles (h : Session) (ok : Kind → Bool) (t : State) : Host.Outcome Session Fault HostBreach :=
  match h.codec with
  | .live k => if ok k then .next { h with st := t } else .refused .codecReply
  | .absent | .destroyed | .leftOver => .refused .noCodec

/-- The replies settled and not taken go with the codec engine that gave them (R224). -/
def State.dropReplies (s : State) : State := { s with decReps := [], encReps := [] }

/-- The host drains up to `n` bytes from DOUT and keeps them (R27, R226). -/
def Session.drainBytes (h : Session) (n : Nat) : Session :=
  let r := h.st.drainDout n
  { h with st := r.2, outBytes := h.outBytes ++ r.1 }

/-- The host drains up to `n` blocks from POUT and keeps them (R28, R226). -/
def Session.drainBlocks (h : Session) (n : Nat) : Session :=
  let r := h.st.drainPout n
  { h with st := r.2, outBlocks := h.outBlocks ++ r.1 }

/-- The platform resets the engine (R260, R262): the stream in progress is over and its codec engine is the host's to destroy. -/
def Session.resetEngine (h : Session) : Session where
  st := h.st.applyReset.dropReplies
  kindFixed := false
  codec := h.codec.afterReset
  outBytes := h.outBytes ++ h.st.dout
  outBlocks := h.outBlocks ++ h.st.pout

/-- One action at an operation boundary. -/
def Session.act (h : Session) : HostAction → Host.Outcome Session Fault HostBreach
  | .issue w din pin => h.issue w din pin
  | .receive => .next { h with st := ((h.st.takeResponse).map Prod.snd).getD h.st }
  | .drainDout n => .next (h.drainBytes n)
  | .drainPout n => .next (h.drainBlocks n)
  | .createCodec k =>
    if h.codec = .absent ∧ k ≠ .unknown then .next { h with codec := .live k } else .refused .codecLifetime
  | .destroyCodec =>
    match h.codec.destroy with
    | some c => .next { h with st := h.st.dropReplies, codec := c }
    | none => .refused .codecLifetime
  | .finishStream =>
    if h.codec.exists then .refused .codecLifetime else .next { h with kindFixed := false, codec := .absent }
  | .codecDecodes blk => h.codecSettles (fun k => decide (blk.length = nsamp k)) (h.st.answerDecode blk)
  | .codecEncodes rep =>
    h.codecSettles (fun k => decide (plausible h.st.cfg k rep.size = true → rep.record.length = rep.size.toNat)) (h.st.answerEncode rep)
  | .reset => .next h.resetEngine

/-- The actions in order, up to the first one that has no meaning. -/
def Session.acts (h : Session) : List HostAction → Host.Outcome Session Fault HostBreach
  | [] => .next h
  | a :: as =>
    match h.act a with
    | .next h' => Session.acts h' as
    | .fault r => .fault r
    | .refused b => .refused b

/-- What a run has produced (R226): BUF and the registers, and every byte and block pushed on DOUT and POUT since it began. -/
structure RunResult where
  st : State
  bytes : List Byte
  blocks : List PcmBlock
deriving DecidableEq, Repr

/-- The bytes pushed on DOUT since the session began, drained or not (R226). -/
def Session.pushedBytes (h : Session) : List Byte := h.outBytes ++ h.st.dout

/-- The blocks pushed on POUT since the session began, drained or not (R226). -/
def Session.pushedBlocks (h : Session) : List PcmBlock := h.outBlocks ++ h.st.pout

/-- The host issues no further operation (R226): refused while a codec engine exists, which the host must destroy on every path, an error
stop included (R224). -/
def Session.finish (h : Session) : Host.Outcome RunResult Fault HostBreach :=
  if h.codec.exists then .refused .codecLifetime else .next ⟨h.st, h.pushedBytes, h.pushedBlocks⟩

/-- A whole run of the host (R226): its actions, and its end. One in which the engine waits has no result. -/
def Session.run (h : Session) (as : List HostAction) : Host.Outcome RunResult Fault HostBreach :=
  match h.acts as with
  | .next h' => h'.finish
  | .fault r => .fault r
  | .refused b => .refused b

/-- A session begins right after reset, with no stream begun and nothing pushed (R224, R260). -/
def Session.start (c : Config) : Session := ⟨State.resetWith c, false, .absent, [], []⟩

end Sys2Proof.Machine
end

