-- ==== Sys2Proof/Machine/Wire.lean ====
section
/-! DEFINITION. The wire formats as byte lists (30_encoding.md): the group (R75) and the stream (R73). No operation uses them; the
statements about the group operations do. -/

namespace Sys2Proof.Machine

/-- The magic literal of a kind (R72); nothing for Unknown. -/
def magicOf : Kind → List Byte
  | .unknown => []
  | .nb => magicNB
  | .wb => magicWB

/-- The octets of the chain of a group (R75). -/
def groupOctets (frames : List Frame) : List Byte :=
  chainOctets (frames.map fun f => (f.ft, f.q))

/-- A group of frames on the wire (R75): the chain, then the payloads. -/
def groupBytes (frames : List Frame) : List Byte :=
  groupOctets frames ++ frames.flatMap Frame.payload

/-- A stream on the wire (R73): the magic literal, then the groups with nothing between them. -/
def streamBytes (k : Kind) (groups : List (List Frame)) : List Byte :=
  magicOf k ++ groups.flatMap groupBytes

/-- A frame of a well-formed stream of kind `k` (R75, R155): a valid type and a payload of its length. -/
abbrev Frame.wf (c : Config) (k : Kind) (f : Frame) : Prop :=
  validFt c k f.ft.toNat = true ∧ f.payload.length = paylen c k f.ft.toNat

end Sys2Proof.Machine
end

