-- ==== Sys2Proof/Safety.lean ====
section
/-! DEFINITION. The terms claims about AMR-BCE are stated in: the state after a response, what the attached region holds, the
invariant of 10_state.md R32 with the bounds of 40_bit_cursor.md R105 (b), and the contract of the host and the codec engine. -/

namespace Sys2Proof.Machine

/-- The state after the response `(st, w, r0, r1)` of an operation that raised exactly the warnings `w` (R232, R236). -/
def State.answered (s : State) (st : Status) (w : BitVec 3) (r0 r1 : Nat) : State :=
  { s with
    flags := s.flags ||| w
    err := errAfter s.err st
    rsps := s.rsps ++ [⟨st, w, BitVec.ofNat 32 r0, BitVec.ofNat 32 r1⟩] }

/-- The attached region holds the bytes `bs` from bit address `a` on (R42, R45). -/
abbrev State.holdsAt (s : State) (a : Nat) (bs : List Byte) : Prop :=
  a + 8 * bs.length ≤ s.limit ∧ s.getBits a (8 * bs.length) = bytesBits bs

/-- TOCBUF[i] (R20). -/
def State.tocEntry (s : State) (i : Nat) : Byte := s.tocbuf.toList.getD i 0

/-- The TOC store is a well-terminated chain of normalised octets, 0 past it (R19, R20, R32). -/
abbrev State.tocOk (s : State) : Prop :=
  s.tocn.toNat ≤ Config.tocCap ∧
    ∀ i, i < Config.tocCap →
      (i < s.tocn.toNat → (s.tocEntry i).extractLsb' 0 2 = 0) ∧
      (i + 1 < s.tocn.toNat → octetF (s.tocEntry i) = true) ∧
      (i + 1 = s.tocn.toNat → octetF (s.tocEntry i) = false) ∧
      (s.tocn.toNat ≤ i → s.tocEntry i = 0)

/-- BUF is in canonical form and lists no byte past its capacity (R40). -/
abbrev State.bufOk (s : State) : Prop :=
  Memory.wf s.buf ∧ ∀ c ∈ s.buf, c.1 < s.cfg.bufmax

/-- ERR holds a status code of R231. -/
abbrev State.errOk (s : State) : Prop :=
  s.err ∈ ([.ok, .unknownFormat, .malformedToc, .invalidFrameType, .noData, .noSpace, .illegalOp, .badOperand].map statusCode)

/-- The invariant of every operation boundary: the configuration meets its constraints, BUF is canonical, `LEN <= BUFMAX`,
`POS <= 8*LEN`, the TOC store is a well-terminated chain (R32), ERR holds a code (R231), and the counters are within the bounds of
R105 (b). -/
abbrev State.Inv (s : State) : Prop :=
  s.cfg.wf ∧ s.bufOk ∧ s.len.toNat ≤ s.cfg.bufmax ∧ s.cursor ≤ s.limit ∧ s.tocOk ∧ s.errOk ∧
    s.exppay.toNat ≤ Config.tocCap * 254 ∧ s.rempay.toNat ≤ s.cfg.bufmax ∧ s.skipcnt.toNat ≤ Config.tocCap

/-- The codec engine keeps its contract in a reply to `ENG.encode` (R29, U2): a plausible size is the record's length. -/
abbrev EncReply.contract (c : Config) (k : Kind) (r : EncReply) : Prop :=
  plausible c k r.size = true → r.record.length = r.size.toNat

/-- The invariant of a session that keeps the contract (R225): between two actions the engine's invariant holds, no command is
outstanding, no surplus stands on DIN or PIN, at most one response waits to be received, and the codec engine, created for a known kind,
has only replies within its contract for that kind. -/
abbrev Session.Inv (h : Session) : Prop :=
  h.st.Inv ∧ h.st.cmds = [] ∧ h.st.din = [] ∧ h.st.pin = [] ∧ h.st.rsps.length ≤ 1 ∧ h.codec ≠ .live .unknown ∧
    (∀ blk ∈ h.st.decReps, h.codec.kind ≠ .unknown ∧ blk.length = nsamp h.codec.kind) ∧
    ∀ rep ∈ h.st.encReps, h.codec.kind ≠ .unknown ∧ rep.contract h.st.cfg h.codec.kind

/-- The octet at bit address `a`, its bits past the region read as 0 (R43, R45). -/
def State.octetAt (s : State) (a : Nat) : Byte := BitVec.ofNat 8 (bitsValue (s.getBits a 8))

/-- The TOC store holds exactly the chain `ents` (R19, R20). -/
abbrev State.tocIs (s : State) (ents : List Byte) : Prop :=
  s.tocn.toNat = ents.length ∧ ∀ i, i < Config.tocCap → s.tocEntry i = ents.getD i 0

/-- The pieces of state of the write matrix of R33, the streams and the codec engine port one by one. -/
inductive Piece where
  | cfg | buf | len | pos | kind | trunc | plm | eef | err | toc | paylens | skipcnt | din | dout | pin | pout | codecReqs
  | codecDec | codecEnc
deriving DecidableEq, Repr

/-- The piece is the same in both states. -/
def Piece.same (p : Piece) (s t : State) : Prop :=
  match p with
  | .cfg => t.cfg = s.cfg ∧ t.epoch = s.epoch ∧ t.cmds = s.cmds
  | .buf => t.buf = s.buf
  | .len => t.len = s.len
  | .pos => t.pos = s.pos
  | .kind => t.kind = s.kind
  | .trunc => t.flags.getLsbD 0 = s.flags.getLsbD 0
  | .plm => t.flags.getLsbD 1 = s.flags.getLsbD 1
  | .eef => t.flags.getLsbD 2 = s.flags.getLsbD 2
  | .err => t.err = s.err
  | .toc => t.tocn = s.tocn ∧ t.tocbuf = s.tocbuf
  | .paylens => t.exppay = s.exppay ∧ t.rempay = s.rempay
  | .skipcnt => t.skipcnt = s.skipcnt
  | .din => t.din = s.din
  | .dout => t.dout = s.dout
  | .pin => t.pin = s.pin
  | .pout => t.pout = s.pout
  | .codecReqs => t.engReqs = s.engReqs
  | .codecDec => t.decReps = s.decReps
  | .codecEnc => t.encReps = s.encReps

/-- The row of an operation in the write matrix of R33: the pieces it may change; an error column counts as ERR. -/
def mayWrite : Instr → List Piece
  | .bcAttach _ _ => [.len, .pos, .err]
  | .bcRd _ => [.pos, .trunc, .err]
  | .bcWr _ _ => [.buf, .pos, .trunc, .err]
  | .bcRdb _ => [.pos, .trunc, .err, .dout]
  | .bcWrb _ => [.buf, .pos, .trunc, .err, .din]
  | .hsDetect => [.kind]
  | .kindSet _ => [.kind, .err]
  | .flLookup _ => [.err]
  | .tocDec => [.pos, .trunc, .err, .toc, .dout]
  | .tocEnc _ => [.buf, .pos, .err, .toc, .din]
  | .grpDec => [.pos, .trunc, .plm, .err, .toc, .paylens, .pout, .codecReqs, .codecDec]
  | .grpEnc _ _ => [.buf, .pos, .eef, .err, .toc, .skipcnt, .pin, .codecReqs, .codecEnc]
  | .csrRd _ => [.err]
  | .flgClr _ => [.trunc, .plm, .eef, .err]
  | .hmLd _ _ => [.buf, .err, .din]
  | .hmSt _ _ => [.err, .dout]
  | .nop => []

/-- The two states differ in BUF at most, and agree on every byte below index `n`. -/
abbrev State.sameBelow (n : Nat) (s t : State) : Prop :=
  { s with buf := [] } = { t with buf := [] } ∧ ∀ a, a < n → s.bufByte a = t.bufByte a

end Sys2Proof.Machine
end

