-- ==== Sys2Proof/Certificates/Slice0/Obligations.lean ====
section
/-! DEFINITION. The statements for the provers, each a proposition about every state, operand and configuration it names. In all of
them `s.cursor` is POS, `s.limit` is `8*LEN`, `s.avail` is the bits left between them; `answered` is the state after a response
(R232, R236) and warning bits are 1 TRUNC, 2 PLM, 4 EEF (R237). -/

open Sys2Proof Sys2Proof.Machine

/-! ## Encoding (30_encoding.md) -/

/-- Decoding an encoded operation gives it back, whatever its operands (30_encoding.md section 2). -/
def Obligations.DecodeOfEncodeIsTheOperation : Prop :=
  ∀ i : Instr, decode (encode i) = .ok i

/-- The command word has OP in bits 71..64, A in bits 63..32 and B in bits 31..0 (R61): the opcode alone selects the operation (R62), and
the operation's operands are the numbers A and B exactly as they stand there (R63). A word put together from the three fields has them in
those bits, and fields marked ignored never matter: with the opcodes that use A only, with those that use neither field, and with those
that use both. -/
def Obligations.DecodeUsesExactlyTheNamedFields : Prop :=
  (∀ (w : CmdWord) (a b : Word) (op : Nat), op = w.toNat / 2 ^ 64 → a.toNat = w.toNat / 2 ^ 32 % 2 ^ 32 → b.toNat = w.toNat % 2 ^ 32 →
    (op = 0x01 → decode w = .ok (.bcAttach a b)) ∧ (op = 0x02 → decode w = .ok (.bcRd a)) ∧ (op = 0x03 → decode w = .ok (.bcWr a b)) ∧
    (op = 0x04 → decode w = .ok (.bcRdb a)) ∧ (op = 0x05 → decode w = .ok (.bcWrb a)) ∧ (op = 0x08 → decode w = .ok .hsDetect) ∧
    (op = 0x09 → decode w = .ok (.kindSet a)) ∧ (op = 0x0A → decode w = .ok (.flLookup a)) ∧ (op = 0x10 → decode w = .ok .tocDec) ∧
    (op = 0x11 → decode w = .ok (.tocEnc a)) ∧ (op = 0x18 → decode w = .ok .grpDec) ∧ (op = 0x19 → decode w = .ok (.grpEnc a b)) ∧
    (op = 0x20 → decode w = .ok (.csrRd a)) ∧ (op = 0x21 → decode w = .ok (.flgClr a)) ∧ (op = 0x28 → decode w = .ok (.hmLd a b)) ∧
    (op = 0x29 → decode w = .ok (.hmSt a b)) ∧ (op = 0x30 → decode w = .ok .nop)) ∧
  (∀ (op : Byte) (a b : Word), (mkCmd op a b).toNat = op.toNat * 2 ^ 64 + a.toNat * 2 ^ 32 + b.toNat) ∧
  (∀ op ∈ ([0x02, 0x04, 0x05, 0x09, 0x0A, 0x11, 0x20, 0x21] : List Byte), ∀ a a' b b' : Word,
    decode (mkCmd op a b) = decode (mkCmd op a' b') ↔ a = a') ∧
  (∀ op ∈ ([0x08, 0x10, 0x18, 0x30] : List Byte), ∀ a a' b b' : Word,
    decode (mkCmd op a b) = decode (mkCmd op a' b')) ∧
  (∀ op ∈ ([0x01, 0x03, 0x19, 0x28, 0x29] : List Byte), ∀ a a' b b' : Word,
    decode (mkCmd op a b) = decode (mkCmd op a' b') ↔ a = a' ∧ b = b')

/-- Words written out from the spec's encodings decode to the operations they stand for (95_test_vectors.md). -/
def Obligations.SpecWordsDecode : Prop :=
  decode 0x010000004600000030 = .ok (.bcAttach 70 48) ∧
  decode 0x020000000C00000000 = .ok (.bcRd 12) ∧
  decode 0x030000000D00000ABC = .ok (.bcWr 13 0xABC) ∧
  decode 0x040000000200000000 = .ok (.bcRdb 2) ∧
  decode 0x08FFFFFFFFFFFFFFFF = .ok .hsDetect ∧
  decode 0x0A0000000700000000 = .ok (.flLookup 7) ∧
  decode 0x110000000200000000 = .ok (.tocEnc 2) ∧
  decode 0x190000000300000007 = .ok (.grpEnc 3 7) ∧
  decode 0x280000000000000004 = .ok (.hmLd 0 4) ∧
  decode 0x30DEADBEEF12345678 = .ok .nop ∧
  decode 0x000000000000000000 = .error (.illegalOpcode 0)

/-- A command word whose opcode is in the list of R64, and no other, is rejected by the decoder; a step on it changes no state but ERR
and answers E_ILLEGAL_OP with no warning and no result (R64). -/
def Obligations.ReservedOpcodesAreAnsweredIllegal : Prop :=
  ∀ (s : State) (w : CmdWord) (ws : List CmdWord) (op : Nat), s.cmds = w :: ws → op = w.toNat / 2 ^ 64 →
    ((op = 0x00 ∨ op = 0x06 ∨ op = 0x07 ∨ (0x0B ≤ op ∧ op ≤ 0x0F) ∨ (0x12 ≤ op ∧ op ≤ 0x17) ∨ (0x1A ≤ op ∧ op ≤ 0x1F) ∨
        (0x22 ≤ op ∧ op ≤ 0x27) ∨ (0x2A ≤ op ∧ op ≤ 0x2F) ∨ (0x31 ≤ op ∧ op ≤ 0xFF)) ↔ ∃ e, decode w = .error e) ∧
    ((∃ e, decode w = .error e) →
      step s = .next ({ s with cmds := ws }.answered .illegalOp 0 0 0) ∧ statusCode .illegalOp = 0x10)

/-- The response word (R66): STATUS in bits 79..72, WFLAGS in 71..64 with bits 7..3 of it 0, R0 in 63..32, R1 in 31..0; and the code
numbers of the eight statuses (R231), which are all there are. -/
def Obligations.ResponseWordLayout : Prop :=
  (statusCode .ok = 0x00 ∧ statusCode .unknownFormat = 0x01 ∧ statusCode .malformedToc = 0x02 ∧
    statusCode .invalidFrameType = 0x03 ∧ statusCode .noData = 0x04 ∧ statusCode .noSpace = 0x05 ∧
    statusCode .illegalOp = 0x10 ∧ statusCode .badOperand = 0x11) ∧
  ∀ r : Rsp,
    ((statusCode r.status).toNat ≤ 0x05 ∨ statusCode r.status = 0x10 ∨ statusCode r.status = 0x11) ∧
    (r.word.toNat / 2 ^ 72 = (statusCode r.status).toNat) ∧ (r.word.toNat / 2 ^ 64 % 2 ^ 8 = r.wflags.toNat) ∧
    (r.word.toNat / 2 ^ 32 % 2 ^ 32 = r.r0.toNat) ∧ (r.word.toNat % 2 ^ 32 = r.r1.toNat)

/-- The TOC octet (R69, R70): bit 7 is F, bits 6..3 the frame type, bit 2 Q, bits 1..0 zero; the three fields are read from those bits of
any byte, and the octet of the three fields of any byte is that byte with its padding cleared. -/
def Obligations.TocOctetLayout : Prop :=
  (∀ (f : Bool) (ft : BitVec 4) (q : Bool),
    (tocOctet f ft q).toNat = f.toNat * 2 ^ 7 + ft.toNat * 2 ^ 3 + q.toNat * 2 ^ 2) ∧
  (∀ b : Byte, octetF b = b.getLsbD 7 ∧ octetFt b = b.extractLsb' 3 4 ∧ octetQ b = b.getLsbD 2) ∧
  (∀ b : Byte, tocOctet (b.getLsbD 7) (b.extractLsb' 3 4) (b.getLsbD 2) = b &&& 0xFC)

/-! ## One step -/

/-- When the next command word decodes to an operation, a step is that operation's effect on the state with the word taken from the
command channel; when the host presents no word, the run has ended (R25, R226). -/
def Obligations.StepRunsTheDecodedOperation : Prop :=
  (∀ (s : State) (w : CmdWord) (ws : List CmdWord) (i : Instr), s.cmds = w :: ws → decode w = .ok i →
    step s = exec i { s with cmds := ws }) ∧
  (∀ s : State, s.cmds = [] → step s = .fault .noCommand)

/-- A table word placed by `withFetchWord` is the operation the next step runs (log entry 7). -/
def Obligations.PlacedWordIsRunNext : Prop :=
  ∀ (s : State) (w : Nat) (i : Instr), decodeTableWord 72 w = some i →
    step (s.withFetchWord 72 w) = exec i { s with cmds := s.cmds.drop 1 }

/-! ## Reset (10_state.md section 10, 70_reset_and_hazards.md section 1) -/

/-- The state after reset (R31), both the initial one of every configuration and the one the reset input leaves whatever the state before:
every register at its value, streams empty, channels idle, no byte of BUF known. -/
def Obligations.ResetLeavesTheStatedValues : Prop :=
  ∀ (c : Config) (s r : State), (r = State.resetWith c ∨ r = s.applyReset) →
    (∀ a, Memory.lookup r.buf a = none) ∧ r.len = 0 ∧ r.pos = 0 ∧ r.kind = .unknown ∧ r.flags = 0 ∧ r.err = 0 ∧
    r.tocn = 0 ∧ (∀ i, i < 20 → r.tocEntry i = 0) ∧ r.exppay = 0 ∧ r.rempay = 0 ∧ r.skipcnt = 0 ∧
    r.din = [] ∧ r.dout = [] ∧ r.pin = [] ∧ r.pout = [] ∧ r.cmds = [] ∧ r.rsps = []

/-- The invariant holds after reset, for every configuration that meets its constraints, and for the default one; and a session that
begins there meets the invariant of sessions. -/
def Obligations.ResetMeetsTheInvariant : Prop :=
  (∀ c : Config, c.wf → (State.resetWith c).Inv ∧ (Session.start c).Inv) ∧ State.reset.Inv

/-- The first operation after reset (70_reset_and_hazards.md section 2), for every configuration: what each of the seventeen operations
answers with legal operands and the input it pops. -/
def Obligations.FirstOperationAfterReset : Prop :=
  ∀ (c : Config) (r : State), c.wf → r = State.resetWith c →
    (∀ n v : Word, 1 ≤ n.toNat → n.toNat ≤ 32 →
      exec (.bcRd n) r = .next (r.answered .ok 1 0 0) ∧ exec (.bcWr n v) r = .next (r.answered .ok 1 0 0)) ∧
    (∀ len : Word, 1 ≤ len.toNat → len.toNat ≤ c.bufmax → exec (.bcRdb len) r = .next (r.answered .ok 1 0 0)) ∧
    (∀ (len : Word) (bs : List Byte), 1 ≤ len.toNat → len.toNat ≤ c.bufmax → len.toNat ≤ bs.length →
      exec (.bcWrb len) { r with din := bs } = .next ({ r with din := bs.drop len.toNat }.answered .ok 1 0 0)) ∧
    exec .hsDetect r = .next (r.answered .ok 0 0 0) ∧
    (∀ ft : Word, ft.toNat ≤ 15 → exec (.flLookup ft) r = .next (r.answered .unknownFormat 0 0 0)) ∧
    exec .grpDec r = .next (r.answered .unknownFormat 0 0 0) ∧
    (∀ nblk mode : Word, exec (.grpEnc nblk mode) r = .next (r.answered .unknownFormat 0 0 0)) ∧
    exec .tocDec r = .next (r.answered .noData 0 0 0) ∧
    (∀ (k : Word) (bs : List Byte), 1 ≤ k.toNat → k.toNat ≤ 20 → k.toNat ≤ bs.length →
      exec (.tocEnc k) { r with din := bs } = .next ({ r with din := bs.drop k.toNat }.answered .noSpace 0 0 0)) ∧
    (∀ len pos0 : Word, len.toNat ≤ c.bufmax → pos0.toNat ≤ 8 * len.toNat →
      exec (.bcAttach len pos0) r = .next ({ r with len := BitVec.ofNat 29 len.toNat, pos := pos0 }.answered .ok 0 0 0)) ∧
    exec (.kindSet 1) r = .next ({ r with kind := .nb }.answered .ok 0 0 0) ∧
    exec (.kindSet 2) r = .next ({ r with kind := .wb }.answered .ok 0 0 0) ∧
    (∀ idx : Word, (idx.toNat ≤ 8 ∨ 16 ≤ idx.toNat ∧ idx.toNat ≤ 35) → exec (.csrRd idx) r = .next (r.answered .ok 0 0 0)) ∧
    exec (.csrRd 9) r = .next (r.answered .ok 0 20 0) ∧
    (∀ mask : Word, exec (.flgClr mask) r = .next (r.answered .ok 0 0 0)) ∧
    (∀ (addr len : Word) (bs : List Byte), addr.toNat + len.toNat ≤ c.bufmax → bs.length = len.toNat →
      ∃ t : State, exec (.hmLd addr len) { r with din := bs } = .next t ∧ t = { r with buf := t.buf }.answered .ok 0 len.toNat 0 ∧
        (∀ i, i < len.toNat → t.bufByte (addr.toNat + i) = bs.getD i 0)) ∧
    (∀ addr len : Word, addr.toNat + len.toNat ≤ c.bufmax →
      ∃ bs : List Byte, bs.length = len.toNat ∧ exec (.hmSt addr len) r = .next ({ r with dout := bs }.answered .ok 0 len.toNat 0)) ∧
    exec .nop r = .next (r.answered .ok 0 0 0)

/-! ## Invariants and whole-machine rules -/

/-- Every step keeps the invariant (10_state.md section 11, with the bounds of 40_bit_cursor.md section 7). -/
def Obligations.StepKeepsTheInvariant : Prop :=
  ∀ s t : State, s.Inv → step s = .next t → t.Inv

/-- Only HM.LD and HM.ST depend on a byte of BUF past the attached region (R41): from two states that differ in such bytes at most,
every other operation stops for the same reason or gives states that differ in such bytes at most, responses included. -/
def Obligations.OperationsSeeOnlyTheAttachedRegion : Prop :=
  ∀ (i : Instr) (s t : State), (∀ a n, i ≠ .hmLd a n ∧ i ≠ .hmSt a n) → State.sameBelow s.len.toNat s t →
    (∃ s' t', exec i s = .next s' ∧ exec i t = .next t' ∧ State.sameBelow s.len.toNat s' t') ∨
    (∃ r, exec i s = .fault r ∧ exec i t = .fault r) ∨ (∃ r, exec i s = .refused r ∧ exec i t = .refused r)

/-- No operation but HM.LD changes a byte of BUF past the attached region (R41). -/
def Obligations.BytesPastTheRegionAreKept : Prop :=
  ∀ (i : Instr) (s t : State) (a : Nat), (∀ x y, i ≠ .hmLd x y) → exec i s = .next t → s.len.toNat ≤ a →
    t.bufByte a = s.bufByte a ∧ (Memory.lookup t.buf a = none ↔ Memory.lookup s.buf a = none)

/-- Every completed operation sends exactly one response; but for FLG.CLR, FLAGS gains exactly the warnings of that response, so a flag is
never cleared, and ERR takes its status when that is not OK and is otherwise unchanged (R17, R18, R232, R236). -/
def Obligations.EveryOperationAnswersOnceAndFlagsAreSticky : Prop :=
  ∀ (i : Instr) (s t : State), exec i s = .next t →
    ∃ r : Rsp, t.rsps = s.rsps ++ [r] ∧
      ((∀ m, i ≠ .flgClr m) → t.flags = s.flags ||| r.wflags ∧
        (r.status = .ok → t.err = s.err) ∧ (r.status ≠ .ok → t.err = statusCode r.status))

/-- The write matrix (10_state.md section 11): a completed operation changes no piece of state outside its row. -/
def Obligations.OperationsWriteOnlyTheirOwnState : Prop :=
  ∀ (i : Instr) (s t : State) (p : Piece), exec i s = .next t → p ∉ mayWrite i → p.same s t

/-- An operand outside the range of the operation's rule is answered E_BAD_OPERAND before any effect, and nothing else is: the tests of KIND
that come first are FL.LOOKUP's second and GRP.ENC's first (60_exceptions.md sections 2 and 4). -/
def Obligations.BadOperandsAreRefusedBeforeAnyEffect : Prop :=
  (∀ (i : Instr) (s : State), i.wellFormed s.cfg = false → (∀ n m, i = .grpEnc n m → s.kind ≠ .unknown) →
    exec i s = .next (s.answered .badOperand 0 0 0)) ∧
  (∀ (i : Instr) (s t : State) (r : Rsp), i.wellFormed s.cfg = true → exec i s = .next t → t.rsps = s.rsps ++ [r] →
    r.status ≠ .badOperand)

/-- While KIND is Unknown the operations that need it are refused before they read BUF, pop a stream or call the codec engine, and HS.DETECT
reports Unknown as a value with status OK (R238). -/
def Obligations.UnknownKindIsRefused : Prop :=
  (∀ (s : State) (ft nblk mode : Word), s.kind = .unknown →
    (ft.toNat ≤ 15 → exec (.flLookup ft) s = .next (s.answered .unknownFormat 0 0 0)) ∧
    exec .grpDec s = .next (s.answered .unknownFormat 0 0 0) ∧
    exec (.grpEnc nblk mode) s = .next (s.answered .unknownFormat 0 0 0)) ∧
  (∀ s t : State, exec .hsDetect s = .next t → t.kind = .unknown →
    t = { s with kind := .unknown }.answered .ok 0 0 0)

/-- An operation that lacks stream data or a reply waits and has no next state (70_reset_and_hazards.md section 3; log entries 3 and 4):
BC.WRB, TOC.ENC and HM.LD with too few bytes on DIN, GRP.ENC with too few blocks on PIN or too few encode replies, GRP.DEC when a frame to
decode gets no reply. -/
def Obligations.OperationsWaitForTheirInput : Prop :=
  (∀ (s : State) (len : Word), len.toNat ≤ s.cfg.bufmax → s.din.length < len.toNat → exec (.bcWrb len) s = .fault .waitDin) ∧
  (∀ (s : State) (k : Word), 1 ≤ k.toNat → k.toNat ≤ 20 → s.din.length < k.toNat → exec (.tocEnc k) s = .fault .waitDin) ∧
  (∀ (s : State) (addr len : Word), addr.toNat + len.toNat ≤ s.cfg.bufmax → s.din.length < len.toNat →
    exec (.hmLd addr len) s = .fault .waitDin) ∧
  (∀ (s : State) (nblk mode : Word), s.kind ≠ .unknown → nblk.toNat ≤ 20 → (∀ r ∈ s.encReps, r.contract s.cfg s.kind) →
    (s.pin.length < nblk.toNat → s.pin.length ≤ s.encReps.length → exec (.grpEnc nblk mode) s = .fault .waitPin) ∧
    (s.encReps.length < nblk.toNat → s.encReps.length < s.pin.length → exec (.grpEnc nblk mode) s = .fault .waitEncode)) ∧
  (∀ (s : State) (k m : Nat), s.kind ≠ .unknown → 8 ≤ s.avail → k ≤ 20 → m ≤ k →
    (∀ i, i < k - 1 → octetF (s.octetAt (s.cursor + 8 * i)) = true) → octetF (s.octetAt (s.cursor + 8 * (k - 1))) = false →
    (∀ i, i < m → validFt s.cfg s.kind (octetFt (s.octetAt (s.cursor + 8 * i))).toNat = true) → s.decReps.length < m →
    exec .grpDec s = .fault .waitDecode)

/-! ## Bits of BUF (20_memory.md) -/

/-- GetBit (R43): inside the region the bit that the address names, 0 past its end, and no byte past the region matters. -/
def Obligations.GetBitIsMostSignificantFirst : Prop :=
  ∀ (s : State) (a : Nat),
    (a < 8 * s.len.toNat → s.getBit a = (s.bufByte (a / 8)).getLsbD (7 - a % 8)) ∧
    (8 * s.len.toNat ≤ a → s.getBit a = false) ∧
    (∀ t : State, State.sameBelow s.len.toNat s t → t.getBit a = s.getBit a)

/-- PutBit (R44): inside the region it replaces that one bit, and the other seven bits of the byte, every other byte of BUF and everything
else are unchanged; past the end nothing changes. -/
def Obligations.PutBitReplacesOneBit : Prop :=
  ∀ (s : State) (a : Nat) (b : Bool),
    (a < 8 * s.len.toNat → { s.putBit a b with buf := s.buf } = s ∧
      ((s.putBit a b).bufByte (a / 8)).getLsbD (7 - a % 8) = b ∧
      (∀ j, j < 8 → j ≠ 7 - a % 8 → ((s.putBit a b).bufByte (a / 8)).getLsbD j = (s.bufByte (a / 8)).getLsbD j) ∧
      (∀ k, k ≠ a / 8 → (s.putBit a b).bufByte k = s.bufByte k)) ∧
    (8 * s.len.toNat ≤ a → s.putBit a b = s)

/-! ## The bit cursor (40_bit_cursor.md) -/

/-- BC.ATTACH (R91): refused when `len > BUFMAX` or `pos0 > 8*len`; else LEN and POS are the operands and nothing else changes. -/
def Obligations.BcAttachSetsRegionAndCursor : Prop :=
  ∀ (s : State) (len pos0 : Word), s.cfg.wf →
    ((s.cfg.bufmax < len.toNat ∨ 8 * len.toNat < pos0.toNat) →
      exec (.bcAttach len pos0) s = .next (s.answered .badOperand 0 0 0)) ∧
    (len.toNat ≤ s.cfg.bufmax → pos0.toNat ≤ 8 * len.toNat →
      ∃ l : BitVec 29, l.toNat = len.toNat ∧
        exec (.bcAttach len pos0) s = .next ({ s with len := l, pos := pos0 }.answered .ok 0 0 0))

/-- BC.RD (R93): the value has the first bit met as its most significant one, bits past the region read as 0; R1 counts the bits inside the
region, TRUNC says that there were fewer than `n`, the cursor advances by `n` and saturates, and nothing else changes. -/
def Obligations.BcRdReadsBits : Prop :=
  ∀ (s : State) (n : Word),
    ((n.toNat < 1 ∨ 32 < n.toNat) → exec (.bcRd n) s = .next (s.answered .badOperand 0 0 0)) ∧
    (1 ≤ n.toNat → n.toNat ≤ 32 →
      ∃ v : Nat, v < 2 ^ n.toNat ∧ (∀ i, i < n.toNat → v.testBit (n.toNat - 1 - i) = s.getBit (s.cursor + i)) ∧
        exec (.bcRd n) s = .next ({ s with pos := BitVec.ofNat 32 (min (s.cursor + n.toNat) s.limit) }.answered .ok
          (if s.avail < n.toNat then 1 else 0) v (min n.toNat s.avail)))

/-- BC.RD past the end (40_bit_cursor.md section 3, corner case (a)): the bits that exist fill the high end of the result, zeros its low
end. -/
def Obligations.BcRdPadsZerosAtTheLowEnd : Prop :=
  ∀ (s t : State) (n : Word) (r : Rsp), 1 ≤ n.toNat → n.toNat ≤ 32 → s.avail < n.toNat →
    exec (.bcRd n) s = .next t → t.rsps = s.rsps ++ [r] →
    r.r0.toNat = bitsValue (s.getBits s.cursor s.avail) * 2 ^ (n.toNat - s.avail) ∧ r.r1.toNat = s.avail ∧ r.wflags = 1

/-- BC.WR (R96): the low `n` bits of the value go to the bits `POS .. POS+got-1`, most significant first; every other bit of BUF keeps its
value, and nothing else changes but POS and the TRUNC flag. -/
def Obligations.BcWrWritesBits : Prop :=
  ∀ (s : State) (n value : Word),
    ((n.toNat < 1 ∨ 32 < n.toNat) → exec (.bcWr n value) s = .next (s.answered .badOperand 0 0 0)) ∧
    (1 ≤ n.toNat → n.toNat ≤ 32 →
      ∃ t : State, exec (.bcWr n value) s = .next t ∧
        t = { s with buf := t.buf, pos := BitVec.ofNat 32 (min (s.cursor + n.toNat) s.limit) }.answered .ok
          (if s.avail < n.toNat then 1 else 0) 0 (min n.toNat s.avail) ∧
        (∀ i, i < min n.toNat s.avail → t.bufBit (s.cursor + i) = value.toNat.testBit (n.toNat - 1 - i)) ∧
        (∀ a, (a < s.cursor ∨ s.cursor + min n.toNat s.avail ≤ a) → t.bufBit a = s.bufBit a) ∧
        (∀ k, (8 * k + 8 ≤ s.cursor ∨ s.cursor + min n.toNat s.avail ≤ 8 * k) → t.bufByte k = s.bufByte k))

/-- BC.RDB (R99): the whole bytes that remain, at most `len`, are pushed on DOUT, each most significant bit first from any bit position;
TRUNC says that there were fewer, POS advances by what was copied, and nothing else changes. -/
def Obligations.BcRdbCopiesWholeBytes : Prop :=
  ∀ (s : State) (len : Word),
    (s.cfg.bufmax < len.toNat → exec (.bcRdb len) s = .next (s.answered .badOperand 0 0 0)) ∧
    (len.toNat ≤ s.cfg.bufmax →
      ∃ bs : List Byte, bs.length = min len.toNat (s.avail / 8) ∧
        (∀ i j, i < bs.length → j < 8 → (bs.getD i 0).getLsbD (7 - j) = s.getBit (s.cursor + 8 * i + j)) ∧
        exec (.bcRdb len) s = .next ({ s with pos := BitVec.ofNat 32 (s.cursor + 8 * bs.length), dout := s.dout ++ bs }.answered .ok
          (if bs.length < len.toNat then 1 else 0) bs.length 0))

/-- The byte formula of an unaligned read copy (20_memory.md section 3): with `q = POS div 8` and `r = POS mod 8`, byte `i` is made of
the two adjacent source bytes `BUF[q+i]` and `BUF[q+i+1]`, or is `BUF[q+i]` when `r = 0`. -/
def Obligations.UnalignedCopyShiftsAdjacentBytes : Prop :=
  ∀ (s t : State) (len : Word) (i : Nat), len.toNat ≤ s.cfg.bufmax → exec (.bcRdb len) s = .next t →
    i < min len.toNat (s.avail / 8) →
    t.dout.getD (s.dout.length + i) 0 =
      if s.cursor % 8 = 0 then s.bufByte (s.cursor / 8 + i)
      else (s.bufByte (s.cursor / 8 + i) <<< (s.cursor % 8)) ||| (s.bufByte (s.cursor / 8 + i + 1) >>> (8 - s.cursor % 8))

/-- A byte copy of one byte gives the value a read of eight bits gives, and leaves the same cursor (20_memory.md section 2). -/
def Obligations.ByteCopyAgreesWithBitRead : Prop :=
  ∀ s : State, 8 ≤ s.avail → 1 ≤ s.cfg.bufmax →
    ∃ (t u : State) (b : Byte), exec (.bcRdb 1) s = .next t ∧ exec (.bcRd 8) s = .next u ∧ t.dout = s.dout ++ [b] ∧
      u.rsps = s.rsps ++ [⟨.ok, 0, b.setWidth 32, 8⟩] ∧ t.pos = u.pos

/-- BC.WRB (R102): exactly `len` bytes are popped from DIN; those that fit whole are written from the cursor on, most significant bit first
at any bit position, every other bit of BUF keeps its value, and POS advances by what was written. -/
def Obligations.BcWrbWritesWholeBytes : Prop :=
  ∀ (s : State) (len : Word) (src rest : List Byte),
    (s.cfg.bufmax < len.toNat → exec (.bcWrb len) s = .next (s.answered .badOperand 0 0 0)) ∧
    (len.toNat ≤ s.cfg.bufmax → s.din = src ++ rest → src.length = len.toNat →
      ∃ (t : State) (count : Nat), count = min len.toNat (s.avail / 8) ∧ exec (.bcWrb len) s = .next t ∧
        t = { s with buf := t.buf, pos := BitVec.ofNat 32 (s.cursor + 8 * count), din := rest }.answered .ok
          (if count < len.toNat then 1 else 0) count 0 ∧
        (∀ i j, i < count → j < 8 → t.bufBit (s.cursor + 8 * i + j) = (src.getD i 0).getLsbD (7 - j)) ∧
        (∀ a, (a < s.cursor ∨ s.cursor + 8 * count ≤ a) → t.bufBit a = s.bufBit a) ∧
        (∀ k, (8 * k + 8 ≤ s.cursor ∨ s.cursor + 8 * count ≤ 8 * k) → t.bufByte k = s.bufByte k))

/-- At the end of the region the cursor stays put: every read answers 0 with TRUNC and every write writes nothing
(40_bit_cursor.md section 1). -/
def Obligations.CursorStaysAtTheEnd : Prop :=
  ∀ (s : State) (n value : Word), s.cursor = s.limit → 1 ≤ n.toNat → n.toNat ≤ 32 →
    exec (.bcRd n) s = .next (s.answered .ok 1 0 0) ∧
    ∃ t : State, exec (.bcWr n value) s = .next t ∧ t = s.answered .ok 1 0 0

/-- Bit round trip (40_bit_cursor.md section 4): a value written at any position where it fits, aligned or not, is read back there. -/
def Obligations.BitsWrittenAreReadBack : Prop :=
  ∀ (s : State) (n v p : Word), s.cfg.wf → s.len.toNat ≤ s.cfg.bufmax → 1 ≤ n.toNat → n.toNat ≤ 32 → v.toNat < 2 ^ n.toNat →
    p.toNat + n.toNat ≤ s.limit →
    ∃ s1 s2 s3 s4 : State, exec (pseudoSeek s p) s = .next s1 ∧ exec (.bcWr n v) s1 = .next s2 ∧
      exec (pseudoSeek s2 p) s2 = .next s3 ∧ exec (.bcRd n) s3 = .next s4 ∧ s4.rsps = s3.rsps ++ [⟨.ok, 0, v, n⟩]

/-- Byte round trip (40_bit_cursor.md section 6): bytes written at any position where they fit are copied back from there, whatever BUF
held before. -/
def Obligations.BytesWrittenAreCopiedBack : Prop :=
  ∀ (s : State) (d rest : List Byte) (m p : Word), s.cfg.wf → s.len.toNat ≤ s.cfg.bufmax → s.din = d ++ rest →
    d.length = m.toNat → p.toNat + 8 * m.toNat ≤ s.limit →
    ∃ s1 s2 s3 s4 : State, exec (pseudoSeek s p) s = .next s1 ∧ exec (.bcWrb m) s1 = .next s2 ∧
      exec (pseudoSeek s2 p) s2 = .next s3 ∧ exec (.bcRdb m) s3 = .next s4 ∧ s4.dout = s3.dout ++ d ∧
      s4.rsps = s3.rsps ++ [⟨.ok, 0, m, 0⟩]

/-! ## The format sniffer (41_format_sniffer.md) -/

/-- HS.DETECT (R121): Wideband when at least nine bytes are attached and they begin with its literal, Narrowband with at least six, else
Unknown; the status is OK in every case and only KIND changes. -/
def Obligations.HsDetectRecognisesTheLiterals : Prop :=
  ∀ s : State,
    (9 ≤ s.len.toNat ∧ s.memRead 0 9 = [0x23, 0x21, 0x41, 0x4D, 0x52, 0x2D, 0x57, 0x42, 0x0A] →
      exec .hsDetect s = .next ({ s with kind := .wb }.answered .ok 0 2 9)) ∧
    (6 ≤ s.len.toNat ∧ s.memRead 0 6 = [0x23, 0x21, 0x41, 0x4D, 0x52, 0x0A] →
      exec .hsDetect s = .next ({ s with kind := .nb }.answered .ok 0 1 6)) ∧
    (¬ (9 ≤ s.len.toNat ∧ s.memRead 0 9 = [0x23, 0x21, 0x41, 0x4D, 0x52, 0x2D, 0x57, 0x42, 0x0A]) →
      ¬ (6 ≤ s.len.toNat ∧ s.memRead 0 6 = [0x23, 0x21, 0x41, 0x4D, 0x52, 0x0A]) →
      exec .hsDetect s = .next ({ s with kind := .unknown }.answered .ok 0 0 0))

/-- The source's property of the sniffer (R123): on a region holding a literal and then any bytes HS.DETECT returns that kind, on any other
it returns Unknown, in R0 and in KIND. -/
def Obligations.HsDetectClassifiesEveryRegion : Prop :=
  ∀ (s : State) (k : Kind),
    (∃ (t : State) (r : Rsp), exec .hsDetect s = .next t ∧ t.kind = k ∧ t.rsps = s.rsps ++ [r] ∧
        r.r0.toNat = match k with | .unknown => 0 | .nb => 1 | .wb => 2) ↔
      (k = .nb ∧ ∃ x, s.memRead 0 s.len.toNat = [0x23, 0x21, 0x41, 0x4D, 0x52, 0x0A] ++ x) ∨
      (k = .wb ∧ ∃ x, s.memRead 0 s.len.toNat = [0x23, 0x21, 0x41, 0x4D, 0x52, 0x2D, 0x57, 0x42, 0x0A] ++ x) ∨
      (k = .unknown ∧ ∀ x, s.memRead 0 s.len.toNat ≠ [0x23, 0x21, 0x41, 0x4D, 0x52, 0x0A] ++ x ∧
        s.memRead 0 s.len.toNat ≠ [0x23, 0x21, 0x41, 0x4D, 0x52, 0x2D, 0x57, 0x42, 0x0A] ++ x)

/-- KIND.SET (R124): codes 1 and 2 set the kind and nothing else; every other code is refused. -/
def Obligations.KindSetTakesOneOrTwo : Prop :=
  ∀ (s : State) (kind : Word),
    (kind.toNat = 1 → exec (.kindSet kind) s = .next ({ s with kind := .nb }.answered .ok 0 0 0)) ∧
    (kind.toNat = 2 → exec (.kindSet kind) s = .next ({ s with kind := .wb }.answered .ok 0 0 0)) ∧
    (kind.toNat ≠ 1 ∧ kind.toNat ≠ 2 → exec (.kindSet kind) s = .next (s.answered .badOperand 0 0 0))

/-! ## The TOC codec (42_toc_codec.md) -/

/-- TOC.DEC (R132): with fewer than 8 bits left it is refused with no change; else the octets from the cursor on, read with zeros past the
region, are taken up to the first whose F is 0, at most 20. All 20 with F = 1 is E_MALFORMED_TOC: the store is emptied and the cursor is
after them. Else the normalised octets go to the TOC store and onto DOUT. -/
def Obligations.TocDecDecodesOneChain : Prop :=
  ∀ s : State,
    (s.avail < 8 → exec .tocDec s = .next (s.answered .noData 0 0 0)) ∧
    (8 ≤ s.avail → (∀ i, i < 20 → octetF (s.octetAt (s.cursor + 8 * i)) = true) →
      ∃ t : State, exec .tocDec s = .next t ∧ t.tocIs [] ∧
        t = { s with pos := BitVec.ofNat 32 (min (s.cursor + 160) s.limit), tocn := t.tocn, tocbuf := t.tocbuf }.answered
          .malformedToc (if s.avail < 160 then 1 else 0) 0 0) ∧
    (∀ k : Nat, 8 ≤ s.avail → 1 ≤ k → k ≤ 20 → (∀ i, i < k - 1 → octetF (s.octetAt (s.cursor + 8 * i)) = true) →
      octetF (s.octetAt (s.cursor + 8 * (k - 1))) = false →
      ∃ (t : State) (ents : List Byte), ents = (List.range k).map (fun i => s.octetAt (s.cursor + 8 * i) &&& 0xFC) ∧
        exec .tocDec s = .next t ∧ t.tocIs ents ∧
        t = { s with
          pos := BitVec.ofNat 32 (min (s.cursor + 8 * k) s.limit), tocn := t.tocn, tocbuf := t.tocbuf
          dout := s.dout ++ ents }.answered .ok (if s.avail < 8 * k then 1 else 0) k
            ((min (s.cursor + 8 * k) s.limit - s.cursor) / 8))

/-- TOC.DEC finishes in every state, with OK, E_NO_DATA or E_MALFORMED_TOC, after at most 160 bits, none outside the region
(42_toc_codec.md section 1). -/
def Obligations.TocDecAlwaysFinishes : Prop :=
  ∀ s : State, s.cursor ≤ s.limit →
    ∃ (t : State) (r : Rsp), exec .tocDec s = .next t ∧ t.rsps = s.rsps ++ [r] ∧
      (r.status = .ok ∨ r.status = .noData ∨ r.status = .malformedToc) ∧ t.buf = s.buf ∧
      s.cursor ≤ t.cursor ∧ t.cursor ≤ s.cursor + 160 ∧ t.cursor ≤ s.limit

/-- A chain cut by the end of the region is ended by one all-zero entry that is not in the data, with TRUNC (42_toc_codec.md section 1). -/
def Obligations.TocDecEndsACutChain : Prop :=
  ∀ (s : State) (j : Nat), 1 ≤ j → j < 20 → s.avail = 8 * j → s.cursor ≤ s.limit →
    (∀ i, i < j → octetF (s.octetAt (s.cursor + 8 * i)) = true) →
    ∃ t : State, exec .tocDec s = .next t ∧ t.cursor = s.limit ∧
      t.tocIs ((List.range j).map (fun i => s.octetAt (s.cursor + 8 * i) &&& 0xFC) ++ [0]) ∧
      t.rsps = s.rsps ++ [⟨.ok, 1, BitVec.ofNat 32 (j + 1), BitVec.ofNat 32 j⟩]

/-- TOC.ENC (R137): refused outside 1..20; else `k` bytes are popped from DIN, and with too little room nothing else changes; with room
each octet has F = 1 but for the last, the frame type and quality of its input byte and padding 0, in exactly the `8*k` bits from the old
cursor, and the TOC store holds the chain. -/
def Obligations.TocEncWritesOneChain : Prop :=
  ∀ (s : State) (k : Word) (src rest : List Byte),
    ((k.toNat < 1 ∨ 20 < k.toNat) → exec (.tocEnc k) s = .next (s.answered .badOperand 0 0 0)) ∧
    (1 ≤ k.toNat → k.toNat ≤ 20 → s.din = src ++ rest → src.length = k.toNat → s.avail < 8 * k.toNat →
      exec (.tocEnc k) s = .next ({ s with din := rest }.answered .noSpace 0 0 0)) ∧
    (1 ≤ k.toNat → k.toNat ≤ 20 → s.din = src ++ rest → src.length = k.toNat → 8 * k.toNat ≤ s.avail →
      ∃ (t : State) (ents : List Byte), exec (.tocEnc k) s = .next t ∧ ents.length = k.toNat ∧
        (∀ i, i < k.toNat → ents.getD i 0 = (if i + 1 < k.toNat then 0x80 else 0) ||| (src.getD i 0 &&& 0x7C)) ∧
        t = { s with
          buf := t.buf, pos := BitVec.ofNat 32 (s.cursor + 8 * k.toNat), tocn := t.tocn, tocbuf := t.tocbuf
          din := rest }.answered .ok 0 k.toNat k.toNat ∧
        t.tocIs ents ∧ t.holdsAt s.cursor ents ∧
        (∀ a, (a < s.cursor ∨ s.cursor + 8 * k.toNat ≤ a) → t.bufBit a = s.bufBit a) ∧
        (∀ b, (8 * b + 8 ≤ s.cursor ∨ s.cursor + 8 * k.toNat ≤ 8 * b) → t.bufByte b = s.bufByte b))

/-- TOC round trip (42_toc_codec.md section 2): a chain written with room at any position and decoded there gives the same frame types and
quality bits, with F = 1 on all but the last. -/
def Obligations.TocChainsRoundTrip : Prop :=
  ∀ (s : State) (k p : Word) (src rest : List Byte), s.cfg.wf → s.len.toNat ≤ s.cfg.bufmax → 1 ≤ k.toNat → k.toNat ≤ 20 →
    s.din = src ++ rest → src.length = k.toNat → p.toNat + 8 * k.toNat ≤ s.limit →
    ∃ (s1 s2 s3 s4 : State) (ents : List Byte), exec (pseudoSeek s p) s = .next s1 ∧ exec (.tocEnc k) s1 = .next s2 ∧
      exec (pseudoSeek s2 p) s2 = .next s3 ∧ exec .tocDec s3 = .next s4 ∧ s4.rsps = s3.rsps ++ [⟨.ok, 0, k, k⟩] ∧
      s4.dout = s3.dout ++ ents ∧ ents.length = k.toNat ∧
      ∀ i, i < k.toNat → octetF (ents.getD i 0) = decide (i + 1 < k.toNat) ∧
        octetFt (ents.getD i 0) = octetFt (src.getD i 0) ∧ octetQ (ents.getD i 0) = octetQ (src.getD i 0)

/-! ## The frame-length tables (43_frame_tables.md) -/

/-- What ENGMAX is (R4, R24, R185): 0 while the kind is unknown, 32 for narrowband, for wideband the largest table entry; and under every
configuration that meets its constraints every record length fits the bound of its kind and the bound fits the 8-bit field of CAP
(43_frame_tables.md section 1). -/
def Obligations.RecordLengthsFitTheBound : Prop :=
  (∀ c : Config, engMax c .unknown = 0 ∧ engMax c .nb = 32 ∧ (∀ i : Fin 16, (c.flenWB[i]).toNat ≤ engMax c .wb) ∧
    ∃ i : Fin 16, (c.flenWB[i]).toNat = engMax c .wb) ∧
  (∀ (c : Config) (k : Kind) (i : Nat), c.wf → flen c k i ≤ engMax c k ∧ engMax c k ≤ 255)

/-- FL.LOOKUP (R156): the three tests in the rule's order, then the record length and the payload length; only ERR can change. The table
and the maximum are the configuration's for the kind (R4, R150), and validity and the payload length derive from them (R155, R154). -/
def Obligations.FlLookupReadsTheTable : Prop :=
  (∀ (c : Config) (i : Fin 16), flen c .nb i = (c.flenNB[i]).toNat ∧ flen c .wb i = (c.flenWB[i]).toNat) ∧
  (∀ c : Config, ftmax c .nb = c.ftmaxNB ∧ ftmax c .wb = c.ftmaxWB) ∧
  (∀ (c : Config) (k : Kind) (ft : Nat),
    (validFt c k ft = true ↔ k ≠ .unknown ∧ ft ≤ ftmax c k ∧ 1 ≤ flen c k ft) ∧
    (validFt c k ft = true → paylen c k ft + 1 = flen c k ft) ∧ (validFt c k ft = false → paylen c k ft = 0)) ∧
  ∀ (s : State) (ft : Word),
    (15 < ft.toNat → exec (.flLookup ft) s = .next (s.answered .badOperand 0 0 0)) ∧
    (ft.toNat ≤ 15 → s.kind = .unknown → exec (.flLookup ft) s = .next (s.answered .unknownFormat 0 0 0)) ∧
    (ft.toNat ≤ 15 → s.kind ≠ .unknown → (ftmax s.cfg s.kind < ft.toNat ∨ flen s.cfg s.kind ft.toNat = 0) →
      exec (.flLookup ft) s = .next (s.answered .invalidFrameType 0 0 0)) ∧
    (ft.toNat ≤ 15 → s.kind ≠ .unknown → ft.toNat ≤ ftmax s.cfg s.kind → 1 ≤ flen s.cfg s.kind ft.toNat →
      exec (.flLookup ft) s = .next (s.answered .ok 0 (flen s.cfg s.kind ft.toNat) (flen s.cfg s.kind ft.toNat - 1)))

/-- The sourced entry (43_frame_tables.md section 3): narrowband type 7 has a 32-byte record and a 31-byte payload under every
configuration. -/
def Obligations.NarrowbandTypeSevenIsSourced : Prop :=
  ∀ s : State, s.cfg.wf → s.kind = .nb → exec (.flLookup 7) s = .next (s.answered .ok 0 32 31)

/-! ## The frame demultiplexer (44_frame_demux.md) -/

/-- GRP.DEC (R161), every case. An unknown kind and a missing octet change nothing but ERR; 20 octets with F = 1 empty the TOC store and
leave the cursor after them. Else a chain of `k` octets is read (zeros past the region) into the TOC store, and `off k` payload bytes are
expected where `rem` remain. The first `m` entries, up to the first with an invalid frame type, are decoded in chain order: each payload is
cut after the one before it from `tail`, the bytes that remain and then zeros, each record goes to the codec engine with F = 0, and each
reply is pushed on POUT. The cursor is left after the payload bytes there were. -/
def Obligations.GrpDecDecodesOneGroup : Prop :=
  ∀ s : State,
    (s.kind = .unknown → exec .grpDec s = .next (s.answered .unknownFormat 0 0 0)) ∧
    (s.kind ≠ .unknown → s.avail < 8 → exec .grpDec s = .next (s.answered .noData 0 0 0)) ∧
    (s.kind ≠ .unknown → 8 ≤ s.avail → (∀ i, i < 20 → octetF (s.octetAt (s.cursor + 8 * i)) = true) →
      ∃ t : State, exec .grpDec s = .next t ∧ t.tocIs [] ∧
        t = { s with pos := BitVec.ofNat 32 (min (s.cursor + 160) s.limit), tocn := t.tocn, tocbuf := t.tocbuf }.answered
          .malformedToc (if s.avail < 160 then 1 else 0) 0 ((min (s.cursor + 160) s.limit - s.cursor) / 8)) ∧
    (∀ (k m start rem after : Nat) (ents : List Byte) (len off : Nat → Nat) (tail : Nat → Byte) (blks rest : List PcmBlock) (w : BitVec 3),
      s.kind ≠ .unknown → 8 ≤ s.avail → 1 ≤ k → k ≤ 20 → (∀ i, i < k - 1 → octetF (s.octetAt (s.cursor + 8 * i)) = true) →
      octetF (s.octetAt (s.cursor + 8 * (k - 1))) = false →
      ents = (List.range k).map (fun i => s.octetAt (s.cursor + 8 * i) &&& 0xFC) →
      start = min (s.cursor + 8 * k) s.limit → rem = (s.limit - start) / 8 →
      len = (fun i => paylen s.cfg s.kind (octetFt (ents.getD i 0)).toNat) → off = (fun i => ((List.range i).map len).sum) →
      tail = (fun j => if j < rem then s.octetAt (start + 8 * j) else 0) →
      m ≤ k → (∀ i, i < m → validFt s.cfg s.kind (octetFt (ents.getD i 0)).toNat = true) →
      (m < k → validFt s.cfg s.kind (octetFt (ents.getD m 0)).toNat = false) → s.decReps = blks ++ rest → blks.length = m →
      w = (if s.avail < 8 * k ∨ rem < off m then 1 else 0) ||| (if off k = rem then 0 else 2) →
      after = start + 8 * min (off m) rem →
      ∃ t : State, exec .grpDec s = .next t ∧ t.tocIs ents ∧
        t = { s with
          pos := BitVec.ofNat 32 after, tocn := t.tocn, tocbuf := t.tocbuf, exppay := BitVec.ofNat 32 (off k)
          rempay := BitVec.ofNat 32 rem, pout := s.pout ++ blks, decReps := rest
          engReqs := s.engReqs ++ (List.range m).map fun i => EngReq.decode
            (tocOctet false (octetFt (ents.getD i 0)) (octetQ (ents.getD i 0)) :: (List.range (len i)).map fun j => tail (off i + j)) }.answered
          (if m = k then .ok else .invalidFrameType) w m ((after - s.cursor) / 8))

/-- GRP.DEC of a well-formed group (44_frame_demux.md sections 1 and 2): at any cursor position, every frame's legacy record goes to the
codec engine in chain order with F cleared, every reply is pushed on POUT, the group's bytes are consumed, the TOC store holds the chain,
and PLM says whether bytes are left after the group in the region. -/
def Obligations.GrpDecDecodesAWellFormedGroup : Prop :=
  ∀ (s : State) (frames : List Frame) (blks rest : List PcmBlock) (exp rem : Nat),
    s.kind ≠ .unknown → 1 ≤ frames.length → frames.length ≤ 20 → (∀ f ∈ frames, f.wf s.cfg s.kind) →
    s.holdsAt s.cursor (groupBytes frames) → s.decReps = blks ++ rest → blks.length = frames.length →
    exp = (frames.map fun f => f.payload.length).sum → rem = (s.avail - 8 * frames.length) / 8 →
    ∃ t : State, exec .grpDec s = .next t ∧ t.tocIs (groupOctets frames) ∧
      t = { s with
        pos := BitVec.ofNat 32 (s.cursor + 8 * (groupBytes frames).length), tocn := t.tocn, tocbuf := t.tocbuf
        exppay := BitVec.ofNat 32 exp, rempay := BitVec.ofNat 32 rem, pout := s.pout ++ blks, decReps := rest
        engReqs := s.engReqs ++ frames.map fun f : Frame => EngReq.decode (tocOctet false f.ft f.q :: f.payload) }.answered .ok
          (if exp = rem then 0 else 2) frames.length (frames.length + exp)

/-- GRP.DEC stops at the first entry whose frame type is invalid (44_frame_demux.md section 2): the frames before it are decoded and their
blocks kept, the entries from it on are not, and the whole chain is in the TOC store. -/
def Obligations.GrpDecStopsAtAnInvalidFrameType : Prop :=
  ∀ (s : State) (frames : List Frame) (bad : BitVec 4 × Bool) (more : List (BitVec 4 × Bool)) (blks rest : List PcmBlock)
    (chain : List Byte), s.kind ≠ .unknown → frames.length + 1 + more.length ≤ 20 → (∀ f ∈ frames, f.wf s.cfg s.kind) →
    validFt s.cfg s.kind bad.1.toNat = false → chain = chainOctets ((frames.map fun f => (f.ft, f.q)) ++ bad :: more) →
    s.holdsAt s.cursor (chain ++ frames.flatMap Frame.payload) → s.decReps = blks ++ rest → blks.length = frames.length →
    ∃ t : State, exec .grpDec s = .next t ∧ t.tocIs chain ∧ t.err = 0x03 ∧ t.pout = s.pout ++ blks ∧ t.decReps = rest ∧
      t.engReqs = s.engReqs ++ (frames.map fun f : Frame => EngReq.decode (tocOctet false f.ft f.q :: f.payload)) ∧
      t.cursor = s.cursor + 8 * (chain ++ frames.flatMap Frame.payload).length ∧ t.buf = s.buf ∧
      ∃ w : BitVec 3, t.rsps = s.rsps ++ [⟨.invalidFrameType, w, BitVec.ofNat 32 frames.length,
        BitVec.ofNat 32 (chain ++ frames.flatMap Frame.payload).length⟩]

/-- Every completed GRP.DEC makes one decode request per block it pushes, in order, at most 20, counts them in R0, and sends records of the
table's length for the type in bits 6..3 of their byte 0 (44_frame_demux.md section 2). -/
def Obligations.GrpDecMakesOneRequestPerBlock : Prop :=
  ∀ s t : State, exec .grpDec s = .next t →
    ∃ (records : List (List Byte)) (blks : List PcmBlock) (r : Rsp), t.engReqs = s.engReqs ++ records.map EngReq.decode ∧
      t.pout = s.pout ++ blks ∧ s.decReps = blks ++ t.decReps ∧ records.length = blks.length ∧ blks.length ≤ 20 ∧
      t.rsps = s.rsps ++ [r] ∧ r.r0.toNat = blks.length ∧
      ∀ record ∈ records, record.length = flen s.cfg s.kind (octetFt (record.headD 0)).toNat ∧
        validFt s.cfg s.kind (octetFt (record.headD 0)).toNat = true ∧ octetF (record.headD 0) = false

/-! ## The frame multiplexer (45_frame_mux.md) -/

/-- GRP.ENC (R181): refused while the kind is unknown and above 20 blocks; else one request per block in order with the mode passed
through, the implausible replies skipped, counted in SKIPCNT and reported by EEF, and the group of the other frames written if it fits:
nothing to write, no room, or the chain and then the payloads in exactly the bits from the old cursor.Type and quality come from byte
0 of each record, whatever ENG_FT_SHIFT the configuration has (U15). -/
def Obligations.GrpEncWritesOneGroup : Prop :=
  ∀ (s : State) (nblk mode : Word) (blks pin' : List PcmBlock) (reps enc' kept : List EncReply) (frames : List Frame) (base : State)
    (w : BitVec 3) (skipped total : Nat),
    (s.kind = .unknown → exec (.grpEnc nblk mode) s = .next (s.answered .unknownFormat 0 0 0)) ∧
    (s.kind ≠ .unknown → 20 < nblk.toNat → exec (.grpEnc nblk mode) s = .next (s.answered .badOperand 0 0 0)) ∧
    (s.kind ≠ .unknown → nblk.toNat ≤ 20 → s.pin = blks ++ pin' → blks.length = nblk.toNat → s.encReps = reps ++ enc' →
      reps.length = nblk.toNat → (∀ r ∈ reps, r.contract s.cfg s.kind) →
      kept = reps.filter (fun r => decide (0 < r.size.toInt ∧ r.size.toInt ≤ (engMax s.cfg s.kind : Int))) →
      frames = kept.map (fun r => ⟨(r.record.headD 0 >>> s.cfg.ftShift).setWidth 4, (r.record.headD 0).getLsbD 2, r.record.tail⟩) →
      skipped = nblk.toNat - kept.length → w = (if skipped = 0 then 0 else 4) → total = (groupBytes frames).length →
      base = { s with
        pin := pin', encReps := enc', skipcnt := BitVec.ofNat 32 skipped
        engReqs := s.engReqs ++ blks.map fun b => EngReq.encode b mode } →
      (frames = [] → ∃ t : State, exec (.grpEnc nblk mode) s = .next t ∧ t.tocIs [] ∧
        t = { base with tocn := t.tocn, tocbuf := t.tocbuf }.answered .ok w 0 0) ∧
      (frames ≠ [] → s.avail < 8 * total → exec (.grpEnc nblk mode) s = .next (base.answered .noSpace w 0 0)) ∧
      (frames ≠ [] → 8 * total ≤ s.avail → ∃ t : State, exec (.grpEnc nblk mode) s = .next t ∧
        t = { base with buf := t.buf, pos := BitVec.ofNat 32 (s.cursor + 8 * total), tocn := t.tocn, tocbuf := t.tocbuf }.answered .ok
          w frames.length total ∧
        t.tocIs (groupOctets frames) ∧ t.holdsAt s.cursor (groupBytes frames) ∧
        (∀ a, (a < s.cursor ∨ s.cursor + 8 * total ≤ a) → t.bufBit a = s.bufBit a) ∧
        (∀ k, (8 * k + 8 ≤ s.cursor ∨ s.cursor + 8 * total ≤ 8 * k) → t.bufByte k = s.bufByte k)))

/-- A plausible reply whose record is not `size` bytes long breaks the codec engine's contract: GRP.ENC is refused by name when it takes
one (93_implementation_defined.md U2, treatment refuse; log entry 5). -/
def Obligations.GrpEncRefusesARecordOfAnotherLength : Prop :=
  ∀ (s : State) (nblk mode : Word) (before after : List EncReply) (broken : EncReply), s.kind ≠ .unknown → nblk.toNat ≤ 20 →
    before.length < nblk.toNat → before.length < s.pin.length → s.encReps = before ++ broken :: after →
    (∀ r ∈ before, r.contract s.cfg s.kind) → ¬ broken.contract s.cfg s.kind →
    exec (.grpEnc nblk mode) s = .refused .recordContract

/-- A group written by GRP.ENC from replies that agree with the tables is decoded by GRP.DEC at the same place into the same number of
blocks under the same kind, the codec engine being sent each reply's type, quality and payload again (45_frame_mux.md section 3: the sample
count and the kind are preserved). -/
def Obligations.EncodedGroupsAreDecodedBack : Prop :=
  ∀ (s : State) (nblk mode : Word) (blks pin' out dec' : List PcmBlock) (reps enc' : List EncReply) (frames : List Frame),
    s.cfg.wf → s.len.toNat ≤ s.cfg.bufmax → s.kind ≠ .unknown → 1 ≤ nblk.toNat → nblk.toNat ≤ 20 → s.pin = blks ++ pin' →
    blks.length = nblk.toNat → s.encReps = reps ++ enc' → reps.length = nblk.toNat →
    (∀ r ∈ reps, plausible s.cfg s.kind r.size = true ∧ r.record.length = r.size.toNat) →
    frames = reps.map (fun r => ⟨(r.record.headD 0 >>> s.cfg.ftShift).setWidth 4, (r.record.headD 0).getLsbD 2, r.record.tail⟩) →
    (∀ f ∈ frames, f.wf s.cfg s.kind) → 8 * (groupBytes frames).length ≤ s.avail → s.decReps = out ++ dec' →
    out.length = nblk.toNat →
    ∃ s1 s2 t : State, exec (.grpEnc nblk mode) s = .next s1 ∧ exec (pseudoSeek s1 s.pos) s1 = .next s2 ∧
      exec .grpDec s2 = .next t ∧ t.pout = s.pout ++ out ∧ t.kind = s.kind ∧ t.pos = s1.pos ∧
      t.engReqs = s1.engReqs ++ frames.map fun f : Frame => EngReq.decode (tocOctet false f.ft f.q :: f.payload)

/-! ## The system operations (46_system_ops.md) -/

/-- CSR.RD (R201, with the register map of R24): the value of each register of the map, E_BAD_OPERAND for a reserved index, and no register
changed. -/
def Obligations.CsrRdReadsTheRegisterMap : Prop :=
  ∀ (s : State) (idx : Word),
    (idx = 0 → exec (.csrRd idx) s = .next (s.answered .ok 0 s.pos.toNat 0)) ∧
    (idx = 1 → exec (.csrRd idx) s = .next (s.answered .ok 0 s.len.toNat 0)) ∧
    (idx = 2 → exec (.csrRd idx) s =
      .next (s.answered .ok 0 (match s.kind with | .unknown => 0 | .nb => 1 | .wb => 2) 0)) ∧
    (idx = 3 → exec (.csrRd idx) s = .next (s.answered .ok 0 s.flags.toNat 0)) ∧
    (idx = 4 → exec (.csrRd idx) s = .next (s.answered .ok 0 s.err.toNat 0)) ∧
    (idx = 5 → exec (.csrRd idx) s = .next (s.answered .ok 0 s.tocn.toNat 0)) ∧
    (idx = 6 → exec (.csrRd idx) s = .next (s.answered .ok 0 s.exppay.toNat 0)) ∧
    (idx = 7 → exec (.csrRd idx) s = .next (s.answered .ok 0 s.rempay.toNat 0)) ∧
    (idx = 8 → exec (.csrRd idx) s = .next (s.answered .ok 0 s.skipcnt.toNat 0)) ∧
    (idx = 9 → exec (.csrRd idx) s = .next (s.answered .ok 0 (20 + 256 * engMax s.cfg s.kind) 0)) ∧
    (∀ i, i < 20 → idx.toNat = 16 + i → exec (.csrRd idx) s = .next (s.answered .ok 0 (s.tocEntry i).toNat 0)) ∧
    ((10 ≤ idx.toNat ∧ idx.toNat ≤ 15 ∨ 36 ≤ idx.toNat) → exec (.csrRd idx) s = .next (s.answered .badOperand 0 0 0))

/-- FLG.CLR (R202): mask bits 2..0 clear the flags they select, mask bit 8 clears ERR, the other mask bits do nothing, and nothing else
changes. No other operation takes a flag or ERR back to 0. -/
def Obligations.FlgClrClearsTheSelectedFlags : Prop :=
  (∀ (s : State) (mask : Word),
    ∃ t : State, exec (.flgClr mask) s = .next t ∧
      (∀ j, j < 3 → t.flags.getLsbD j = (s.flags.getLsbD j && !mask.getLsbD j)) ∧
      t.err = (if mask.getLsbD 8 then 0 else s.err) ∧
      t = { s with flags := t.flags, err := t.err, rsps := s.rsps ++ [⟨.ok, 0, 0, 0⟩] }) ∧
  (∀ (i : Instr) (s t : State), (∀ mask, i ≠ .flgClr mask) → exec i s = .next t →
    (∀ j, s.flags.getLsbD j = true → t.flags.getLsbD j = true) ∧ (s.err ≠ 0 → t.err ≠ 0))

/-- HM.LD (R204): refused when `addr + len > BUFMAX`, summed without wrap-around; else `len` bytes are popped from DIN and stored from byte
index `addr` on, every other byte of BUF keeps its value, LEN and POS do not matter and nothing else changes. -/
def Obligations.HmLdLoadsBytes : Prop :=
  ∀ (s : State) (addr len : Word) (src rest : List Byte),
    (s.cfg.bufmax < addr.toNat + len.toNat → exec (.hmLd addr len) s = .next (s.answered .badOperand 0 0 0)) ∧
    (addr.toNat + len.toNat ≤ s.cfg.bufmax → s.din = src ++ rest → src.length = len.toNat →
      ∃ t : State, exec (.hmLd addr len) s = .next t ∧
        t = { s with buf := t.buf, din := rest }.answered .ok 0 len.toNat 0 ∧
        (∀ i, i < len.toNat → t.bufByte (addr.toNat + i) = src.getD i 0) ∧
        (∀ a, (a < addr.toNat ∨ addr.toNat + len.toNat ≤ a) → t.bufByte a = s.bufByte a))

/-- HM.ST (R205): refused when `addr + len > BUFMAX`; else the bytes of BUF from byte index `addr` on are pushed on DOUT and nothing else
changes. -/
def Obligations.HmStStoresBytes : Prop :=
  ∀ (s : State) (addr len : Word),
    (s.cfg.bufmax < addr.toNat + len.toNat → exec (.hmSt addr len) s = .next (s.answered .badOperand 0 0 0)) ∧
    (addr.toNat + len.toNat ≤ s.cfg.bufmax →
      ∃ bs : List Byte, bs.length = len.toNat ∧ (∀ i, i < len.toNat → bs.getD i 0 = s.bufByte (addr.toNat + i)) ∧
        exec (.hmSt addr len) s = .next ({ s with dout := s.dout ++ bs }.answered .ok 0 len.toNat 0))

/-- Bytes loaded by HM.LD are the bytes HM.ST gives back from the same place, whatever region is attached (20_memory.md section 5). -/
def Obligations.LoadedBytesAreStoredBack : Prop :=
  ∀ (s : State) (addr len : Word) (src rest : List Byte), addr.toNat + len.toNat ≤ s.cfg.bufmax → s.din = src ++ rest →
    src.length = len.toNat →
    ∃ s1 s2 : State, exec (.hmLd addr len) s = .next s1 ∧ exec (.hmSt addr len) s1 = .next s2 ∧ s2.dout = s.dout ++ src

/-- NOP (R207): answered OK, and nothing changes, ERR included. -/
def Obligations.NopChangesNothing : Prop :=
  ∀ s : State, exec .nop s = .next { s with rsps := s.rsps ++ [⟨.ok, 0, 0, 0⟩] }

/-! ## The host's contract (48_host_sequences.md) -/

/-- The host's action of presenting an operation has a meaning exactly when the host keeps every duty (48_host_sequences.md, the table of
liberties and duties; log entry 11): no command or response outstanding, the kind of the stream not written twice and fixed before
FL.LOOKUP and the group operations, exactly the bytes and blocks that the operation pops (`len` of a legal BC.WRB or HM.LD, `k` of a legal
TOC.ENC, `nblk` of a legal GRP.ENC of a known kind, none otherwise), every block of NSAMP samples at the kind's sample rate, for a group
operation a codec engine of the stream, of its kind if that is known, and room for the output; the engine then does what the operation
does. An illegal command word pops and needs nothing. A whole run has a result exactly when every
action has a meaning and no codec engine is left undestroyed: BUF and the registers, and all that has been pushed on DOUT and POUT. -/
def Obligations.AcceptedOperationsKeepTheHostsDuties : Prop :=
  (∀ (h h' : Session) (w : CmdWord) (i : Instr) (din : List Byte) (pin : List HostBlock) (writesKind group : Prop)
    (samples rate bytes blocks : Nat), decode w = .ok i → samples = (match h.st.kind with | .unknown => 0 | .nb => 160 | .wb => 320) →
    rate = (match h.st.kind with | .unknown => 0 | .nb => 8000 | .wb => 16000) →
    bytes = (match i with
      | .bcWrb len => if len.toNat ≤ h.st.cfg.bufmax then len.toNat else 0
      | .tocEnc k => if 1 ≤ k.toNat ∧ k.toNat ≤ 20 then k.toNat else 0
      | .hmLd addr len => if addr.toNat + len.toNat ≤ h.st.cfg.bufmax then len.toNat else 0
      | _ => 0) →
    blocks = (match i with
      | .grpEnc nblk _ => if h.st.kind ≠ .unknown ∧ nblk.toNat ≤ 20 then nblk.toNat else 0
      | _ => 0) →
    (writesKind ↔ i = .hsDetect ∨ i = .kindSet 1 ∨ i = .kindSet 2) → (group ↔ i = .grpDec ∨ ∃ n m, i = .grpEnc n m) →
    (h.act (.issue w din pin) = .next h' ↔
      h.st.cmds = [] ∧ h.st.rsps = [] ∧ (writesKind → h.kindFixed = false) ∧
      ((group ∨ ∃ ft, i = .flLookup ft) → h.kindFixed = true) ∧
      (h.st.din ++ din).length = bytes ∧ (h.st.pin ++ pin.map HostBlock.samples).length = blocks ∧
      (∀ blk ∈ h.st.pin ++ pin.map HostBlock.samples, blk.length = samples) ∧ (∀ blk ∈ pin, blk.rate = rate) ∧
      (group → (∃ k, h.codec = .live k) ∧ (h.st.kind ≠ .unknown → h.codec = .live h.st.kind)) ∧
      exec i { h.st with din := h.st.din ++ din, pin := h.st.pin ++ pin.map HostBlock.samples } = .next h'.st ∧
      (∀ r ∈ h'.st.rsps, r.status ≠ .noSpace) ∧
      h'.codec = h.codec ∧ (h'.kindFixed = true ↔ h.kindFixed = true ∨ writesKind) ∧ h'.outBytes = h.outBytes ∧
      h'.outBlocks = h.outBlocks)) ∧
  (∀ (h h' : Session) (w : CmdWord) (e : DecodeError) (din : List Byte) (pin : List HostBlock), decode w = .error e →
    (h.act (.issue w din pin) = .next h' ↔
      h.st.cmds = [] ∧ h.st.rsps = [] ∧ h.st.din ++ din = [] ∧ h.st.pin = [] ∧ pin = [] ∧
      h' = { h with st := h.st.answered .illegalOp 0 0 0 })) ∧
  ∀ (h : Session) (as : List HostAction) (res : RunResult), h.run as = .next res ↔
    ∃ h' : Session, h.acts as = .next h' ∧ (h'.codec = .absent ∨ h'.codec = .destroyed) ∧ res.st = h'.st ∧
      res.bytes = h'.outBytes ++ h'.st.dout ∧ res.blocks = h'.outBlocks ++ h'.st.pout

/-- Every action that has a meaning keeps the invariant of sessions: in particular each operation leaves no byte on DIN and no block on PIN
(48_host_sequences.md; 70_reset_and_hazards.md section 3). From every session, what has been pushed on DOUT and POUT only grows, and grows
by operations alone: draining and reset take nothing out of it. -/
def Obligations.ActionsKeepTheSessionInvariant : Prop :=
  (∀ (h h' : Session) (a : HostAction), h.Inv → h.act a = .next h' → h'.Inv) ∧
  ∀ (h h' : Session) (a : HostAction), h.act a = .next h' →
    ∃ (bs : List Byte) (blks : List PcmBlock), h'.outBytes ++ h'.st.dout = h.outBytes ++ h.st.dout ++ bs ∧
      h'.outBlocks ++ h'.st.pout = h.outBlocks ++ h.st.pout ++ blks ∧
      ((∀ w din pin, a ≠ .issue w din pin) → bs = [] ∧ blks = [])

/-- Once the kind of a stream is fixed no action with a meaning changes it, until the stream is finished or the platform resets the engine
(41_format_sniffer.md section 2; 70_reset_and_hazards.md section 3). Either begins a new stream, whose kind is not fixed and which the old
codec engine does not serve: finishing needs it destroyed, reset leaves it to be destroyed, and then one of any known kind can be created
(48_host_sequences.md; log entry 11). -/
def Obligations.KindIsFixedWithinAStream : Prop :=
  (∀ (h h' : Session) (a : HostAction), h.act a = .next h' → h.kindFixed = true → a ≠ .finishStream → a ≠ .reset →
    h'.kindFixed = true ∧ h'.st.kind = h.st.kind) ∧
  (∀ h : Session, (∃ h', h.act .finishStream = .next h') ↔ (h.codec = .absent ∨ h.codec = .destroyed)) ∧
  (∀ h : Session, ∃ h', h.act .reset = .next h') ∧
  ∀ (h h' : Session) (a : HostAction) (k : Kind), (a = .finishStream ∨ a = .reset) → h.act a = .next h' → k ≠ .unknown →
    h'.kindFixed = false ∧ (∀ k', h'.codec ≠ .live k') ∧
    ((h.codec = .absent ∨ h.codec = .destroyed) → h'.act (.createCodec k) = .next { h' with codec := .live k }) ∧
    (h.codec ≠ .absent → h.codec ≠ .destroyed → h'.act (.createCodec k) = .refused .codecLifetime ∧
      ∃ h'' : Session, h'.act .destroyCodec = .next h'' ∧ h''.st = h'.st ∧
        h''.act (.createCodec k) = .next { h'' with codec := .live k })

/-- In a session that keeps the contract the group operations carry whole blocks: GRP.DEC pushes `R0 * NSAMP` samples, and every block
that GRP.ENC has encoded has NSAMP samples (44_frame_demux.md sections 2 and 3; 45_frame_mux.md section 3). -/
def Obligations.GroupOperationsCarryWholeBlocks : Prop :=
  ∀ (h h' : Session) (w : CmdWord) (din : List Byte) (pin : List HostBlock) (samples : Nat), h.Inv →
    h.act (.issue w din pin) = .next h' → samples = (match h.st.kind with | .unknown => 0 | .nb => 160 | .wb => 320) →
    (decode w = .ok .grpDec → ∃ (blks : List PcmBlock) (r : Rsp), h'.st.pout = h.st.pout ++ blks ∧ h'.st.rsps = [r] ∧
      (blks.map List.length).sum = r.r0.toNat * samples) ∧
    (∀ nblk mode, decode w = .ok (.grpEnc nblk mode) → ∃ reqs : List EngReq, h'.st.engReqs = h.st.engReqs ++ reqs ∧
      ∀ q ∈ reqs, ∃ blk, q = .encode blk mode ∧ blk.length = samples)
end

