-- ==== Sys2Proof/Laws/State.lean ====
section
/-! SUPPORT. One lemma per field per update of State, so that no proof unfolds a record update. -/

namespace Sys2Proof.Machine

/-! ## setCursor -/

@[simp] theorem State.setCursor_cfg (s : State) (p : Nat) : (s.setCursor p).cfg = s.cfg := rfl
@[simp] theorem State.setCursor_buf (s : State) (p : Nat) : (s.setCursor p).buf = s.buf := rfl
@[simp] theorem State.setCursor_len (s : State) (p : Nat) : (s.setCursor p).len = s.len := rfl
@[simp] theorem State.setCursor_pos (s : State) (p : Nat) : (s.setCursor p).pos = BitVec.ofNat 32 p := rfl
@[simp] theorem State.setCursor_kind (s : State) (p : Nat) : (s.setCursor p).kind = s.kind := rfl
@[simp] theorem State.setCursor_flags (s : State) (p : Nat) : (s.setCursor p).flags = s.flags := rfl
@[simp] theorem State.setCursor_err (s : State) (p : Nat) : (s.setCursor p).err = s.err := rfl
@[simp] theorem State.setCursor_tocn (s : State) (p : Nat) : (s.setCursor p).tocn = s.tocn := rfl
@[simp] theorem State.setCursor_tocbuf (s : State) (p : Nat) : (s.setCursor p).tocbuf = s.tocbuf := rfl
@[simp] theorem State.setCursor_exppay (s : State) (p : Nat) : (s.setCursor p).exppay = s.exppay := rfl
@[simp] theorem State.setCursor_rempay (s : State) (p : Nat) : (s.setCursor p).rempay = s.rempay := rfl
@[simp] theorem State.setCursor_skipcnt (s : State) (p : Nat) : (s.setCursor p).skipcnt = s.skipcnt := rfl
@[simp] theorem State.setCursor_din (s : State) (p : Nat) : (s.setCursor p).din = s.din := rfl
@[simp] theorem State.setCursor_dout (s : State) (p : Nat) : (s.setCursor p).dout = s.dout := rfl
@[simp] theorem State.setCursor_pin (s : State) (p : Nat) : (s.setCursor p).pin = s.pin := rfl
@[simp] theorem State.setCursor_pout (s : State) (p : Nat) : (s.setCursor p).pout = s.pout := rfl
@[simp] theorem State.setCursor_cmds (s : State) (p : Nat) : (s.setCursor p).cmds = s.cmds := rfl
@[simp] theorem State.setCursor_rsps (s : State) (p : Nat) : (s.setCursor p).rsps = s.rsps := rfl
@[simp] theorem State.setCursor_engReqs (s : State) (p : Nat) : (s.setCursor p).engReqs = s.engReqs := rfl
@[simp] theorem State.setCursor_decReps (s : State) (p : Nat) : (s.setCursor p).decReps = s.decReps := rfl
@[simp] theorem State.setCursor_encReps (s : State) (p : Nat) : (s.setCursor p).encReps = s.encReps := rfl
@[simp] theorem State.setCursor_epoch (s : State) (p : Nat) : (s.setCursor p).epoch = s.epoch := rfl

/-! ## advance -/

@[simp] theorem State.advance_cfg (s : State) (m : Nat) : (s.advance m).cfg = s.cfg := rfl
@[simp] theorem State.advance_buf (s : State) (m : Nat) : (s.advance m).buf = s.buf := rfl
@[simp] theorem State.advance_len (s : State) (m : Nat) : (s.advance m).len = s.len := rfl
@[simp] theorem State.advance_pos (s : State) (m : Nat) : (s.advance m).pos = BitVec.ofNat 32 (min (s.cursor + m) s.limit) := rfl
@[simp] theorem State.advance_kind (s : State) (m : Nat) : (s.advance m).kind = s.kind := rfl
@[simp] theorem State.advance_flags (s : State) (m : Nat) : (s.advance m).flags = s.flags := rfl
@[simp] theorem State.advance_err (s : State) (m : Nat) : (s.advance m).err = s.err := rfl
@[simp] theorem State.advance_tocn (s : State) (m : Nat) : (s.advance m).tocn = s.tocn := rfl
@[simp] theorem State.advance_tocbuf (s : State) (m : Nat) : (s.advance m).tocbuf = s.tocbuf := rfl
@[simp] theorem State.advance_exppay (s : State) (m : Nat) : (s.advance m).exppay = s.exppay := rfl
@[simp] theorem State.advance_rempay (s : State) (m : Nat) : (s.advance m).rempay = s.rempay := rfl
@[simp] theorem State.advance_skipcnt (s : State) (m : Nat) : (s.advance m).skipcnt = s.skipcnt := rfl
@[simp] theorem State.advance_din (s : State) (m : Nat) : (s.advance m).din = s.din := rfl
@[simp] theorem State.advance_dout (s : State) (m : Nat) : (s.advance m).dout = s.dout := rfl
@[simp] theorem State.advance_pin (s : State) (m : Nat) : (s.advance m).pin = s.pin := rfl
@[simp] theorem State.advance_pout (s : State) (m : Nat) : (s.advance m).pout = s.pout := rfl
@[simp] theorem State.advance_cmds (s : State) (m : Nat) : (s.advance m).cmds = s.cmds := rfl
@[simp] theorem State.advance_rsps (s : State) (m : Nat) : (s.advance m).rsps = s.rsps := rfl
@[simp] theorem State.advance_engReqs (s : State) (m : Nat) : (s.advance m).engReqs = s.engReqs := rfl
@[simp] theorem State.advance_decReps (s : State) (m : Nat) : (s.advance m).decReps = s.decReps := rfl
@[simp] theorem State.advance_encReps (s : State) (m : Nat) : (s.advance m).encReps = s.encReps := rfl
@[simp] theorem State.advance_epoch (s : State) (m : Nat) : (s.advance m).epoch = s.epoch := rfl

/-! ## memWrite -/

@[simp] theorem State.memWrite_cfg (s : State) (a : Nat) (bs : List Byte) : (s.memWrite a bs).cfg = s.cfg := rfl
@[simp] theorem State.memWrite_buf (s : State) (a : Nat) (bs : List Byte) : (s.memWrite a bs).buf = Memory.storeAll s.buf a bs := rfl
@[simp] theorem State.memWrite_len (s : State) (a : Nat) (bs : List Byte) : (s.memWrite a bs).len = s.len := rfl
@[simp] theorem State.memWrite_pos (s : State) (a : Nat) (bs : List Byte) : (s.memWrite a bs).pos = s.pos := rfl
@[simp] theorem State.memWrite_kind (s : State) (a : Nat) (bs : List Byte) : (s.memWrite a bs).kind = s.kind := rfl
@[simp] theorem State.memWrite_flags (s : State) (a : Nat) (bs : List Byte) : (s.memWrite a bs).flags = s.flags := rfl
@[simp] theorem State.memWrite_err (s : State) (a : Nat) (bs : List Byte) : (s.memWrite a bs).err = s.err := rfl
@[simp] theorem State.memWrite_tocn (s : State) (a : Nat) (bs : List Byte) : (s.memWrite a bs).tocn = s.tocn := rfl
@[simp] theorem State.memWrite_tocbuf (s : State) (a : Nat) (bs : List Byte) : (s.memWrite a bs).tocbuf = s.tocbuf := rfl
@[simp] theorem State.memWrite_exppay (s : State) (a : Nat) (bs : List Byte) : (s.memWrite a bs).exppay = s.exppay := rfl
@[simp] theorem State.memWrite_rempay (s : State) (a : Nat) (bs : List Byte) : (s.memWrite a bs).rempay = s.rempay := rfl
@[simp] theorem State.memWrite_skipcnt (s : State) (a : Nat) (bs : List Byte) : (s.memWrite a bs).skipcnt = s.skipcnt := rfl
@[simp] theorem State.memWrite_din (s : State) (a : Nat) (bs : List Byte) : (s.memWrite a bs).din = s.din := rfl
@[simp] theorem State.memWrite_dout (s : State) (a : Nat) (bs : List Byte) : (s.memWrite a bs).dout = s.dout := rfl
@[simp] theorem State.memWrite_pin (s : State) (a : Nat) (bs : List Byte) : (s.memWrite a bs).pin = s.pin := rfl
@[simp] theorem State.memWrite_pout (s : State) (a : Nat) (bs : List Byte) : (s.memWrite a bs).pout = s.pout := rfl
@[simp] theorem State.memWrite_cmds (s : State) (a : Nat) (bs : List Byte) : (s.memWrite a bs).cmds = s.cmds := rfl
@[simp] theorem State.memWrite_rsps (s : State) (a : Nat) (bs : List Byte) : (s.memWrite a bs).rsps = s.rsps := rfl
@[simp] theorem State.memWrite_engReqs (s : State) (a : Nat) (bs : List Byte) : (s.memWrite a bs).engReqs = s.engReqs := rfl
@[simp] theorem State.memWrite_decReps (s : State) (a : Nat) (bs : List Byte) : (s.memWrite a bs).decReps = s.decReps := rfl
@[simp] theorem State.memWrite_encReps (s : State) (a : Nat) (bs : List Byte) : (s.memWrite a bs).encReps = s.encReps := rfl
@[simp] theorem State.memWrite_epoch (s : State) (a : Nat) (bs : List Byte) : (s.memWrite a bs).epoch = s.epoch := rfl

/-! ## setToc -/

@[simp] theorem State.setToc_cfg (s : State) (ents : List Byte) : (s.setToc ents).cfg = s.cfg := rfl
@[simp] theorem State.setToc_buf (s : State) (ents : List Byte) : (s.setToc ents).buf = s.buf := rfl
@[simp] theorem State.setToc_len (s : State) (ents : List Byte) : (s.setToc ents).len = s.len := rfl
@[simp] theorem State.setToc_pos (s : State) (ents : List Byte) : (s.setToc ents).pos = s.pos := rfl
@[simp] theorem State.setToc_kind (s : State) (ents : List Byte) : (s.setToc ents).kind = s.kind := rfl
@[simp] theorem State.setToc_flags (s : State) (ents : List Byte) : (s.setToc ents).flags = s.flags := rfl
@[simp] theorem State.setToc_err (s : State) (ents : List Byte) : (s.setToc ents).err = s.err := rfl
@[simp] theorem State.setToc_tocn (s : State) (ents : List Byte) : (s.setToc ents).tocn = BitVec.ofNat 5 ents.length := rfl
@[simp] theorem State.setToc_exppay (s : State) (ents : List Byte) : (s.setToc ents).exppay = s.exppay := rfl
@[simp] theorem State.setToc_rempay (s : State) (ents : List Byte) : (s.setToc ents).rempay = s.rempay := rfl
@[simp] theorem State.setToc_skipcnt (s : State) (ents : List Byte) : (s.setToc ents).skipcnt = s.skipcnt := rfl
@[simp] theorem State.setToc_din (s : State) (ents : List Byte) : (s.setToc ents).din = s.din := rfl
@[simp] theorem State.setToc_dout (s : State) (ents : List Byte) : (s.setToc ents).dout = s.dout := rfl
@[simp] theorem State.setToc_pin (s : State) (ents : List Byte) : (s.setToc ents).pin = s.pin := rfl
@[simp] theorem State.setToc_pout (s : State) (ents : List Byte) : (s.setToc ents).pout = s.pout := rfl
@[simp] theorem State.setToc_cmds (s : State) (ents : List Byte) : (s.setToc ents).cmds = s.cmds := rfl
@[simp] theorem State.setToc_rsps (s : State) (ents : List Byte) : (s.setToc ents).rsps = s.rsps := rfl
@[simp] theorem State.setToc_engReqs (s : State) (ents : List Byte) : (s.setToc ents).engReqs = s.engReqs := rfl
@[simp] theorem State.setToc_decReps (s : State) (ents : List Byte) : (s.setToc ents).decReps = s.decReps := rfl
@[simp] theorem State.setToc_encReps (s : State) (ents : List Byte) : (s.setToc ents).encReps = s.encReps := rfl
@[simp] theorem State.setToc_epoch (s : State) (ents : List Byte) : (s.setToc ents).epoch = s.epoch := rfl

/-! ## pushDout -/

@[simp] theorem State.pushDout_cfg (s : State) (bs : List Byte) : (s.pushDout bs).cfg = s.cfg := rfl
@[simp] theorem State.pushDout_buf (s : State) (bs : List Byte) : (s.pushDout bs).buf = s.buf := rfl
@[simp] theorem State.pushDout_len (s : State) (bs : List Byte) : (s.pushDout bs).len = s.len := rfl
@[simp] theorem State.pushDout_pos (s : State) (bs : List Byte) : (s.pushDout bs).pos = s.pos := rfl
@[simp] theorem State.pushDout_kind (s : State) (bs : List Byte) : (s.pushDout bs).kind = s.kind := rfl
@[simp] theorem State.pushDout_flags (s : State) (bs : List Byte) : (s.pushDout bs).flags = s.flags := rfl
@[simp] theorem State.pushDout_err (s : State) (bs : List Byte) : (s.pushDout bs).err = s.err := rfl
@[simp] theorem State.pushDout_tocn (s : State) (bs : List Byte) : (s.pushDout bs).tocn = s.tocn := rfl
@[simp] theorem State.pushDout_tocbuf (s : State) (bs : List Byte) : (s.pushDout bs).tocbuf = s.tocbuf := rfl
@[simp] theorem State.pushDout_exppay (s : State) (bs : List Byte) : (s.pushDout bs).exppay = s.exppay := rfl
@[simp] theorem State.pushDout_rempay (s : State) (bs : List Byte) : (s.pushDout bs).rempay = s.rempay := rfl
@[simp] theorem State.pushDout_skipcnt (s : State) (bs : List Byte) : (s.pushDout bs).skipcnt = s.skipcnt := rfl
@[simp] theorem State.pushDout_din (s : State) (bs : List Byte) : (s.pushDout bs).din = s.din := rfl
@[simp] theorem State.pushDout_dout (s : State) (bs : List Byte) : (s.pushDout bs).dout = s.dout ++ bs := rfl
@[simp] theorem State.pushDout_pin (s : State) (bs : List Byte) : (s.pushDout bs).pin = s.pin := rfl
@[simp] theorem State.pushDout_pout (s : State) (bs : List Byte) : (s.pushDout bs).pout = s.pout := rfl
@[simp] theorem State.pushDout_cmds (s : State) (bs : List Byte) : (s.pushDout bs).cmds = s.cmds := rfl
@[simp] theorem State.pushDout_rsps (s : State) (bs : List Byte) : (s.pushDout bs).rsps = s.rsps := rfl
@[simp] theorem State.pushDout_engReqs (s : State) (bs : List Byte) : (s.pushDout bs).engReqs = s.engReqs := rfl
@[simp] theorem State.pushDout_decReps (s : State) (bs : List Byte) : (s.pushDout bs).decReps = s.decReps := rfl
@[simp] theorem State.pushDout_encReps (s : State) (bs : List Byte) : (s.pushDout bs).encReps = s.encReps := rfl
@[simp] theorem State.pushDout_epoch (s : State) (bs : List Byte) : (s.pushDout bs).epoch = s.epoch := rfl

/-! ## pushPout -/

@[simp] theorem State.pushPout_cfg (s : State) (blk : PcmBlock) : (s.pushPout blk).cfg = s.cfg := rfl
@[simp] theorem State.pushPout_buf (s : State) (blk : PcmBlock) : (s.pushPout blk).buf = s.buf := rfl
@[simp] theorem State.pushPout_len (s : State) (blk : PcmBlock) : (s.pushPout blk).len = s.len := rfl
@[simp] theorem State.pushPout_pos (s : State) (blk : PcmBlock) : (s.pushPout blk).pos = s.pos := rfl
@[simp] theorem State.pushPout_kind (s : State) (blk : PcmBlock) : (s.pushPout blk).kind = s.kind := rfl
@[simp] theorem State.pushPout_flags (s : State) (blk : PcmBlock) : (s.pushPout blk).flags = s.flags := rfl
@[simp] theorem State.pushPout_err (s : State) (blk : PcmBlock) : (s.pushPout blk).err = s.err := rfl
@[simp] theorem State.pushPout_tocn (s : State) (blk : PcmBlock) : (s.pushPout blk).tocn = s.tocn := rfl
@[simp] theorem State.pushPout_tocbuf (s : State) (blk : PcmBlock) : (s.pushPout blk).tocbuf = s.tocbuf := rfl
@[simp] theorem State.pushPout_exppay (s : State) (blk : PcmBlock) : (s.pushPout blk).exppay = s.exppay := rfl
@[simp] theorem State.pushPout_rempay (s : State) (blk : PcmBlock) : (s.pushPout blk).rempay = s.rempay := rfl
@[simp] theorem State.pushPout_skipcnt (s : State) (blk : PcmBlock) : (s.pushPout blk).skipcnt = s.skipcnt := rfl
@[simp] theorem State.pushPout_din (s : State) (blk : PcmBlock) : (s.pushPout blk).din = s.din := rfl
@[simp] theorem State.pushPout_dout (s : State) (blk : PcmBlock) : (s.pushPout blk).dout = s.dout := rfl
@[simp] theorem State.pushPout_pin (s : State) (blk : PcmBlock) : (s.pushPout blk).pin = s.pin := rfl
@[simp] theorem State.pushPout_pout (s : State) (blk : PcmBlock) : (s.pushPout blk).pout = s.pout ++ [blk] := rfl
@[simp] theorem State.pushPout_cmds (s : State) (blk : PcmBlock) : (s.pushPout blk).cmds = s.cmds := rfl
@[simp] theorem State.pushPout_rsps (s : State) (blk : PcmBlock) : (s.pushPout blk).rsps = s.rsps := rfl
@[simp] theorem State.pushPout_engReqs (s : State) (blk : PcmBlock) : (s.pushPout blk).engReqs = s.engReqs := rfl
@[simp] theorem State.pushPout_decReps (s : State) (blk : PcmBlock) : (s.pushPout blk).decReps = s.decReps := rfl
@[simp] theorem State.pushPout_encReps (s : State) (blk : PcmBlock) : (s.pushPout blk).encReps = s.encReps := rfl
@[simp] theorem State.pushPout_epoch (s : State) (blk : PcmBlock) : (s.pushPout blk).epoch = s.epoch := rfl

/-! ## answered -/

@[simp] theorem State.answered_cfg (s : State) (st : Status) (w : BitVec 3) (r0 r1 : Nat) : (s.answered st w r0 r1).cfg = s.cfg := rfl
@[simp] theorem State.answered_buf (s : State) (st : Status) (w : BitVec 3) (r0 r1 : Nat) : (s.answered st w r0 r1).buf = s.buf := rfl
@[simp] theorem State.answered_len (s : State) (st : Status) (w : BitVec 3) (r0 r1 : Nat) : (s.answered st w r0 r1).len = s.len := rfl
@[simp] theorem State.answered_pos (s : State) (st : Status) (w : BitVec 3) (r0 r1 : Nat) : (s.answered st w r0 r1).pos = s.pos := rfl
@[simp] theorem State.answered_kind (s : State) (st : Status) (w : BitVec 3) (r0 r1 : Nat) : (s.answered st w r0 r1).kind = s.kind := rfl
@[simp] theorem State.answered_flags (s : State) (st : Status) (w : BitVec 3) (r0 r1 : Nat) : (s.answered st w r0 r1).flags = s.flags ||| w := rfl
@[simp] theorem State.answered_err (s : State) (st : Status) (w : BitVec 3) (r0 r1 : Nat) : (s.answered st w r0 r1).err = errAfter s.err st := rfl
@[simp] theorem State.answered_tocn (s : State) (st : Status) (w : BitVec 3) (r0 r1 : Nat) : (s.answered st w r0 r1).tocn = s.tocn := rfl
@[simp] theorem State.answered_tocbuf (s : State) (st : Status) (w : BitVec 3) (r0 r1 : Nat) : (s.answered st w r0 r1).tocbuf = s.tocbuf := rfl
@[simp] theorem State.answered_exppay (s : State) (st : Status) (w : BitVec 3) (r0 r1 : Nat) : (s.answered st w r0 r1).exppay = s.exppay := rfl
@[simp] theorem State.answered_rempay (s : State) (st : Status) (w : BitVec 3) (r0 r1 : Nat) : (s.answered st w r0 r1).rempay = s.rempay := rfl
@[simp] theorem State.answered_skipcnt (s : State) (st : Status) (w : BitVec 3) (r0 r1 : Nat) : (s.answered st w r0 r1).skipcnt = s.skipcnt := rfl
@[simp] theorem State.answered_din (s : State) (st : Status) (w : BitVec 3) (r0 r1 : Nat) : (s.answered st w r0 r1).din = s.din := rfl
@[simp] theorem State.answered_dout (s : State) (st : Status) (w : BitVec 3) (r0 r1 : Nat) : (s.answered st w r0 r1).dout = s.dout := rfl
@[simp] theorem State.answered_pin (s : State) (st : Status) (w : BitVec 3) (r0 r1 : Nat) : (s.answered st w r0 r1).pin = s.pin := rfl
@[simp] theorem State.answered_pout (s : State) (st : Status) (w : BitVec 3) (r0 r1 : Nat) : (s.answered st w r0 r1).pout = s.pout := rfl
@[simp] theorem State.answered_cmds (s : State) (st : Status) (w : BitVec 3) (r0 r1 : Nat) : (s.answered st w r0 r1).cmds = s.cmds := rfl
@[simp] theorem State.answered_rsps (s : State) (st : Status) (w : BitVec 3) (r0 r1 : Nat) : (s.answered st w r0 r1).rsps = s.rsps ++ [⟨st, w, BitVec.ofNat 32 r0, BitVec.ofNat 32 r1⟩] := rfl
@[simp] theorem State.answered_engReqs (s : State) (st : Status) (w : BitVec 3) (r0 r1 : Nat) : (s.answered st w r0 r1).engReqs = s.engReqs := rfl
@[simp] theorem State.answered_decReps (s : State) (st : Status) (w : BitVec 3) (r0 r1 : Nat) : (s.answered st w r0 r1).decReps = s.decReps := rfl
@[simp] theorem State.answered_encReps (s : State) (st : Status) (w : BitVec 3) (r0 r1 : Nat) : (s.answered st w r0 r1).encReps = s.encReps := rfl
@[simp] theorem State.answered_epoch (s : State) (st : Status) (w : BitVec 3) (r0 r1 : Nat) : (s.answered st w r0 r1).epoch = s.epoch := rfl

/-! ## putBit and putBits write BUF only -/

@[simp] theorem State.putBit_cfg (s : State) (a : Nat) (b : Bool) : (s.putBit a b).cfg = s.cfg := by
  unfold State.putBit; split <;> rfl
@[simp] theorem State.putBit_len (s : State) (a : Nat) (b : Bool) : (s.putBit a b).len = s.len := by
  unfold State.putBit; split <;> rfl
@[simp] theorem State.putBit_pos (s : State) (a : Nat) (b : Bool) : (s.putBit a b).pos = s.pos := by
  unfold State.putBit; split <;> rfl
@[simp] theorem State.putBit_kind (s : State) (a : Nat) (b : Bool) : (s.putBit a b).kind = s.kind := by
  unfold State.putBit; split <;> rfl
@[simp] theorem State.putBit_flags (s : State) (a : Nat) (b : Bool) : (s.putBit a b).flags = s.flags := by
  unfold State.putBit; split <;> rfl
@[simp] theorem State.putBit_err (s : State) (a : Nat) (b : Bool) : (s.putBit a b).err = s.err := by
  unfold State.putBit; split <;> rfl
@[simp] theorem State.putBit_tocn (s : State) (a : Nat) (b : Bool) : (s.putBit a b).tocn = s.tocn := by
  unfold State.putBit; split <;> rfl
@[simp] theorem State.putBit_tocbuf (s : State) (a : Nat) (b : Bool) : (s.putBit a b).tocbuf = s.tocbuf := by
  unfold State.putBit; split <;> rfl
@[simp] theorem State.putBit_exppay (s : State) (a : Nat) (b : Bool) : (s.putBit a b).exppay = s.exppay := by
  unfold State.putBit; split <;> rfl
@[simp] theorem State.putBit_rempay (s : State) (a : Nat) (b : Bool) : (s.putBit a b).rempay = s.rempay := by
  unfold State.putBit; split <;> rfl
@[simp] theorem State.putBit_skipcnt (s : State) (a : Nat) (b : Bool) : (s.putBit a b).skipcnt = s.skipcnt := by
  unfold State.putBit; split <;> rfl
@[simp] theorem State.putBit_din (s : State) (a : Nat) (b : Bool) : (s.putBit a b).din = s.din := by
  unfold State.putBit; split <;> rfl
@[simp] theorem State.putBit_dout (s : State) (a : Nat) (b : Bool) : (s.putBit a b).dout = s.dout := by
  unfold State.putBit; split <;> rfl
@[simp] theorem State.putBit_pin (s : State) (a : Nat) (b : Bool) : (s.putBit a b).pin = s.pin := by
  unfold State.putBit; split <;> rfl
@[simp] theorem State.putBit_pout (s : State) (a : Nat) (b : Bool) : (s.putBit a b).pout = s.pout := by
  unfold State.putBit; split <;> rfl
@[simp] theorem State.putBit_cmds (s : State) (a : Nat) (b : Bool) : (s.putBit a b).cmds = s.cmds := by
  unfold State.putBit; split <;> rfl
@[simp] theorem State.putBit_rsps (s : State) (a : Nat) (b : Bool) : (s.putBit a b).rsps = s.rsps := by
  unfold State.putBit; split <;> rfl
@[simp] theorem State.putBit_engReqs (s : State) (a : Nat) (b : Bool) : (s.putBit a b).engReqs = s.engReqs := by
  unfold State.putBit; split <;> rfl
@[simp] theorem State.putBit_decReps (s : State) (a : Nat) (b : Bool) : (s.putBit a b).decReps = s.decReps := by
  unfold State.putBit; split <;> rfl
@[simp] theorem State.putBit_encReps (s : State) (a : Nat) (b : Bool) : (s.putBit a b).encReps = s.encReps := by
  unfold State.putBit; split <;> rfl
@[simp] theorem State.putBit_epoch (s : State) (a : Nat) (b : Bool) : (s.putBit a b).epoch = s.epoch := by
  unfold State.putBit; split <;> rfl
@[simp] theorem State.putBits_cfg (s : State) (a : Nat) (bs : List Bool) : (s.putBits a bs).cfg = s.cfg := by
  induction bs generalizing s a with
  | nil => rfl
  | cons b bs ih => simp [State.putBits, ih]
@[simp] theorem State.putBits_len (s : State) (a : Nat) (bs : List Bool) : (s.putBits a bs).len = s.len := by
  induction bs generalizing s a with
  | nil => rfl
  | cons b bs ih => simp [State.putBits, ih]
@[simp] theorem State.putBits_pos (s : State) (a : Nat) (bs : List Bool) : (s.putBits a bs).pos = s.pos := by
  induction bs generalizing s a with
  | nil => rfl
  | cons b bs ih => simp [State.putBits, ih]
@[simp] theorem State.putBits_kind (s : State) (a : Nat) (bs : List Bool) : (s.putBits a bs).kind = s.kind := by
  induction bs generalizing s a with
  | nil => rfl
  | cons b bs ih => simp [State.putBits, ih]
@[simp] theorem State.putBits_flags (s : State) (a : Nat) (bs : List Bool) : (s.putBits a bs).flags = s.flags := by
  induction bs generalizing s a with
  | nil => rfl
  | cons b bs ih => simp [State.putBits, ih]
@[simp] theorem State.putBits_err (s : State) (a : Nat) (bs : List Bool) : (s.putBits a bs).err = s.err := by
  induction bs generalizing s a with
  | nil => rfl
  | cons b bs ih => simp [State.putBits, ih]
@[simp] theorem State.putBits_tocn (s : State) (a : Nat) (bs : List Bool) : (s.putBits a bs).tocn = s.tocn := by
  induction bs generalizing s a with
  | nil => rfl
  | cons b bs ih => simp [State.putBits, ih]
@[simp] theorem State.putBits_tocbuf (s : State) (a : Nat) (bs : List Bool) : (s.putBits a bs).tocbuf = s.tocbuf := by
  induction bs generalizing s a with
  | nil => rfl
  | cons b bs ih => simp [State.putBits, ih]
@[simp] theorem State.putBits_exppay (s : State) (a : Nat) (bs : List Bool) : (s.putBits a bs).exppay = s.exppay := by
  induction bs generalizing s a with
  | nil => rfl
  | cons b bs ih => simp [State.putBits, ih]
@[simp] theorem State.putBits_rempay (s : State) (a : Nat) (bs : List Bool) : (s.putBits a bs).rempay = s.rempay := by
  induction bs generalizing s a with
  | nil => rfl
  | cons b bs ih => simp [State.putBits, ih]
@[simp] theorem State.putBits_skipcnt (s : State) (a : Nat) (bs : List Bool) : (s.putBits a bs).skipcnt = s.skipcnt := by
  induction bs generalizing s a with
  | nil => rfl
  | cons b bs ih => simp [State.putBits, ih]
@[simp] theorem State.putBits_din (s : State) (a : Nat) (bs : List Bool) : (s.putBits a bs).din = s.din := by
  induction bs generalizing s a with
  | nil => rfl
  | cons b bs ih => simp [State.putBits, ih]
@[simp] theorem State.putBits_dout (s : State) (a : Nat) (bs : List Bool) : (s.putBits a bs).dout = s.dout := by
  induction bs generalizing s a with
  | nil => rfl
  | cons b bs ih => simp [State.putBits, ih]
@[simp] theorem State.putBits_pin (s : State) (a : Nat) (bs : List Bool) : (s.putBits a bs).pin = s.pin := by
  induction bs generalizing s a with
  | nil => rfl
  | cons b bs ih => simp [State.putBits, ih]
@[simp] theorem State.putBits_pout (s : State) (a : Nat) (bs : List Bool) : (s.putBits a bs).pout = s.pout := by
  induction bs generalizing s a with
  | nil => rfl
  | cons b bs ih => simp [State.putBits, ih]
@[simp] theorem State.putBits_cmds (s : State) (a : Nat) (bs : List Bool) : (s.putBits a bs).cmds = s.cmds := by
  induction bs generalizing s a with
  | nil => rfl
  | cons b bs ih => simp [State.putBits, ih]
@[simp] theorem State.putBits_rsps (s : State) (a : Nat) (bs : List Bool) : (s.putBits a bs).rsps = s.rsps := by
  induction bs generalizing s a with
  | nil => rfl
  | cons b bs ih => simp [State.putBits, ih]
@[simp] theorem State.putBits_engReqs (s : State) (a : Nat) (bs : List Bool) : (s.putBits a bs).engReqs = s.engReqs := by
  induction bs generalizing s a with
  | nil => rfl
  | cons b bs ih => simp [State.putBits, ih]
@[simp] theorem State.putBits_decReps (s : State) (a : Nat) (bs : List Bool) : (s.putBits a bs).decReps = s.decReps := by
  induction bs generalizing s a with
  | nil => rfl
  | cons b bs ih => simp [State.putBits, ih]
@[simp] theorem State.putBits_encReps (s : State) (a : Nat) (bs : List Bool) : (s.putBits a bs).encReps = s.encReps := by
  induction bs generalizing s a with
  | nil => rfl
  | cons b bs ih => simp [State.putBits, ih]
@[simp] theorem State.putBits_epoch (s : State) (a : Nat) (bs : List Bool) : (s.putBits a bs).epoch = s.epoch := by
  induction bs generalizing s a with
  | nil => rfl
  | cons b bs ih => simp [State.putBits, ih]

/-! ## An operation in progress -/

@[simp] theorem Run.warn_cfg (o : Run) (w : BitVec 3) : (o.warn w).st.cfg = o.st.cfg := rfl
@[simp] theorem Run.warn_buf (o : Run) (w : BitVec 3) : (o.warn w).st.buf = o.st.buf := rfl
@[simp] theorem Run.warn_len (o : Run) (w : BitVec 3) : (o.warn w).st.len = o.st.len := rfl
@[simp] theorem Run.warn_pos (o : Run) (w : BitVec 3) : (o.warn w).st.pos = o.st.pos := rfl
@[simp] theorem Run.warn_kind (o : Run) (w : BitVec 3) : (o.warn w).st.kind = o.st.kind := rfl
@[simp] theorem Run.warn_flags (o : Run) (w : BitVec 3) : (o.warn w).st.flags = o.st.flags ||| w := rfl
@[simp] theorem Run.warn_err (o : Run) (w : BitVec 3) : (o.warn w).st.err = o.st.err := rfl
@[simp] theorem Run.warn_tocn (o : Run) (w : BitVec 3) : (o.warn w).st.tocn = o.st.tocn := rfl
@[simp] theorem Run.warn_tocbuf (o : Run) (w : BitVec 3) : (o.warn w).st.tocbuf = o.st.tocbuf := rfl
@[simp] theorem Run.warn_exppay (o : Run) (w : BitVec 3) : (o.warn w).st.exppay = o.st.exppay := rfl
@[simp] theorem Run.warn_rempay (o : Run) (w : BitVec 3) : (o.warn w).st.rempay = o.st.rempay := rfl
@[simp] theorem Run.warn_skipcnt (o : Run) (w : BitVec 3) : (o.warn w).st.skipcnt = o.st.skipcnt := rfl
@[simp] theorem Run.warn_din (o : Run) (w : BitVec 3) : (o.warn w).st.din = o.st.din := rfl
@[simp] theorem Run.warn_dout (o : Run) (w : BitVec 3) : (o.warn w).st.dout = o.st.dout := rfl
@[simp] theorem Run.warn_pin (o : Run) (w : BitVec 3) : (o.warn w).st.pin = o.st.pin := rfl
@[simp] theorem Run.warn_pout (o : Run) (w : BitVec 3) : (o.warn w).st.pout = o.st.pout := rfl
@[simp] theorem Run.warn_cmds (o : Run) (w : BitVec 3) : (o.warn w).st.cmds = o.st.cmds := rfl
@[simp] theorem Run.warn_rsps (o : Run) (w : BitVec 3) : (o.warn w).st.rsps = o.st.rsps := rfl
@[simp] theorem Run.warn_engReqs (o : Run) (w : BitVec 3) : (o.warn w).st.engReqs = o.st.engReqs := rfl
@[simp] theorem Run.warn_decReps (o : Run) (w : BitVec 3) : (o.warn w).st.decReps = o.st.decReps := rfl
@[simp] theorem Run.warn_encReps (o : Run) (w : BitVec 3) : (o.warn w).st.encReps = o.st.encReps := rfl
@[simp] theorem Run.warn_epoch (o : Run) (w : BitVec 3) : (o.warn w).st.epoch = o.st.epoch := rfl
@[simp] theorem Run.warn_wflags (o : Run) (w : BitVec 3) : (o.warn w).wflags = o.wflags ||| w := rfl
@[simp] theorem Run.modify_st (o : Run) (f : State → State) : (o.modify f).st = f o.st := rfl
@[simp] theorem Run.modify_wflags (o : Run) (f : State → State) : (o.modify f).wflags = o.wflags := rfl
@[simp] theorem Run.begin_st (s : State) : (Run.begin s).st = s := rfl
@[simp] theorem Run.begin_wflags (s : State) : (Run.begin s).wflags = 0 := rfl

end Sys2Proof.Machine
end

