-- ==== Sys2Proof/Laws/Memory.lean ====
section
/-! SUPPORT. BUF as a list of cells: a read after a write, and the canonical form every memory operation keeps. -/

namespace Sys2Proof.Machine

theorem Memory.lookup_store (m : List Host.Cell) (a : Nat) (b : Byte) (x : Nat) :
    Memory.lookup (Memory.store m a b) x = if a = x then some b else Memory.lookup m x := by
  induction m with
  | nil => simp [Memory.store, Memory.lookup]
  | cons c m ih =>
    obtain ⟨k, v⟩ := c
    simp only [Memory.store]
    split
    · simp only [Memory.lookup]
    · split
      · subst_vars; simp only [Memory.lookup]; split <;> rfl
      · simp only [Memory.lookup, ih]; split <;> split <;> first | rfl | omega

theorem Memory.mem_store {m : List Host.Cell} {a : Nat} {b : Byte} {c : Host.Cell} (h : c ∈ Memory.store m a b) :
    c = (a, b) ∨ c ∈ m := by
  induction m with
  | nil => simpa [Memory.store] using h
  | cons d m ih =>
    obtain ⟨k, v⟩ := d
    simp only [Memory.store] at h
    split at h
    · simpa using h
    · split at h
      · rcases List.mem_cons.1 h with h | h
        · exact .inl h
        · exact .inr (List.mem_cons_of_mem _ h)
      · rcases List.mem_cons.1 h with h | h
        · exact .inr (h ▸ List.mem_cons_self)
        · exact (ih h).imp id (List.mem_cons_of_mem _)

theorem Memory.store_wf {m : List Host.Cell} (h : Memory.wf m) (a : Nat) (b : Byte) : Memory.wf (Memory.store m a b) := by
  induction m with
  | nil => simp [Memory.store]
  | cons d m ih =>
    obtain ⟨k, v⟩ := d
    have ⟨hk, hm⟩ := List.pairwise_cons.1 h
    simp only [Memory.store]
    split
    · refine List.pairwise_cons.2 ⟨fun c hc => ?_, h⟩
      rcases List.mem_cons.1 hc with rfl | hc
      · assumption
      · exact Nat.lt_trans (by assumption) (hk c hc)
    · split
      · subst_vars; exact List.pairwise_cons.2 ⟨hk, hm⟩
      · refine List.pairwise_cons.2 ⟨fun c hc => ?_, ih hm⟩
        rcases Memory.mem_store hc with rfl | hc
        · show k < a; omega
        · exact hk c hc

theorem Memory.storeAll_wf {m : List Host.Cell} (h : Memory.wf m) (a : Nat) (bs : List Byte) :
    Memory.wf (Memory.storeAll m a bs) := by
  induction bs generalizing m a with
  | nil => exact h
  | cons b bs ih => exact ih (Memory.store_wf h a b) (a + 1)

theorem Memory.mem_storeAll {m : List Host.Cell} {a : Nat} {bs : List Byte} {c : Host.Cell}
    (h : c ∈ Memory.storeAll m a bs) : (a ≤ c.1 ∧ c.1 < a + bs.length) ∨ c ∈ m := by
  induction bs generalizing m a with
  | nil => exact .inr h
  | cons b bs ih =>
    rcases ih h with h | h
    · left; simp only [List.length_cons]; omega
    · rcases Memory.mem_store h with rfl | h
      · left; simp
      · exact .inr h

theorem Memory.lookup_storeAll (m : List Host.Cell) (a : Nat) (bs : List Byte) (x : Nat) :
    Memory.lookup (Memory.storeAll m a bs) x =
      if a ≤ x ∧ x < a + bs.length then bs[x - a]? else Memory.lookup m x := by
  induction bs generalizing m a with
  | nil => simp only [Memory.storeAll, List.length_nil]; rw [if_neg (by omega)]
  | cons b bs ih =>
    simp only [Memory.storeAll, ih, Memory.lookup_store, List.length_cons]
    by_cases h1 : a = x
    · subst h1; simp
    · by_cases h2 : a + 1 ≤ x ∧ x < a + 1 + bs.length
      · rw [if_pos h2, if_pos (by omega), show x - a = (x - (a + 1)) + 1 by omega, List.getElem?_cons_succ]
      · rw [if_neg h2, if_neg h1, if_neg (by omega)]

/-- A byte read depends on BUF and the reset count only. -/
theorem State.bufByte_congr {s t : State} (hb : t.buf = s.buf) (he : t.epoch = s.epoch) (a : Nat) :
    t.bufByte a = s.bufByte a := by
  unfold State.bufByte; rw [hb, he]

/-- Read after write: the bytes written, and every other byte as before (R51). -/
theorem State.bufByte_memWrite (s : State) (a : Nat) (bs : List Byte) (x : Nat) :
    (s.memWrite a bs).bufByte x = if a ≤ x ∧ x < a + bs.length then bs.getD (x - a) 0 else s.bufByte x := by
  simp only [State.bufByte, State.memWrite_buf, State.memWrite_epoch, Memory.lookup_storeAll]
  split
  · rw [List.getD_eq_getElem?_getD, List.getElem?_eq_getElem (by omega)]; simp
  · rfl

theorem State.memWrite_single_bufByte (s : State) (a : Nat) (b : Byte) (x : Nat) :
    (s.memWrite a [b]).bufByte x = if x = a then b else s.bufByte x := by
  rw [State.bufByte_memWrite]
  by_cases h : x = a
  · subst h; simp
  · rw [if_neg h, if_neg (by simp; omega)]

/-- `MemWrite` keeps the canonical form. -/
theorem State.memWrite_wf {s : State} (h : Memory.wf s.buf) (a : Nat) (bs : List Byte) : Memory.wf (s.memWrite a bs).buf :=
  Memory.storeAll_wf h a bs

/-- `PutBit` keeps the canonical form. -/
theorem State.putBit_wf {s : State} (h : Memory.wf s.buf) (a : Nat) (b : Bool) : Memory.wf (s.putBit a b).buf := by
  unfold State.putBit; split
  · exact State.memWrite_wf h _ _
  · exact h

theorem State.putBits_wf {s : State} (h : Memory.wf s.buf) (a : Nat) (bs : List Bool) : Memory.wf (s.putBits a bs).buf := by
  induction bs generalizing s a with
  | nil => exact h
  | cons b bs ih => exact ih (State.putBit_wf h a b) (a + 1)

/-- The memory after reset is in canonical form. -/
theorem State.reset_wf (c : Config) : Memory.wf (State.resetWith c).buf := List.Pairwise.nil

end Sys2Proof.Machine
end

