-- ==== Sys2Proof/Laws/Bits.lean ====
section
/-! SUPPORT. Bit fields, bits of BUF and the cursor: what reading and writing a run of bits does (20_memory.md R42 to R45,
40_bit_cursor.md R92). -/

namespace Sys2Proof.Machine

/-! ## Fields as bit lists -/

@[simp] theorem fieldBits_length (n v : Nat) : (fieldBits n v).length = n := by simp [fieldBits]

theorem fieldBits_getElem (n v i : Nat) (h : i < (fieldBits n v).length) :
    (fieldBits n v)[i] = v.testBit (n - 1 - i) := by simp [fieldBits]

theorem bitsValue_foldl (bs : List Bool) (v : Nat) :
    bs.foldl (fun v b => 2 * v + b.toNat) v = 2 ^ bs.length * v + bitsValue bs := by
  induction bs generalizing v with
  | nil => simp [bitsValue]
  | cons b bs ih =>
    have h : bitsValue (b :: bs) = 2 ^ bs.length * b.toNat + bitsValue bs := by
      show bs.foldl _ (2 * 0 + b.toNat) = _
      rw [ih, Nat.mul_zero, Nat.zero_add]
    rw [List.foldl_cons, ih, h, List.length_cons]; ring

theorem bitsValue_append (xs ys : List Bool) : bitsValue (xs ++ ys) = 2 ^ ys.length * bitsValue xs + bitsValue ys := by
  rw [bitsValue, List.foldl_append, bitsValue_foldl]; rfl

theorem bitsValue_cons (b : Bool) (bs : List Bool) : bitsValue (b :: bs) = 2 ^ bs.length * b.toNat + bitsValue bs := by
  simpa [bitsValue] using bitsValue_append [b] bs

theorem bitsValue_lt (bs : List Bool) : bitsValue bs < 2 ^ bs.length := by
  induction bs with
  | nil => simp [bitsValue]
  | cons b bs ih =>
    rw [bitsValue_cons, List.length_cons, pow_succ]
    cases b <;> simp <;> omega

/-- The first bit is the most significant one (R45). -/
theorem bitsValue_testBit (bs : List Bool) (j : Nat) :
    (bitsValue bs).testBit j = if h : j < bs.length then bs[bs.length - 1 - j] else false := by
  induction bs generalizing j with
  | nil => simp [bitsValue]
  | cons b bs ih =>
    rw [bitsValue_cons, Nat.testBit_two_pow_mul_add _ (bitsValue_lt bs)]
    by_cases h : j < bs.length
    · rw [if_pos h, ih, dif_pos h, dif_pos (by simp; omega)]
      simp only [List.length_cons, show bs.length + 1 - 1 - j = (bs.length - 1 - j) + 1 by omega, List.getElem_cons_succ]
    · rw [if_neg h]
      by_cases h' : j = bs.length
      · subst h'; cases b <;> simp
      · rw [dif_neg (by simp; omega)]
        obtain ⟨d, hd⟩ : ∃ d, j - bs.length = d + 1 := ⟨j - bs.length - 1, by omega⟩
        rw [hd, Nat.testBit_succ]; cases b <;> simp

theorem fieldBits_bitsValue (bs : List Bool) : fieldBits bs.length (bitsValue bs) = bs := by
  apply List.ext_getElem (by simp)
  intro i h1 h2
  rw [fieldBits_getElem, bitsValue_testBit, dif_pos (by omega)]
  congr 1; omega

theorem bitsValue_fieldBits (n v : Nat) : bitsValue (fieldBits n v) = v % 2 ^ n := by
  apply Nat.eq_of_testBit_eq
  intro j
  rw [bitsValue_testBit, Nat.testBit_mod_two_pow]
  by_cases h : j < n
  · rw [dif_pos (by simpa using h), fieldBits_getElem]
    simp only [fieldBits_length, h, decide_true, Bool.true_and]
    congr 1; omega
  · rw [dif_neg (by simpa using h)]; simp [h]

theorem bitsValue_replicate_false (n : Nat) : bitsValue (List.replicate n false) = 0 := by
  induction n with
  | zero => rfl
  | succ n ih => rw [List.replicate_succ, bitsValue_cons, ih]; simp

@[simp] theorem bytesBits_length (bs : List Byte) : (bytesBits bs).length = 8 * bs.length := by
  induction bs with
  | nil => rfl
  | cons b bs ih => simp only [bytesBits, List.flatMap_cons, List.length_append, fieldBits_length, List.length_cons] at *; omega

@[simp] theorem bytesBits_nil : bytesBits [] = [] := rfl

theorem bytesBits_cons (b : Byte) (bs : List Byte) : bytesBits (b :: bs) = fieldBits 8 b.toNat ++ bytesBits bs := by
  simp [bytesBits]

theorem bytesBits_append (xs ys : List Byte) : bytesBits (xs ++ ys) = bytesBits xs ++ bytesBits ys := by
  simp [bytesBits]

theorem fieldBits_byte_injective {x y : Byte} (h : fieldBits 8 x.toNat = fieldBits 8 y.toNat) : x = y := by
  have := congrArg bitsValue h
  rw [bitsValue_fieldBits, bitsValue_fieldBits] at this
  apply BitVec.eq_of_toNat_eq
  have hx := x.isLt; have hy := y.isLt
  omega

theorem bytesBits_injective {xs ys : List Byte} (h : bytesBits xs = bytesBits ys) : xs = ys := by
  induction xs generalizing ys with
  | nil =>
    have := congrArg List.length h
    rw [bytesBits_length, bytesBits_length] at this
    exact (List.length_eq_zero_iff.1 (by simpa using this.symm)).symm
  | cons x xs ih =>
    cases ys with
    | nil => have := congrArg List.length h; simp at this
    | cons y ys =>
      rw [bytesBits_cons, bytesBits_cons] at h
      obtain ⟨h1, h2⟩ := List.append_inj h (by simp)
      rw [fieldBits_byte_injective h1, ih h2]

/-! ## The region and the cursor -/

theorem State.limit_lt (s : State) : s.limit < 2 ^ 32 := by
  have := s.len.isLt; unfold State.limit; omega

theorem State.limit_congr {s t : State} (h : t.len = s.len) : t.limit = s.limit := by unfold State.limit; rw [h]

theorem State.cursor_congr {s t : State} (h : t.pos = s.pos) : t.cursor = s.cursor := by unfold State.cursor; rw [h]

theorem State.avail_congr {s t : State} (hp : t.pos = s.pos) (hl : t.len = s.len) : t.avail = s.avail := by
  unfold State.avail; rw [State.limit_congr hl, State.cursor_congr hp]

theorem State.cursor_setCursor (s : State) {p : Nat} (h : p < 2 ^ 32) : (s.setCursor p).cursor = p := by
  simp only [State.cursor, State.setCursor_pos, BitVec.toNat_ofNat]; omega

/-- The cursor saturates at the end of the region (R92). -/
@[simp] theorem State.cursor_advance (s : State) (m : Nat) : (s.advance m).cursor = min (s.cursor + m) s.limit := by
  have := s.limit_lt
  exact State.cursor_setCursor s (by omega)

@[simp] theorem State.limit_advance (s : State) (m : Nat) : (s.advance m).limit = s.limit := rfl
@[simp] theorem State.limit_setCursor (s : State) (p : Nat) : (s.setCursor p).limit = s.limit := rfl
@[simp] theorem State.limit_putBits (s : State) (a : Nat) (bs : List Bool) : (s.putBits a bs).limit = s.limit :=
  State.limit_congr (by simp)
@[simp] theorem State.limit_putBit (s : State) (a : Nat) (b : Bool) : (s.putBit a b).limit = s.limit :=
  State.limit_congr (by simp)
@[simp] theorem State.cursor_putBits (s : State) (a : Nat) (bs : List Bool) : (s.putBits a bs).cursor = s.cursor := by
  simp [State.cursor]
@[simp] theorem State.avail_putBits (s : State) (a : Nat) (bs : List Bool) : (s.putBits a bs).avail = s.avail := by
  simp [State.avail]

theorem State.avail_advance (s : State) (m : Nat) : (s.advance m).avail = s.avail - m := by
  simp only [State.avail, State.cursor_advance, State.limit_advance]; omega

/-- Two advances are one: the saturation does not show (R92). -/
theorem State.advance_advance (s : State) (m n : Nat) : (s.advance m).advance n = s.advance (m + n) := by
  have h : (min (min (s.cursor + m) s.limit + n) s.limit) = min (s.cursor + (m + n)) s.limit := by omega
  show (s.advance m).setCursor _ = s.setCursor _
  rw [State.cursor_advance, State.limit_advance, h]; rfl

/-! ## Bits of BUF -/

theorem setBit_getLsbD (x : Byte) {i j : Nat} (hi : i < 8) (hj : j < 8) (b : Bool) :
    (setBit x i b).getLsbD j = if j = i then b else x.getLsbD j := by
  unfold setBit
  cases b
  · simp only [Bool.false_eq_true, if_false, BitVec.getLsbD_and, BitVec.getLsbD_not, BitVec.getLsbD_twoPow]
    by_cases h : j = i
    · simp [h, hi]
    · simp [h, hj, Ne.symm h]
  · simp only [if_true, BitVec.getLsbD_or, BitVec.getLsbD_twoPow]
    by_cases h : j = i
    · simp [h, hi]
    · simp [h, Ne.symm h]

/-- `PutBit` replaces one bit of the region and no other bit of BUF (R44). -/
theorem State.bufBit_putBit (s : State) (a : Nat) (b : Bool) (x : Nat) :
    (s.putBit a b).bufBit x = if x = a ∧ a < s.limit then b else s.bufBit x := by
  unfold State.putBit
  by_cases h : a < s.limit
  · rw [if_pos h]
    simp only [State.bufBit, State.memWrite_single_bufByte]
    by_cases h1 : x / 8 = a / 8
    · rw [if_pos h1, setBit_getLsbD _ (by omega) (by omega), h1]
      by_cases h2 : x = a
      · subst h2; simp [h]
      · rw [if_neg (by omega), if_neg (by tauto)]
    · rw [if_neg h1, if_neg (by rintro ⟨rfl, _⟩; exact h1 rfl)]
  · rw [if_neg h, if_neg (by tauto)]

/-- A run of bits put in the region, and no other bit of BUF changed (R44). -/
theorem State.bufBit_putBits (s : State) (a : Nat) (bs : List Bool) (x : Nat) :
    (s.putBits a bs).bufBit x = if a ≤ x ∧ x < a + bs.length ∧ x < s.limit then bs.getD (x - a) false else s.bufBit x := by
  induction bs generalizing s a with
  | nil => simp only [State.putBits, List.length_nil]; rw [if_neg (by omega)]
  | cons b bs ih =>
    simp only [State.putBits, ih, State.bufBit_putBit, State.limit_putBit, List.length_cons]
    by_cases h : x = a
    · subst h
      rw [if_neg (by omega)]
      by_cases h2 : x < s.limit
      · rw [if_pos ⟨rfl, h2⟩, if_pos (by omega)]; simp
      · rw [if_neg (by tauto), if_neg (by tauto)]
    · rw [if_neg (by tauto : ¬ (x = a ∧ a < s.limit))]
      by_cases h2 : a + 1 ≤ x ∧ x < a + 1 + bs.length ∧ x < s.limit
      · rw [if_pos h2, if_pos (by omega), show x - a = (x - (a + 1)) + 1 by omega]; simp
      · rw [if_neg h2, if_neg (by omega)]

theorem State.getBit_putBits (s : State) (a : Nat) (bs : List Bool) (x : Nat) :
    (s.putBits a bs).getBit x = if a ≤ x ∧ x < a + bs.length ∧ x < s.limit then bs.getD (x - a) false else s.getBit x := by
  simp only [State.getBit, State.limit_putBits, State.bufBit_putBits]
  by_cases h : x < s.limit
  · rw [if_pos h]; simp [h]
  · rw [if_neg h, if_neg (by tauto), if_neg h]

theorem State.getBit_congr {s t : State} (hb : t.buf = s.buf) (he : t.epoch = s.epoch) (hl : t.len = s.len) (a : Nat) :
    t.getBit a = s.getBit a := by
  simp only [State.getBit, State.bufBit, State.limit_congr hl, State.bufByte_congr hb he]

theorem State.getBits_congr {s t : State} (hb : t.buf = s.buf) (he : t.epoch = s.epoch) (hl : t.len = s.len) (a n : Nat) :
    t.getBits a n = s.getBits a n := by
  simp only [State.getBits, State.getBit_congr hb he hl]

@[simp] theorem State.getBits_length (s : State) (a n : Nat) : (s.getBits a n).length = n := by simp [State.getBits]

theorem State.getBits_getElem (s : State) (a n i : Nat) (h : i < (s.getBits a n).length) :
    (s.getBits a n)[i] = s.getBit (a + i) := by simp [State.getBits]

/-- Accesses of different widths see the same bits (R46). -/
theorem State.getBits_add (s : State) (a m n : Nat) : s.getBits a (m + n) = s.getBits a m ++ s.getBits (a + m) n := by
  simp only [State.getBits, List.range_add, List.map_append, List.map_map]
  congr 1; apply List.map_congr_left; intro i _; simp [Nat.add_assoc]

/-- A run of bits read back where it was put, if it fits (R95, R104). -/
theorem State.getBits_putBits_same (s : State) (a : Nat) (bs : List Bool) (h : a + bs.length ≤ s.limit) :
    (s.putBits a bs).getBits a bs.length = bs := by
  apply List.ext_getElem (by simp)
  intro i h1 h2
  rw [State.getBits_getElem, State.getBit_putBits, if_pos (by omega)]
  simp [h2]

theorem State.getBits_putBits_disjoint (s : State) (a : Nat) (bs : List Bool) (x n : Nat)
    (h : x + n ≤ a ∨ a + bs.length ≤ x) : (s.putBits a bs).getBits x n = s.getBits x n := by
  apply List.ext_getElem (by simp)
  intro i h1 h2
  simp only [State.getBits_length] at h1
  rw [State.getBits_getElem, State.getBits_getElem, State.getBit_putBits, if_neg (by omega)]

theorem State.getBits_past (s : State) (a n : Nat) (h : s.limit ≤ a) : s.getBits a n = List.replicate n false := by
  apply List.ext_getElem (by simp)
  intro i h1 h2
  rw [State.getBits_getElem, State.getBit, if_neg (by omega)]; simp

theorem State.putBits_append (s : State) (a : Nat) (xs ys : List Bool) :
    s.putBits a (xs ++ ys) = (s.putBits a xs).putBits (a + xs.length) ys := by
  induction xs generalizing s a with
  | nil => rfl
  | cons b xs ih => simp only [List.cons_append, State.putBits, ih, List.length_cons]; congr 1; omega

/-- A byte of BUF is its eight bits. -/
theorem State.bufByte_ext {s t : State} {k : Nat} (h : ∀ j, j < 8 → s.bufBit (8 * k + j) = t.bufBit (8 * k + j)) :
    s.bufByte k = t.bufByte k := by
  apply BitVec.eq_of_getLsbD_eq
  intro i hi
  have := h (7 - i) (by omega)
  simpa only [State.bufBit, show (8 * k + (7 - i)) / 8 = k by omega, show 7 - (8 * k + (7 - i)) % 8 = i by omega] using this

/-- A byte that no bit of the run falls into, or that lies past the region, is unchanged. -/
theorem State.bufByte_putBits_outside (s : State) (a : Nat) (bs : List Bool) (k : Nat)
    (h : 8 * k + 8 ≤ a ∨ a + bs.length ≤ 8 * k ∨ s.len.toNat ≤ k) : (s.putBits a bs).bufByte k = s.bufByte k := by
  apply State.bufByte_ext
  intro j hj
  rw [State.bufBit_putBits, if_neg]
  unfold State.limit; omega

theorem State.mem_putBit {s : State} {a : Nat} {b : Bool} {c : Host.Cell} (h : c ∈ (s.putBit a b).buf) :
    c.1 < s.len.toNat ∨ c ∈ s.buf := by
  unfold State.putBit State.limit at h
  split at h
  · rcases Memory.mem_storeAll h with h | h
    · left; simp at h; omega
    · exact .inr h
  · exact .inr h

/-- `PutBit` lists no byte past the region. -/
theorem State.mem_putBits {s : State} {a : Nat} {bs : List Bool} {c : Host.Cell} (h : c ∈ (s.putBits a bs).buf) :
    c.1 < s.len.toNat ∨ c ∈ s.buf := by
  induction bs generalizing s a with
  | nil => exact .inr h
  | cons b bs ih =>
    rcases ih h with h | h
    · left; simpa using h
    · exact State.mem_putBit h

end Sys2Proof.Machine
end

