-- ==== Sys2Proof/Laws/Encoding.lean ====
section
/-! SUPPORT. The fields of a command word (30_encoding.md R61). -/

namespace Sys2Proof

theorem mkCmd_toNat (op : Byte) (a b : Word) :
    (mkCmd op a b).toNat = op.toNat * 2 ^ 64 + a.toNat * 2 ^ 32 + b.toNat := by
  have h1 : (op ++ a).toNat = op.toNat <<< 32 ||| a.toNat := BitVec.toNat_append op a
  have h2 : (op ++ a ++ b).toNat = (op ++ a).toNat <<< 32 ||| b.toNat := BitVec.toNat_append (op ++ a) b
  show (op ++ a ++ b).toNat = _
  rw [h2, h1, ← Nat.shiftLeft_add_eq_or_of_lt a.isLt, ← Nat.shiftLeft_add_eq_or_of_lt b.isLt]
  simp only [Nat.shiftLeft_eq]; ring

@[simp] theorem cmdOp_mkCmd (op : Byte) (a b : Word) : cmdOp (mkCmd op a b) = op := by
  apply BitVec.eq_of_toNat_eq
  unfold cmdOp
  rw [BitVec.extractLsb'_toNat, mkCmd_toNat, Nat.shiftRight_eq_div_pow]
  have := op.isLt; have := a.isLt; have := b.isLt; omega

@[simp] theorem cmdA_mkCmd (op : Byte) (a b : Word) : cmdA (mkCmd op a b) = a := by
  apply BitVec.eq_of_toNat_eq
  unfold cmdA
  rw [BitVec.extractLsb'_toNat, mkCmd_toNat, Nat.shiftRight_eq_div_pow]
  have := op.isLt; have := a.isLt; have := b.isLt; omega

@[simp] theorem cmdB_mkCmd (op : Byte) (a b : Word) : cmdB (mkCmd op a b) = b := by
  apply BitVec.eq_of_toNat_eq
  unfold cmdB
  rw [BitVec.extractLsb'_toNat, mkCmd_toNat, Nat.shiftRight_eq_div_pow]
  have := op.isLt; have := a.isLt; have := b.isLt; omega

theorem cmdOp_toNat (w : CmdWord) : (cmdOp w).toNat = w.toNat / 2 ^ 64 := by
  unfold cmdOp
  rw [BitVec.extractLsb'_toNat, Nat.shiftRight_eq_div_pow]
  have := w.isLt; omega

end Sys2Proof
end

