-- ==== Sys2Proof/Laws/Ops.lean ====
section
/-! SUPPORT. What each shared operation does, said once: fields and byte copies at the cursor, streams, the codec engine port, and
responses. -/

namespace Sys2Proof.Machine

/-! ## Responses -/

theorem errAfter_ok (e : BitVec 8) : errAfter e .ok = e := rfl

theorem errAfter_error (e : BitVec 8) {st : Status} (h : st ≠ .ok) : errAfter e st = statusCode st := by
  unfold errAfter; rw [if_neg h]

/-- A response always gives a next state, which differs from the state so far in ERR and in the one response sent (R232). -/
theorem Run.respond_next (o : Run) (st : Status) (r0 r1 : Nat) :
    o.respond st r0 r1 = .next { o.st with
      err := errAfter o.st.err st
      rsps := o.st.rsps ++ [⟨st, o.wflags, BitVec.ofNat 32 r0, BitVec.ofNat 32 r1⟩] } := rfl

/-- A response of an operation that began in `s` and raised no warning. -/
theorem Run.begin_respond (s : State) (st : Status) (r0 r1 : Nat) :
    (Run.begin s).respond st r0 r1 = .next (s.answered st 0 r0 r1) := by
  simp [Run.respond, State.answered]

theorem Run.begin_raise (s : State) (e : Status) : (Run.begin s).raise e = .next (s.answered e 0 0 0) :=
  Run.begin_respond s e 0 0

/-- A response of an operation in progress as `answered`: `s` is the state but for the flags. -/
theorem Run.respond_answered (s : State) (w : BitVec 3) (st : Status) (r0 r1 : Nat) :
    (Run.mk { s with flags := s.flags ||| w } w).respond st r0 r1 = .next (s.answered st w r0 r1) := rfl

/-! ## Warnings -/

theorem truncWarn_of_le {wanted there : Nat} (h : wanted ≤ there) : truncWarn wanted there = 0 := by
  unfold truncWarn; rw [if_neg (by omega)]

theorem truncWarn_of_lt {wanted there : Nat} (h : there < wanted) : truncWarn wanted there = wTrunc := by
  unfold truncWarn; rw [if_pos h]

@[simp] theorem Run.warn_zero (o : Run) : o.warn 0 = o := by simp [Run.warn]

theorem Run.warn_warn (o : Run) (w w' : BitVec 3) : (o.warn w).warn w' = o.warn (w ||| w') := by
  simp [Run.warn, BitVec.or_assoc]

theorem Run.modify_modify (o : Run) (f g : State → State) : (o.modify f).modify g = o.modify fun s => g (f s) := rfl

theorem Run.begin_warn (s : State) (w : BitVec 3) : (Run.begin s).warn w = ⟨{ s with flags := s.flags ||| w }, w⟩ := by
  simp [Run.begin, Run.warn]

/-! ## Fields at the cursor -/

theorem Run.rdField_value (o : Run) (n : Nat) : (o.rdField n).1 = bitsValue (o.st.getBits o.st.cursor n) := rfl

theorem Run.rdField_run (o : Run) (n : Nat) :
    (o.rdField n).2 = (o.warn (truncWarn n o.st.avail)).modify (State.advance · n) := rfl

/-- PutBit does not look at the cursor. -/
theorem State.putBit_setCursor (s : State) (a : Nat) (b : Bool) (p : Nat) :
    (s.setCursor p).putBit a b = (s.putBit a b).setCursor p := by
  unfold State.putBit; rw [State.limit_setCursor]; split <;> rfl

theorem State.putBits_setCursor (s : State) (a : Nat) (bs : List Bool) (p : Nat) :
    (s.setCursor p).putBits a bs = (s.putBits a bs).setCursor p := by
  induction bs generalizing s a with
  | nil => rfl
  | cons b bs ih => simp only [State.putBits, State.putBit_setCursor, ih]

theorem State.putBits_advance (s : State) (a : Nat) (bs : List Bool) (m : Nat) :
    (s.advance m).putBits a bs = (s.putBits a bs).advance m := by
  unfold State.advance; rw [State.putBits_setCursor, State.cursor_putBits, State.limit_putBits]

/-- The bits `bs` written at the cursor and the cursor moved past them. -/
def State.wrote (s : State) (bs : List Bool) : State := (s.putBits s.cursor bs).advance bs.length

@[simp] theorem State.wrote_limit (s : State) (bs : List Bool) : (s.wrote bs).limit = s.limit := by simp [State.wrote]

/-! Bits written at the cursor write BUF and POS only. -/

@[simp] theorem State.wrote_cfg (s : State) (bs : List Bool) : (s.wrote bs).cfg = s.cfg := by simp [State.wrote]
@[simp] theorem State.wrote_len (s : State) (bs : List Bool) : (s.wrote bs).len = s.len := by simp [State.wrote]
@[simp] theorem State.wrote_kind (s : State) (bs : List Bool) : (s.wrote bs).kind = s.kind := by simp [State.wrote]
@[simp] theorem State.wrote_flags (s : State) (bs : List Bool) : (s.wrote bs).flags = s.flags := by simp [State.wrote]
@[simp] theorem State.wrote_err (s : State) (bs : List Bool) : (s.wrote bs).err = s.err := by simp [State.wrote]
@[simp] theorem State.wrote_tocn (s : State) (bs : List Bool) : (s.wrote bs).tocn = s.tocn := by simp [State.wrote]
@[simp] theorem State.wrote_tocbuf (s : State) (bs : List Bool) : (s.wrote bs).tocbuf = s.tocbuf := by simp [State.wrote]
@[simp] theorem State.wrote_exppay (s : State) (bs : List Bool) : (s.wrote bs).exppay = s.exppay := by simp [State.wrote]
@[simp] theorem State.wrote_rempay (s : State) (bs : List Bool) : (s.wrote bs).rempay = s.rempay := by simp [State.wrote]
@[simp] theorem State.wrote_skipcnt (s : State) (bs : List Bool) : (s.wrote bs).skipcnt = s.skipcnt := by simp [State.wrote]
@[simp] theorem State.wrote_din (s : State) (bs : List Bool) : (s.wrote bs).din = s.din := by simp [State.wrote]
@[simp] theorem State.wrote_dout (s : State) (bs : List Bool) : (s.wrote bs).dout = s.dout := by simp [State.wrote]
@[simp] theorem State.wrote_pin (s : State) (bs : List Bool) : (s.wrote bs).pin = s.pin := by simp [State.wrote]
@[simp] theorem State.wrote_pout (s : State) (bs : List Bool) : (s.wrote bs).pout = s.pout := by simp [State.wrote]
@[simp] theorem State.wrote_cmds (s : State) (bs : List Bool) : (s.wrote bs).cmds = s.cmds := by simp [State.wrote]
@[simp] theorem State.wrote_rsps (s : State) (bs : List Bool) : (s.wrote bs).rsps = s.rsps := by simp [State.wrote]
@[simp] theorem State.wrote_engReqs (s : State) (bs : List Bool) : (s.wrote bs).engReqs = s.engReqs := by simp [State.wrote]
@[simp] theorem State.wrote_decReps (s : State) (bs : List Bool) : (s.wrote bs).decReps = s.decReps := by simp [State.wrote]
@[simp] theorem State.wrote_encReps (s : State) (bs : List Bool) : (s.wrote bs).encReps = s.encReps := by simp [State.wrote]
@[simp] theorem State.wrote_epoch (s : State) (bs : List Bool) : (s.wrote bs).epoch = s.epoch := by simp [State.wrote]

theorem State.wrote_cursor (s : State) (bs : List Bool) (hc : s.cursor ≤ s.limit) (h : bs.length ≤ s.avail) :
    (s.wrote bs).cursor = s.cursor + bs.length := by
  simp only [State.wrote, State.cursor_advance, State.cursor_putBits, State.limit_putBits]
  unfold State.avail at h; omega

theorem State.wrote_avail (s : State) (bs : List Bool) : (s.wrote bs).avail = s.avail - bs.length := by
  simp only [State.wrote, State.avail_advance, State.avail_putBits]

theorem State.wrote_nil (s : State) (h : s.cursor ≤ s.limit) : s.wrote [] = s := by
  have : min (s.cursor + 0) s.limit = s.cursor := by omega
  simp only [State.wrote, State.putBits, State.advance, List.length_nil, this]
  simp [State.setCursor, State.cursor]

/-- Two runs of bits written one after the other are one run (R46, R136). -/
theorem State.wrote_wrote (s : State) (xs ys : List Bool) (hc : s.cursor ≤ s.limit) (h : xs.length ≤ s.avail) :
    (s.wrote xs).wrote ys = s.wrote (xs ++ ys) := by
  have hc := s.wrote_cursor xs hc h
  rw [State.wrote, hc]
  simp only [State.wrote, State.putBits_advance, State.advance_advance, State.putBits_append, List.length_append]

/-- A field written where there is room for it: no warning (R96). -/
theorem Run.wrField_room (o : Run) (n v : Nat) (h : n ≤ o.st.avail) :
    o.wrField n v = o.modify (State.wrote · (fieldBits n v)) := by
  simp only [Run.wrField, truncWarn_of_le h, Run.warn_zero]
  simp [Run.modify, State.wrote]

/-- Bytes written where there is room for them: no warning (R102). -/
theorem Run.wrBytes_room (o : Run) (src : List Byte) (h : 8 * src.length ≤ o.st.avail) (hc : o.st.cursor ≤ o.st.limit) :
    o.wrBytes src = o.modify (State.wrote · (bytesBits src)) := by
  have hw : o.st.wholeBytes src.length = src.length := by unfold State.wholeBytes; omega
  simp only [Run.wrBytes, hw, truncWarn_of_le (le_refl _), Run.warn_zero, List.take_length, Run.modify_modify]
  simp only [Run.modify, State.wrote, State.advance, State.cursor_putBits, State.limit_putBits, bytesBits_length]
  rw [show min (o.st.cursor + 8 * src.length) o.st.limit = o.st.cursor + 8 * src.length by unfold State.avail at h; omega]

/-! ## Streams and the codec engine port -/

/-- `DIN.pop(n)` answers exactly when DIN holds `n` bytes, and then takes the first `n` (R26). -/
theorem State.popDin_some {s s1 : State} {n : Nat} {src : List Byte} (h : s.popDin n = some (src, s1)) :
    n ≤ s.din.length ∧ src = s.din.take n ∧ s1 = { s with din := s.din.drop n } := by
  unfold State.popDin at h
  split at h
  · simp at h
  · simp only [Option.some.injEq, Prod.mk.injEq] at h
    exact ⟨by omega, h.1.symm, h.2.symm⟩

theorem State.popDin_enough (s : State) (n : Nat) (h : n ≤ s.din.length) :
    s.popDin n = some (s.din.take n, { s with din := s.din.drop n }) := by
  unfold State.popDin; rw [if_neg (by omega)]

theorem State.popDin_none (s : State) (n : Nat) : s.popDin n = none ↔ s.din.length < n := by
  unfold State.popDin; split <;> simp_all

theorem State.popPin_some {s s1 : State} {blk : PcmBlock} (h : s.popPin = some (blk, s1)) :
    ∃ rest, s.pin = blk :: rest ∧ s1 = { s with pin := rest } := by
  unfold State.popPin at h
  split at h
  · simp at h
  · simp only [Option.some.injEq, Prod.mk.injEq] at h
    exact ⟨_, by rw [‹s.pin = _›, h.1], h.2.symm⟩

theorem State.engDecode_some {s s1 : State} {record : List Byte} {blk : PcmBlock}
    (h : s.engDecode record = some (blk, s1)) :
    ∃ rest, s.decReps = blk :: rest ∧ s1 = { s with engReqs := s.engReqs ++ [.decode record], decReps := rest } := by
  unfold State.engDecode at h
  split at h
  · simp at h
  · simp only [Option.some.injEq, Prod.mk.injEq] at h
    exact ⟨_, by rw [‹s.decReps = _›, h.1], h.2.symm⟩

theorem State.engEncode_some {s s1 : State} {blk : PcmBlock} {mode : Word} {rep : EncReply}
    (h : s.engEncode blk mode = some (rep, s1)) :
    ∃ rest, s.encReps = rep :: rest ∧ s1 = { s with engReqs := s.engReqs ++ [.encode blk mode], encReps := rest } := by
  unfold State.engEncode at h
  split at h
  · simp at h
  · simp only [Option.some.injEq, Prod.mk.injEq] at h
    exact ⟨_, by rw [‹s.encReps = _›, h.1], h.2.symm⟩

end Sys2Proof.Machine
end

