-- ==== Sys2Proof/Laws/Toc.lean ====
section
/-! SUPPORT. What the shared procedures of the TOC codec do (42_toc_codec.md R131, R136): one entry read or written as one octet, a chain
read up to its last entry, a chain written as one run of bits. -/

namespace Sys2Proof.Machine

/-! ## Octets -/

theorem tocOctet_fields (f : Bool) (ft : BitVec 4) (q : Bool) :
    octetF (tocOctet f ft q) = f ∧ octetFt (tocOctet f ft q) = ft ∧ octetQ (tocOctet f ft q) = q := by
  revert f ft q; decide

@[simp] theorem octetF_tocOctet (f : Bool) (ft : BitVec 4) (q : Bool) : octetF (tocOctet f ft q) = f :=
  (tocOctet_fields f ft q).1
@[simp] theorem octetFt_tocOctet (f : Bool) (ft : BitVec 4) (q : Bool) : octetFt (tocOctet f ft q) = ft :=
  (tocOctet_fields f ft q).2.1
@[simp] theorem octetQ_tocOctet (f : Bool) (ft : BitVec 4) (q : Bool) : octetQ (tocOctet f ft q) = q :=
  (tocOctet_fields f ft q).2.2

/-- Normalising an octet clears its padding (R70). -/
theorem tocOctet_octet (b : Byte) : tocOctet (octetF b) (octetFt b) (octetQ b) = b &&& 0xFC := by
  revert b; decide

theorem octetF_and_FC (b : Byte) : octetF (b &&& 0xFC) = octetF b := by
  rw [← tocOctet_octet, octetF_tocOctet]
theorem octetFt_and_FC (b : Byte) : octetFt (b &&& 0xFC) = octetFt b := by
  rw [← tocOctet_octet, octetFt_tocOctet]
theorem octetQ_and_FC (b : Byte) : octetQ (b &&& 0xFC) = octetQ b := by
  rw [← tocOctet_octet, octetQ_tocOctet]

/-- A normalised octet is unchanged by normalising. -/
theorem tocOctet_and_FC (f : Bool) (ft : BitVec 4) (q : Bool) : tocOctet f ft q &&& 0xFC = tocOctet f ft q := by
  revert f ft q; decide

theorem tocOctet_low (f : Bool) (ft : BitVec 4) (q : Bool) : (tocOctet f ft q).extractLsb' 0 2 = 0 := by
  revert f ft q; decide

/-- The four fields of an octet, written one after the other, are its eight bits (R69). -/
theorem octet_fieldBits (f : Bool) (ft : BitVec 4) (q : Bool) :
    fieldBits 1 f.toNat ++ fieldBits 4 ft.toNat ++ fieldBits 1 q.toNat ++ fieldBits 2 0 = fieldBits 8 (tocOctet f ft q).toNat := by
  revert f ft q; decide

/-- The octet of the four fields read is the octet of the eight bits read, normalised (R131, R134). -/
theorem octet_of_bits (b0 b1 b2 b3 b4 b5 b6 b7 : Bool) :
    tocOctet (bitsValue [b0] == 1) (BitVec.ofNat 4 (bitsValue [b1, b2, b3, b4])) (bitsValue [b5] == 1) =
      BitVec.ofNat 8 (bitsValue [b0, b1, b2, b3, b4, b5, b6, b7]) &&& 0xFC := by
  revert b0 b1 b2 b3 b4 b5 b6 b7; decide

/-! ## One entry -/

/-- Reading from a saturated cursor reads the same zeros as reading on past the end (R43, R92). -/
theorem State.getBits_min_limit (s : State) (a n : Nat) : s.getBits (min a s.limit) n = s.getBits a n := by
  by_cases h : a ≤ s.limit
  · rw [Nat.min_eq_left h]
  · rw [Nat.min_eq_right (by omega), State.getBits_past _ _ _ (le_refl _), State.getBits_past _ _ _ (by omega)]

@[simp] theorem State.getBits_advance (s : State) (m a n : Nat) : (s.advance m).getBits a n = s.getBits a n :=
  State.getBits_congr rfl rfl rfl a n

@[simp] theorem Run.getBits_warn (o : Run) (w : BitVec 3) (a n : Nat) : (o.warn w).st.getBits a n = o.st.getBits a n :=
  State.getBits_congr rfl rfl rfl a n

@[simp] theorem Run.cursor_warn (o : Run) (w : BitVec 3) : (o.warn w).st.cursor = o.st.cursor := rfl
@[simp] theorem Run.limit_warn (o : Run) (w : BitVec 3) : (o.warn w).st.limit = o.st.limit := rfl
@[simp] theorem Run.avail_warn (o : Run) (w : BitVec 3) : (o.warn w).st.avail = o.st.avail := rfl

theorem truncWarn_or (m n a : Nat) : truncWarn m a ||| truncWarn n (a - m) = truncWarn (m + n) a := by
  by_cases h1 : a < m
  · rw [truncWarn_of_lt h1, truncWarn_of_lt (show a < m + n by omega)]
    unfold truncWarn; split <;> decide
  · rw [truncWarn_of_le (show m ≤ a by omega), show (0 : BitVec 3) ||| truncWarn n (a - m) = truncWarn n (a - m) by simp]
    unfold truncWarn
    by_cases h2 : a - m < n
    · rw [if_pos h2, if_pos (by omega)]
    · rw [if_neg h2, if_neg (by omega)]

/-- A warning and an advance do not look at each other, so a second pair of them merges with the first (R92, R236). -/
theorem Run.warn_advance (o : Run) (w w' : BitVec 3) (m n : Nat) :
    (((o.warn w).modify (State.advance · m)).warn w').modify (State.advance · n) =
      (o.warn (w ||| w')).modify (State.advance · (m + n)) := by
  rw [← Run.warn_warn]
  simp only [Run.modify, Run.warn, Run.mk.injEq, and_true]
  exact State.advance_advance { o.st with flags := o.st.flags ||| w ||| w' } m n

/-- Two fields read one after the other move the cursor and warn like one field of the sum of their widths. -/
theorem Run.rdField_rdField (o : Run) (m n : Nat) :
    ((o.rdField m).2.rdField n).2 = (o.warn (truncWarn (m + n) o.st.avail)).modify (State.advance · (m + n)) ∧
    ((o.rdField m).2.rdField n).1 = bitsValue (o.st.getBits (o.st.cursor + m) n) := by
  constructor
  · have h : ((o.warn (truncWarn m o.st.avail)).modify (State.advance · m)).st.avail = o.st.avail - m := by
      simp [State.avail_advance]
    rw [Run.rdField_run, Run.rdField_run, h, Run.warn_advance, truncWarn_or]
  · simp only [Run.rdField, Run.modify_st, State.getBits_advance, Run.getBits_warn, State.cursor_advance, Run.cursor_warn,
      Run.limit_warn, State.getBits_min_limit]

/-- One entry read (R131, R134): the octet at the cursor, zero-padded past the region and normalised; the cursor moves by 8. -/
theorem Run.rdEntry_spec (o : Run) :
    o.rdEntry = (o.st.octetAt o.st.cursor &&& 0xFC, (o.warn (truncWarn 8 o.st.avail)).modify (State.advance · 8)) := by
  have key : ∀ (x : Run) (m : Nat), x = (o.warn (truncWarn m o.st.avail)).modify (State.advance · m) → ∀ n,
      (x.rdField n).1 = bitsValue (o.st.getBits (o.st.cursor + m) n) ∧
      (x.rdField n).2 = (o.warn (truncWarn (m + n) o.st.avail)).modify (State.advance · (m + n)) := by
    intro x m hx n
    have := o.rdField_rdField m n
    rw [Run.rdField_run o m, ← hx] at this
    exact ⟨this.2, this.1⟩
  have h1 := key _ 1 (Run.rdField_run o 1) 4
  have h2 := key _ 5 h1.2 1
  have h3 := key _ 6 h2.2 2
  refine Prod.ext ?_ h3.2
  show tocOctet ((o.rdField 1).1 == 1) (BitVec.ofNat 4 ((o.rdField 1).2.rdField 4).1)
    ((((o.rdField 1).2.rdField 4).2.rdField 1).1 == 1) = _
  rw [h1.1, h2.1, Run.rdField_value]
  exact octet_of_bits _ _ _ _ _ _ (o.st.getBit (o.st.cursor + 6)) (o.st.getBit (o.st.cursor + 7))

/-- One entry written where there is room for it (R136). -/
theorem Run.wrEntry_room (o : Run) (f : Bool) (ft : BitVec 4) (q : Bool) (h : 8 ≤ o.st.avail) :
    o.wrEntry (tocOctet f ft q) = o.modify (State.wrote · (fieldBits 8 (tocOctet f ft q).toNat)) := by
  have hc : o.st.cursor ≤ o.st.limit := by unfold State.avail at h; omega
  have step : ∀ (x : State) (bs : List Bool) (n v : Nat), x = o.st.wrote bs → bs.length + n ≤ 8 →
      (Run.mk x o.wflags).wrField n v = Run.mk (o.st.wrote (bs ++ fieldBits n v)) o.wflags := by
    intro x bs n v hx hl
    subst hx
    rw [Run.wrField_room _ _ _ (by simp only [State.wrote_avail]; omega)]
    simp only [Run.modify]
    rw [State.wrote_wrote _ _ _ hc (by omega)]
  simp only [Run.wrEntry, octetF_tocOctet, octetFt_tocOctet, octetQ_tocOctet]
  rw [Run.wrField_room o _ _ (by omega)]
  simp only [Run.modify]
  rw [step _ _ _ _ rfl (by simp), step _ _ _ _ rfl (by simp), step _ _ _ _ rfl (by simp), octet_fieldBits]

/-! ## Chains -/

/-- A chain's octets are normalised, and F is 1 on all but the last (R136). -/
theorem chainOctets_length (l : List (BitVec 4 × Bool)) : (chainOctets l).length = l.length := by
  induction l with
  | nil => rfl
  | cons e es ih => cases es with
    | nil => rfl
    | cons e' es => simpa [chainOctets] using ih

theorem chainOctets_getElem (l : List (BitVec 4 × Bool)) (i : Nat) (h : i < l.length) :
    (chainOctets l)[i]? = some (tocOctet (decide (i + 1 < l.length)) l[i].1 l[i].2) := by
  induction l generalizing i with
  | nil => simp at h
  | cons e es ih => cases es with
    | nil => obtain rfl : i = 0 := by simp at h; omega
             simp [chainOctets]
    | cons e' es =>
      cases i with
      | zero => simp [chainOctets]
      | succ i => simpa [chainOctets] using ih i (by simpa using h)

/-- Octets written where there is room for them are one run of bits (R136). -/
theorem Run.wrEntries_room (es : List Byte) (o : Run) (hn : ∀ e ∈ es, e &&& 0xFC = e) (h : 8 * es.length ≤ o.st.avail)
    (hc : o.st.cursor ≤ o.st.limit) : es.foldl Run.wrEntry o = o.modify (State.wrote · (bytesBits es)) := by
  induction es generalizing o with
  | nil =>
    simp only [List.foldl_nil, bytesBits_nil, Run.modify, State.wrote_nil _ hc]
  | cons e es ih =>
    have he : e = tocOctet (octetF e) (octetFt e) (octetQ e) := by rw [tocOctet_octet, hn e List.mem_cons_self]
    simp only [List.length_cons] at h
    have hw : o.wrEntry e = o.modify (State.wrote · (fieldBits 8 e.toNat)) := by
      rw [he]; exact Run.wrEntry_room o _ _ _ (by omega)
    rw [List.foldl_cons, hw, ih _ (fun x hx => hn x (List.mem_cons_of_mem _ hx))]
    · simp only [Run.modify, bytesBits_cons]
      rw [State.wrote_wrote _ _ _ hc (by simp; omega)]
    · simp only [Run.modify_st, State.wrote_avail, fieldBits_length]; omega
    · simp only [Run.modify_st, State.wrote_limit]
      rw [State.wrote_cursor _ _ hc (by simp; omega), fieldBits_length]
      unfold State.avail at h; omega

theorem chainOctets_normalised (l : List (BitVec 4 × Bool)) : ∀ e ∈ chainOctets l, e &&& 0xFC = e := by
  intro e he
  obtain ⟨i, hi⟩ := List.mem_iff_getElem?.1 he
  have hl : i < l.length := by
    rw [← chainOctets_length]; exact (List.getElem?_eq_some_iff.1 hi).1
  rw [chainOctets_getElem l i hl] at hi
  rw [← Option.some.inj hi, tocOctet_and_FC]

/-- `TocWrite` with room (R136): the chain's octets at the cursor, the cursor past them, the TOC store holding them. -/
theorem Run.tocWrite_room (o : Run) (l : List (BitVec 4 × Bool)) (h : 8 * l.length ≤ o.st.avail) (hc : o.st.cursor ≤ o.st.limit) :
    o.tocWrite l = o.modify fun s => (s.wrote (bytesBits (chainOctets l))).setToc (chainOctets l) := by
  unfold Run.tocWrite
  rw [Run.wrEntries_room _ o (chainOctets_normalised l) (by rw [chainOctets_length]; exact h) hc]; rfl

/-! ## Reading a chain -/

/-- The octets read from bit address `a` on, zero-padded past the region and normalised. -/
def State.octetsFrom (s : State) (a k : Nat) : List Byte :=
  (List.range k).map fun i => s.octetAt (a + 8 * i) &&& 0xFC

theorem State.octetAt_congr {s t : State} (hb : t.buf = s.buf) (he : t.epoch = s.epoch) (hl : t.len = s.len) (a : Nat) :
    t.octetAt a = s.octetAt a := by
  unfold State.octetAt; rw [State.getBits_congr hb he hl]

theorem State.octetAt_min_limit (s : State) (a : Nat) : s.octetAt (min a s.limit) = s.octetAt a := by
  unfold State.octetAt; rw [State.getBits_min_limit]

/-- The run after `k` octets have been read from `o`. -/
def Run.readOctets (o : Run) (k : Nat) : Run := (o.warn (truncWarn (8 * k) o.st.avail)).modify (State.advance · (8 * k))

theorem Run.readOctets_octet (o : Run) (k : Nat) :
    (o.readOctets k).st.octetAt (o.readOctets k).st.cursor = o.st.octetAt (o.st.cursor + 8 * k) := by
  have hcur : (o.readOctets k).st.cursor = min (o.st.cursor + 8 * k) o.st.limit := by simp [Run.readOctets]
  rw [hcur]
  exact o.st.octetAt_min_limit _

theorem Run.rdEntry_readOctets (o : Run) (k : Nat) :
    (o.readOctets k).rdEntry = (o.st.octetAt (o.st.cursor + 8 * k) &&& 0xFC, o.readOctets (k + 1)) := by
  rw [Run.rdEntry_spec, Run.readOctets_octet]
  have h : (o.readOctets k).st.avail = o.st.avail - 8 * k := by simp [Run.readOctets, State.avail_advance]
  rw [h]
  simp only [Run.readOctets, Run.warn_advance, truncWarn_or, Nat.mul_succ]

/-- The loop of `TocRead` after `j` entries with F = 1, when the entry that ends the chain is `k - 1` (R131). -/
theorem Run.tocLoop_chain (o : Run) (j k room : Nat) (hj : j < k) (hk : k ≤ j + room)
    (hF : ∀ i, i < k - 1 → octetF (o.st.octetAt (o.st.cursor + 8 * i)) = true)
    (hL : octetF (o.st.octetAt (o.st.cursor + 8 * (k - 1))) = false) :
    (o.readOctets j).tocLoop (o.st.octetsFrom o.st.cursor j) room = (.chain (o.st.octetsFrom o.st.cursor k), o.readOctets k) := by
  induction room generalizing j with
  | zero => omega
  | succ room ih =>
    have hs : o.st.octetsFrom o.st.cursor j ++ [o.st.octetAt (o.st.cursor + 8 * j) &&& 0xFC] =
        o.st.octetsFrom o.st.cursor (j + 1) := by simp [State.octetsFrom, List.range_succ]
    simp only [Run.tocLoop, Run.rdEntry_readOctets, octetF_and_FC, hs]
    by_cases h : j = k - 1
    · rw [h, hL, show k - 1 + 1 = k by omega]; rfl
    · rw [hF j (by omega), if_pos rfl]; exact ih (j + 1) (by omega) (by omega)

/-- The loop of `TocRead` when every entry under the cap has F = 1 (R131, R239). -/
theorem Run.tocLoop_malformed (o : Run) (j room : Nat)
    (hF : ∀ i, i < j + room → octetF (o.st.octetAt (o.st.cursor + 8 * i)) = true) :
    (o.readOctets j).tocLoop (o.st.octetsFrom o.st.cursor j) room = (.malformed, o.readOctets (j + room)) := by
  induction room generalizing j with
  | zero => rfl
  | succ room ih =>
    have hs : o.st.octetsFrom o.st.cursor j ++ [o.st.octetAt (o.st.cursor + 8 * j) &&& 0xFC] =
        o.st.octetsFrom o.st.cursor (j + 1) := by simp [State.octetsFrom, List.range_succ]
    simp only [Run.tocLoop, Run.rdEntry_readOctets, octetF_and_FC, hs]
    rw [hF j (by omega), if_pos rfl, ih (j + 1) (fun i hi => hF i (by omega))]
    congr 2; omega

theorem Run.readOctets_zero (o : Run) (hc : o.st.cursor ≤ o.st.limit) : o.readOctets 0 = o := by
  have h : o.st.advance 0 = o.st := by
    have : min (o.st.cursor + 0) o.st.limit = o.st.cursor := by omega
    simp only [State.advance, this]; simp [State.setCursor, State.cursor]
  show (o.warn (truncWarn 0 o.st.avail)).modify (State.advance · 0) = o
  rw [truncWarn_of_le (by omega), Run.warn_zero]
  simp only [Run.modify, h]

/-- Everything `TocRead` can do (R131): no whole octet, a chain whose first entry with F = 0 is entry `k - 1`, or no such entry under the
cap. -/
theorem Run.tocRead_noData (o : Run) (h : o.st.avail < 8) : o.tocRead = (.noData, o) := by
  unfold Run.tocRead; rw [if_pos h]

theorem Run.tocRead_chain (o : Run) (k : Nat) (h : 8 ≤ o.st.avail) (h1 : 1 ≤ k) (hk : k ≤ Config.tocCap)
    (hF : ∀ i, i < k - 1 → octetF (o.st.octetAt (o.st.cursor + 8 * i)) = true)
    (hL : octetF (o.st.octetAt (o.st.cursor + 8 * (k - 1))) = false) :
    o.tocRead = (.chain (o.st.octetsFrom o.st.cursor k), o.readOctets k) := by
  have hc : o.st.cursor ≤ o.st.limit := by unfold State.avail at h; omega
  unfold Run.tocRead
  rw [if_neg (by omega)]
  have := o.tocLoop_chain 0 k Config.tocCap (by omega) (by omega) hF hL
  rwa [Run.readOctets_zero o hc] at this

theorem Run.tocRead_malformed (o : Run) (h : 8 ≤ o.st.avail)
    (hF : ∀ i, i < Config.tocCap → octetF (o.st.octetAt (o.st.cursor + 8 * i)) = true) :
    o.tocRead = (.malformed, o.readOctets Config.tocCap) := by
  have hc : o.st.cursor ≤ o.st.limit := by unfold State.avail at h; omega
  unfold Run.tocRead
  rw [if_neg (by omega)]
  have := o.tocLoop_malformed 0 Config.tocCap (fun i hi => hF i (by omega))
  rwa [Run.readOctets_zero o hc] at this

/-- The three cases of `TocRead` are all there are. -/
theorem State.toc_cases (s : State) :
    s.avail < 8 ∨
    (8 ≤ s.avail ∧ ∃ k, 1 ≤ k ∧ k ≤ Config.tocCap ∧ (∀ i, i < k - 1 → octetF (s.octetAt (s.cursor + 8 * i)) = true) ∧
      octetF (s.octetAt (s.cursor + 8 * (k - 1))) = false) ∨
    (8 ≤ s.avail ∧ ∀ i, i < Config.tocCap → octetF (s.octetAt (s.cursor + 8 * i)) = true) := by
  by_cases h8 : s.avail < 8
  · exact .inl h8
  by_cases hall : ∀ i, i < Config.tocCap → octetF (s.octetAt (s.cursor + 8 * i)) = true
  · exact .inr (.inr ⟨by omega, hall⟩)
  · right; left
    simp only [not_forall, Bool.not_eq_true] at hall
    obtain ⟨i, hi, hf⟩ := hall
    have hex : ∃ i, i < Config.tocCap ∧ octetF (s.octetAt (s.cursor + 8 * i)) = false := ⟨i, hi, hf⟩
    refine ⟨by omega, Nat.find hex + 1, by omega, (Nat.find_spec hex).1, fun j hj => ?_, by simpa using (Nat.find_spec hex).2⟩
    have hlt : j < Nat.find hex := by omega
    have := Nat.find_min hex hlt
    have hb : j < Config.tocCap := lt_trans hlt (Nat.find_spec hex).1
    simpa [hb] using this

end Sys2Proof.Machine
end

