-- ==== Sys2Proof/Laws/Octets.lean ====
section
/-! SUPPORT. Octets in BUF: the TOC store as a chain, bytes that stand at a bit address, and bytes written at the cursor. -/

namespace Sys2Proof.Machine

/-- The TOC store after `setToc` holds the chain (R19, R20). -/
theorem State.setToc_tocIs (s : State) (ents : List Byte) (h : ents.length ≤ Config.tocCap) : (s.setToc ents).tocIs ents := by
  constructor
  · simp only [State.setToc, BitVec.toNat_ofNat]; exact Nat.mod_eq_of_lt (by unfold Config.tocCap at h; omega)
  · intro i hi
    simp only [State.setToc, State.tocEntry, Vector.toList_mk, List.getD_eq_getElem?_getD, List.getElem?_take, if_pos hi]
    by_cases hl : i < ents.length
    · rw [List.getElem?_append_left hl]
    · rw [List.getElem?_append_right (by omega), List.getElem?_replicate, List.getElem?_eq_none (by omega : ents.length ≤ i)]
      split <;> rfl

/-- A store that holds a well-terminated chain of normalised octets meets the invariant (R32). -/
theorem State.tocOk_of_tocIs {s : State} {ents : List Byte} (h : s.tocIs ents) (hl : ents.length ≤ Config.tocCap)
    (hn : ∀ e ∈ ents, e &&& 0xFC = e) (hF : ∀ i, i + 1 < ents.length → octetF (ents.getD i 0) = true)
    (hL : ∀ i, i + 1 = ents.length → octetF (ents.getD i 0) = false) : s.tocOk := by
  obtain ⟨hc, he⟩ := h
  refine ⟨by omega, fun i hi => ⟨fun h => ?_, fun h => ?_, fun h => ?_, fun h => ?_⟩⟩
  · rw [he i hi, List.getD_eq_getElem?_getD, List.getElem?_eq_getElem (by omega), Option.getD_some,
      ← hn _ (List.getElem_mem (by omega)), ← tocOctet_octet]
    exact tocOctet_low _ _ _
  · rw [he i hi]; exact hF i (by omega)
  · rw [he i hi]; exact hL i (by omega)
  · rw [he i hi, List.getD_eq_getElem?_getD, List.getElem?_eq_none (by omega)]; rfl

/-- The octet at a bit address, bit by bit (R42, R45). -/
theorem State.octetAt_getLsbD (s : State) (a : Nat) {j : Nat} (h : j < 8) :
    (s.octetAt a).getLsbD (7 - j) = s.getBit (a + j) := by
  unfold State.octetAt
  rw [BitVec.getLsbD_ofNat, bitsValue_testBit]
  simp only [State.getBits_length]
  rw [dif_pos (by omega), State.getBits_getElem, show 8 - 1 - (7 - j) = j by omega]
  simp [show 7 - j < 8 by omega]

/-- The bits of the octet at a bit address are the eight bits there. -/
theorem State.fieldBits_octetAt (s : State) (a : Nat) : fieldBits 8 (s.octetAt a).toNat = s.getBits a 8 := by
  have h1 := fieldBits_bitsValue (s.getBits a 8)
  have h2 := bitsValue_lt (s.getBits a 8)
  simp only [State.getBits_length] at h1 h2
  rw [State.octetAt, BitVec.toNat_ofNat, Nat.mod_eq_of_lt h2, h1]

/-- Octets read one after the other are one run of bits (R46). -/
theorem State.bytesBits_octets (s : State) (a k : Nat) :
    bytesBits ((List.range k).map fun i => s.octetAt (a + 8 * i)) = s.getBits a (8 * k) := by
  induction k with
  | zero => rfl
  | succ k ih =>
    rw [List.range_succ, List.map_append, bytesBits_append, ih, Nat.mul_succ, State.getBits_add, List.map_cons, List.map_nil,
      bytesBits_cons, bytesBits_nil, List.append_nil, State.fieldBits_octetAt]

/-- A region that holds bytes at a bit address gives them back octet by octet. -/
theorem State.octets_of_holdsAt {s : State} {a : Nat} {bs : List Byte} (h : s.holdsAt a bs) :
    ((List.range bs.length).map fun i => s.octetAt (a + 8 * i)) = bs := by
  apply bytesBits_injective
  rw [State.bytesBits_octets, h.2]

theorem State.octetAt_of_holdsAt {s : State} {a i : Nat} {bs : List Byte} (h : s.holdsAt a bs) (hi : i < bs.length) :
    s.octetAt (a + 8 * i) = bs.getD i 0 := by
  have := congrArg (fun l => l.getD i 0) (State.octets_of_holdsAt h)
  simpa [List.getD_eq_getElem?_getD, hi] using this

theorem State.holdsAt_append {s : State} {a : Nat} {xs ys : List Byte} :
    s.holdsAt a (xs ++ ys) ↔ s.holdsAt a xs ∧ s.holdsAt (a + 8 * xs.length) ys := by
  unfold State.holdsAt
  rw [bytesBits_append, List.length_append, Nat.mul_add, State.getBits_add]
  constructor
  · rintro ⟨h, he⟩
    have := List.append_inj he (by simp)
    exact ⟨⟨by omega, this.1⟩, by omega, this.2⟩
  · rintro ⟨⟨_, h1⟩, h2, h3⟩
    exact ⟨by omega, by rw [h1, h3]⟩

theorem State.holdsAt_congr {s t : State} (hb : t.buf = s.buf) (he : t.epoch = s.epoch) (hl : t.len = s.len) (a : Nat)
    (bs : List Byte) : t.holdsAt a bs ↔ s.holdsAt a bs := by
  unfold State.holdsAt; rw [State.getBits_congr hb he hl, State.limit_congr hl]


/-- Bytes written as one run of bits stand there, and every other bit is as before (R44, R51). -/
theorem State.wrote_holdsAt (s : State) (bs : List Byte) (hc : s.cursor ≤ s.limit) (h : 8 * bs.length ≤ s.avail) :
    (s.wrote (bytesBits bs)).holdsAt s.cursor bs := by
  refine ⟨?_, ?_⟩
  · rw [State.wrote_limit]; unfold State.avail at h; omega
  · have := s.getBits_putBits_same s.cursor (bytesBits bs) (by rw [bytesBits_length]; unfold State.avail at h; omega)
    rw [bytesBits_length] at this
    exact this

theorem State.wrote_bufBit (s : State) (bs : List Bool) {a : Nat} (h : a < s.cursor ∨ s.cursor + bs.length ≤ a) :
    (s.wrote bs).bufBit a = s.bufBit a := by
  show (s.putBits s.cursor bs).bufBit a = _
  rw [State.bufBit_putBits, if_neg (by omega)]

theorem State.wrote_bufByte (s : State) (bs : List Bool) {k : Nat} (h : 8 * k + 8 ≤ s.cursor ∨ s.cursor + bs.length ≤ 8 * k) :
    (s.wrote bs).bufByte k = s.bufByte k :=
  State.bufByte_ext fun j hj => s.wrote_bufBit bs (by omega)

/-- Bits written at the cursor change BUF and POS only. -/
theorem State.wrote_eq (s : State) (bs : List Bool) : s.wrote bs = { s with buf := (s.wrote bs).buf, pos := (s.wrote bs).pos } := by
  apply State.ext <;> simp [State.wrote]

/-- The octets of a chain that stands at a bit address: F is 1 on all but the last (R71). -/
theorem State.octetF_of_holdsAt {s : State} {a : Nat} {l : List (BitVec 4 × Bool)} (h : s.holdsAt a (chainOctets l)) {i : Nat}
    (hi : i < l.length) : octetF (s.octetAt (a + 8 * i)) = decide (i + 1 < l.length) := by
  rw [State.octetAt_of_holdsAt h (by rw [chainOctets_length]; exact hi), List.getD_eq_getElem?_getD, chainOctets_getElem _ _ hi,
    Option.getD_some, octetF_tocOctet]

/-- Octets that stand at a bit address and are normalised are read as they are. -/
theorem State.octetsFrom_holdsAt {s : State} {a : Nat} {bs : List Byte} (h : s.holdsAt a bs) (hn : ∀ e ∈ bs, e &&& 0xFC = e) :
    s.octetsFrom a bs.length = bs := by
  have hm : s.octetsFrom a bs.length = ((List.range bs.length).map fun i => s.octetAt (a + 8 * i)).map (· &&& 0xFC) := by
    simp [State.octetsFrom]
  rw [hm, State.octets_of_holdsAt h]
  exact (List.map_congr_left hn).trans (List.map_id _)

/-- `TocRead` of a chain that stands at the cursor (R131, R133). -/
theorem Run.tocRead_holdsAt (o : Run) (l : List (BitVec 4 × Bool)) (h1 : 1 ≤ l.length) (h2 : l.length ≤ Config.tocCap)
    (h : o.st.holdsAt o.st.cursor (chainOctets l)) :
    o.tocRead = (.chain (chainOctets l), o.modify (State.advance · (8 * l.length))) := by
  have hav : 8 * l.length ≤ o.st.avail := by
    have := h.1; rw [chainOctets_length] at this; unfold State.avail; omega
  rw [Run.tocRead_chain o l.length (by omega) h1 h2
    (fun i hi => by rw [State.octetF_of_holdsAt h (by omega)]; exact decide_eq_true (by omega))
    (by rw [State.octetF_of_holdsAt h (by omega)]; exact decide_eq_false (by omega))]
  have ho := State.octetsFrom_holdsAt h (chainOctets_normalised l)
  rw [chainOctets_length] at ho
  rw [ho, Run.readOctets, truncWarn_of_le hav, Run.warn_zero]

end Sys2Proof.Machine
end

