-- ==== Sys2Proof/Laws/Group.lean ====
section
/-! SUPPORT. The loops of the group operations: what one byte copy, the frames of GRP.DEC and the blocks of GRP.ENC can do. -/

namespace Sys2Proof.Machine

/-! ## Byte copies -/

/-- A byte copy gives the octets from the cursor on, as many whole ones as remain (R99). -/
theorem Run.rdBytes_eq (o : Run) (len : Nat) :
    o.rdBytes len = ((List.range (o.st.wholeBytes len)).map (fun i => o.st.octetAt (o.st.cursor + 8 * i)),
      (o.warn (truncWarn len (o.st.wholeBytes len))).modify fun s => s.setCursor (s.cursor + 8 * o.st.wholeBytes len)) := rfl

theorem State.wholeBytes_room (s : State) (n : Nat) (h : 8 * n ≤ s.avail) : s.wholeBytes n = n := by
  unfold State.wholeBytes; omega

theorem State.wholeBytes_le (s : State) (n : Nat) : 8 * s.wholeBytes n ≤ s.avail ∧ s.wholeBytes n ≤ n := by
  unfold State.wholeBytes; omega

/-- A byte copy of bytes that stand at the cursor. -/
theorem Run.rdBytes_holdsAt (o : Run) (bs : List Byte) (h : o.st.holdsAt o.st.cursor bs) :
    o.rdBytes bs.length = (bs, o.modify fun s => s.setCursor (s.cursor + 8 * bs.length)) := by
  have hw := o.st.wholeBytes_room bs.length (by have := h.1; unfold State.avail; omega)
  rw [Run.rdBytes_eq, hw, State.octets_of_holdsAt h, truncWarn_of_le (le_refl _), Run.warn_zero]

theorem truncWarn_cases (wanted there : Nat) : truncWarn wanted there = 0 ∨ truncWarn wanted there = wTrunc := by
  unfold truncWarn; split
  · exact .inr rfl
  · exact .inl rfl

/-! ## The frames of GRP.DEC -/

/-- The codec engine's answer taken, in full (R29). -/
theorem State.engDecode_cons (s : State) (record : List Byte) (blk : PcmBlock) (rest : List PcmBlock) (h : s.decReps = blk :: rest) :
    s.engDecode record = some (blk, { s with engReqs := s.engReqs ++ [.decode record], decReps := rest }) := by
  unfold State.engDecode; rw [h]

theorem State.engEncode_cons (s : State) (block : PcmBlock) (mode : Word) (rep : EncReply) (rest : List EncReply)
    (h : s.encReps = rep :: rest) :
    s.engEncode block mode = some (rep, { s with engReqs := s.engReqs ++ [.encode block mode], encReps := rest }) := by
  unfold State.engEncode; rw [h]

/-- The frames of a well-formed group, whatever entries follow (R161): each is copied, sent and answered. -/
theorem grpDecFrames_wf (pos0 : Nat) (es more : List Byte) (frames : List Frame) (nblk : Nat) (o : Run) (blks rest : List PcmBlock)
    (he : List.Forall₂ (fun e f => octetFt e = f.ft ∧ octetQ e = f.q) es frames)
    (hw : ∀ f ∈ frames, f.wf o.st.cfg o.st.kind) (hh : o.st.holdsAt o.st.cursor (frames.flatMap Frame.payload))
    (hd : o.st.decReps = blks ++ rest) (hl : blks.length = frames.length) :
    grpDecFrames pos0 (es ++ more) nblk o = grpDecFrames pos0 more (nblk + frames.length)
      ⟨{ o.st with
          pos := BitVec.ofNat 32 (o.st.cursor + 8 * (frames.flatMap Frame.payload).length)
          pout := o.st.pout ++ blks, decReps := rest
          engReqs := o.st.engReqs ++ frames.map fun f : Frame => EngReq.decode (tocOctet false f.ft f.q :: f.payload) }, o.wflags⟩ := by
  induction he generalizing nblk o blks with
  | nil =>
    obtain rfl := List.length_eq_zero_iff.1 hl
    have hp : BitVec.ofNat 32 o.st.cursor = o.st.pos := by simp [State.cursor]
    simp only [List.nil_append] at hd
    simp [hp, ← hd]
  | @cons e f es frames hef hrest ih =>
    obtain ⟨blk, blks, rfl⟩ : ∃ b bs, blks = b :: bs := by
      cases blks with
      | nil => simp at hl
      | cons b bs => exact ⟨b, bs, rfl⟩
    obtain ⟨hv, hpay⟩ := hw f List.mem_cons_self
    rw [List.flatMap_cons] at hh
    obtain ⟨hh1, hh2⟩ := State.holdsAt_append.1 hh
    have hlim := o.st.limit_lt
    have hle := hh2.1
    simp only [List.cons_append, grpDecFrames, hef.1, hef.2]
    rw [if_neg (by simp [hv]), ← hpay, Run.rdBytes_holdsAt o _ hh1]
    simp only [Run.modify_st, Run.modify_wflags]
    rw [State.engDecode_cons _ _ blk (blks ++ rest) (by simpa using hd)]
    simp only [legacyRecord, Nat.sub_self, List.replicate_zero, List.append_nil]
    generalize hs : State.pushPout _ blk = s
    have hcur : s.cursor = o.st.cursor + 8 * f.payload.length := by
      rw [← hs]; exact State.cursor_setCursor o.st (by omega)
    rw [ih (nblk + 1) ⟨s, o.wflags⟩ blks]
    · congr 1
      · simp only [List.length_cons]; omega
      · congr 1
        simp only [hcur, List.flatMap_cons, List.length_append, Nat.mul_add, ← Nat.add_assoc]
        rw [← hs]
        apply State.ext <;> simp
    · intro g hg
      rw [← hs]
      exact hw g (List.mem_cons_of_mem _ hg)
    · simp only [hcur]
      refine (State.holdsAt_congr ?_ ?_ ?_ _ _).2 hh2 <;> rw [← hs] <;> rfl
    · rw [← hs]; rfl
    · simpa using hl

/-- The byte at index `j` of what a copy reads on from bit address `a` when `n` whole bytes remain: 0 past them (R168). -/
def State.tailByte (s : State) (a n j : Nat) : Byte := if j < n then s.octetAt (a + 8 * j) else 0

/-- The legacy records of the entries `es`, their payloads cut one after the other from index `off` of that tail (R167, R168). -/
def State.legacyRecords (s : State) (a n : Nat) : Nat → List Byte → List (List Byte)
  | _, [] => []
  | off, e :: es =>
    (tocOctet false (octetFt e) (octetQ e) ::
      (List.range (paylen s.cfg s.kind (octetFt e).toNat)).map fun j => s.tailByte a n (off + j)) ::
    State.legacyRecords s a n (off + paylen s.cfg s.kind (octetFt e).toNat) es

theorem State.legacyRecords_shift (s t : State) (a a' n n' off off' d : Nat) (es : List Byte) (hc : t.cfg = s.cfg) (hk : t.kind = s.kind)
    (hb : t.buf = s.buf) (he : t.epoch = s.epoch) (hl : t.len = s.len) (ho : off = d + off') (hd : d < n → a' = a + 8 * d) (hn : n' = n - d) :
    t.legacyRecords a' n' off' es = s.legacyRecords a n off es := by
  induction es generalizing off off' with
  | nil => rfl
  | cons e es ih =>
    simp only [State.legacyRecords, hc, hk]
    rw [ih (off + paylen s.cfg s.kind (octetFt e).toNat) (off' + paylen s.cfg s.kind (octetFt e).toNat) (by omega)]
    congr 2
    refine List.map_congr_left fun j _ => ?_
    unfold State.tailByte
    by_cases h : off + j < n
    · rw [if_pos h, if_pos (by omega), State.octetAt_congr hb he hl, hd (by omega)]
      congr 1; omega
    · rw [if_neg h, if_neg (by omega)]

theorem Run.rdBytes_completed (o : Run) (e : Byte) :
    legacyRecord (octetFt e) (octetQ e) (paylen o.st.cfg o.st.kind (octetFt e).toNat)
      (o.rdBytes (paylen o.st.cfg o.st.kind (octetFt e).toNat)).1 =
    tocOctet false (octetFt e) (octetQ e) ::
      (List.range (paylen o.st.cfg o.st.kind (octetFt e).toNat)).map fun j => o.st.tailByte o.st.cursor (o.st.avail / 8) j := by
  generalize paylen o.st.cfg o.st.kind (octetFt e).toNat = len
  unfold legacyRecord
  rw [Run.rdBytes_eq]
  congr 1
  apply List.ext_getElem
  · simp [State.wholeBytes]
  · intro i h1 h2
    simp only [List.length_map, List.length_range] at h2
    simp only [List.getElem_append, List.length_map, List.length_range, List.getElem_map, List.getElem_range,
      List.getElem_replicate, State.tailByte, State.wholeBytes]
    by_cases h : i < o.st.avail / 8
    · rw [dif_pos (by omega), if_pos h]
    · rw [dif_neg (by omega), if_neg h]

/-- The frames of GRP.DEC over a run of valid entries, whatever remains of the region and whatever entries follow (R161, R166 to R169). -/
theorem grpDecFrames_valid (pos0 : Nat) (es more : List Byte) (nblk : Nat) (o : Run) (blks rest : List PcmBlock)
    (hv : ∀ e ∈ es, validFt o.st.cfg o.st.kind (octetFt e).toNat = true) (hc : o.st.cursor ≤ o.st.limit)
    (hd : o.st.decReps = blks ++ rest) (hl : blks.length = es.length) :
    grpDecFrames pos0 (es ++ more) nblk o = grpDecFrames pos0 more (nblk + es.length)
      ⟨{ o.st with
          pos := BitVec.ofNat 32 (o.st.cursor + 8 * o.st.wholeBytes (expectedPay o.st.cfg o.st.kind es))
          flags := o.st.flags ||| truncWarn (expectedPay o.st.cfg o.st.kind es) (o.st.avail / 8)
          pout := o.st.pout ++ blks, decReps := rest
          engReqs := o.st.engReqs ++ (o.st.legacyRecords o.st.cursor (o.st.avail / 8) 0 es).map EngReq.decode },
        o.wflags ||| truncWarn (expectedPay o.st.cfg o.st.kind es) (o.st.avail / 8)⟩ := by
  induction es generalizing nblk o blks with
  | nil =>
    obtain rfl := List.length_eq_zero_iff.1 hl
    have hp : BitVec.ofNat 32 o.st.cursor = o.st.pos := by simp [State.cursor]
    simp only [List.nil_append] at hd
    simp [expectedPay, State.wholeBytes, truncWarn, hp, State.legacyRecords, ← hd]
  | cons e es ih =>
    obtain ⟨blk, blks, rfl⟩ : ∃ b bs, blks = b :: bs := by
      cases blks with
      | nil => simp at hl
      | cons b bs => exact ⟨b, bs, rfl⟩
    have hve := hv e List.mem_cons_self
    have hlim := o.st.limit_lt
    simp only [List.cons_append, grpDecFrames]
    rw [if_neg (by simp [hve]), Run.rdBytes_completed]
    rw [State.engDecode_cons _ _ blk (blks ++ rest) (by simpa [Run.rdBytes_eq] using hd)]
    simp only
    generalize hL : paylen o.st.cfg o.st.kind (octetFt e).toNat = len
    have hle := o.st.wholeBytes_le len
    generalize hs : State.pushPout _ blk = s
    have hpos : s.pos = BitVec.ofNat 32 (o.st.cursor + 8 * o.st.wholeBytes len) := by rw [← hs]; rfl
    have hcur : s.cursor = o.st.cursor + 8 * o.st.wholeBytes len := by
      unfold State.cursor at *; rw [hpos, BitVec.toNat_ofNat, Nat.mod_eq_of_lt]
      unfold State.avail State.cursor at hle; omega
    have hlen : s.len = o.st.len := by rw [← hs]; rfl
    have hlm : s.limit = o.st.limit := State.limit_congr hlen
    have hav : s.avail / 8 = o.st.avail / 8 - len := by
      unfold State.avail at *; rw [hlm, hcur]; unfold State.wholeBytes State.avail; omega
    have hcf : s.cfg = o.st.cfg := by rw [← hs]; rfl
    have hki : s.kind = o.st.kind := by rw [← hs]; rfl
    rw [ih (nblk + 1) _ blks (by intro g hg; simp only [hcf, hki]; exact hv g (List.mem_cons_of_mem _ hg))
      (by show s.cursor ≤ s.limit; unfold State.avail at hle; omega) (by rw [← hs]; rfl) (by simpa using hl)]
    have hexp : expectedPay o.st.cfg o.st.kind (e :: es) = len + expectedPay o.st.cfg o.st.kind es := by
      simp [expectedPay, hL]
    have hwb : s.cursor + 8 * s.wholeBytes (expectedPay o.st.cfg o.st.kind es) =
        o.st.cursor + 8 * o.st.wholeBytes (len + expectedPay o.st.cfg o.st.kind es) := by
      rw [hcur]; unfold State.wholeBytes; rw [hav]; omega
    have htr : truncWarn len (o.st.wholeBytes len) ||| truncWarn (expectedPay o.st.cfg o.st.kind es) (s.avail / 8) =
        truncWarn (len + expectedPay o.st.cfg o.st.kind es) (o.st.avail / 8) := by
      rw [hav]; unfold truncWarn State.wholeBytes
      split_ifs <;> first | rfl | (exfalso; omega)
    have hrec : s.legacyRecords s.cursor (s.avail / 8) 0 es =
        o.st.legacyRecords o.st.cursor (o.st.avail / 8) (0 + len) es := by
      refine State.legacyRecords_shift o.st s _ _ _ _ _ _ len es hcf hki ?_ ?_ hlen (by omega) ?_ hav
      · rw [← hs]; rfl
      · rw [← hs]; rfl
      · intro h; rw [hcur]; unfold State.wholeBytes; omega
    simp only [hcf, hki, hexp, hwb, hrec, State.legacyRecords, hL, List.map_cons, Nat.zero_add]
    congr 1
    · simp only [List.length_cons]; omega
    · rw [Run.mk.injEq]
      constructor
      · rw [← htr, ← BitVec.or_assoc, ← hs]
        apply State.ext <;> simp [Run.rdBytes_eq, State.pushPout]
      · rw [← htr, ← BitVec.or_assoc]; rfl
/-- The consistency check of GRP.DEC (R164): EXPPAY, REMPAY and the PLM warning. -/
theorem Run.payloadCheck_eq (o : Run) (ents : List Byte) (expected remaining : Nat)
    (he : expectedPay o.st.cfg o.st.kind ents = expected) (hr : o.st.avail / 8 = remaining) :
    o.payloadCheck ents = ⟨{ o.st with
        exppay := BitVec.ofNat 32 expected, rempay := BitVec.ofNat 32 remaining
        flags := o.st.flags ||| plmWarn expected remaining }, o.wflags ||| plmWarn expected remaining⟩ := by
  subst he hr; rfl

/-- The expected payload length of a chain of well-formed frames is the length of their payloads (R164). -/
theorem expectedPay_frames (c : Config) (k : Kind) (frames : List Frame) (hw : ∀ f ∈ frames, f.wf c k) :
    expectedPay c k (groupOctets frames) = (frames.map fun f => f.payload.length).sum := by
  have key : ∀ l : List (BitVec 4 × Bool), expectedPay c k (chainOctets l) = (l.map fun e => paylen c k e.1.toNat).sum := by
    intro l
    induction l with
    | nil => rfl
    | cons e es ih => cases es with
      | nil => simp [expectedPay, chainOctets]
      | cons e' es => simp only [chainOctets, expectedPay, List.map_cons, List.sum_cons, octetFt_tocOctet] at ih ⊢; rw [ih]
  unfold groupOctets
  rw [key, List.map_map]
  exact congrArg List.sum (List.map_congr_left fun f hf => (hw f hf).2.symm)

/-- The octets of a group carry its frames' types and quality bits. -/
theorem groupOctets_fields (frames : List Frame) :
    List.Forall₂ (fun e (f : Frame) => octetFt e = f.ft ∧ octetQ e = f.q) (groupOctets frames) frames := by
  unfold groupOctets
  induction frames with
  | nil => exact .nil
  | cons f fs ih => cases fs with
    | nil => simp [chainOctets]
    | cons g gs =>
      simp only [List.map_cons, chainOctets] at ih ⊢
      exact .cons ⟨by simp, by simp⟩ ih

theorem groupOctets_length (frames : List Frame) : (groupOctets frames).length = frames.length := by
  unfold groupOctets; rw [chainOctets_length, List.length_map]

/-- Everything the frames of GRP.DEC can do when they complete (R161, R166 to R169): the records sent and the blocks received in chain
order, one of each per frame, and nothing written but POS, the flags, ERR, POUT and the codec engine port. -/
theorem grpDecFrames_next {pos0 : Nat} {es : List Byte} {nblk : Nat} {o : Run} {t : State}
    (h : grpDecFrames pos0 es nblk o = .next t) :
    ∃ (records : List (List Byte)) (blks : List PcmBlock) (r : Rsp) (w : BitVec 3),
      t.engReqs = o.st.engReqs ++ records.map EngReq.decode ∧ t.pout = o.st.pout ++ blks ∧ o.st.decReps = blks ++ t.decReps ∧
      records.length = blks.length ∧ blks.length ≤ es.length ∧ t.rsps = o.st.rsps ++ [r] ∧
      r.r0 = BitVec.ofNat 32 (nblk + blks.length) ∧ (r.status = .ok ∨ r.status = .invalidFrameType) ∧
      (w = 0 ∨ w = wTrunc) ∧ t.flags = o.st.flags ||| w ∧ r.wflags = o.wflags ||| w ∧
      t.err = errAfter o.st.err r.status ∧ (o.st.cursor ≤ o.st.limit → t.cursor ≤ o.st.limit) ∧
      (∀ record ∈ records, record.length = flen o.st.cfg o.st.kind (octetFt (record.headD 0)).toNat ∧
        validFt o.st.cfg o.st.kind (octetFt (record.headD 0)).toNat = true ∧ octetF (record.headD 0) = false) ∧
      t = { o.st with
        pos := t.pos, flags := t.flags, err := t.err, pout := t.pout, rsps := t.rsps, engReqs := t.engReqs, decReps := t.decReps } := by
  induction es generalizing nblk o with
  | nil =>
    simp only [grpDecFrames, Run.respond, Host.Outcome.next.injEq] at h
    subst h
    refine ⟨[], [], _, 0, by simp, by simp, by simp, rfl, by simp, rfl, rfl, .inl rfl, .inl rfl, by simp, by simp, rfl, id, by simp, rfl⟩
  | cons e es ih =>
    simp only [grpDecFrames] at h
    split at h
    · simp only [Run.respond, Host.Outcome.next.injEq] at h
      subst h
      refine ⟨[], [], _, 0, by simp, by simp, by simp, rfl, by simp, rfl, rfl, .inr rfl, .inl rfl, by simp, by simp, rfl, id, by simp, ?_⟩
      simp
    · rename_i hv
      simp only [Bool.not_eq_false] at hv
      split at h
      · simp at h
      · rename_i blk s1 hs1
        obtain ⟨rest, hd, rfl⟩ := State.engDecode_some hs1
        obtain ⟨records, blks, r, w, h1, h2, h3, h4, h5, h6, h7, h8, h9, h10, h11, h12, h13, h14, h15⟩ := ih h
        have hw := (truncWarn_cases (paylen o.st.cfg o.st.kind (octetFt e).toNat)
          (o.st.wholeBytes (paylen o.st.cfg o.st.kind (octetFt e).toNat)))
        have hle := o.st.wholeBytes_le (paylen o.st.cfg o.st.kind (octetFt e).toNat)
        have hlim := o.st.limit_lt
        simp only [Run.rdBytes_eq, Run.modify_wflags, Run.warn_wflags] at h1 h2 h3 h10 h11 h13 h14 h15 hd
        refine ⟨legacyRecord (octetFt e) (octetQ e) (paylen o.st.cfg o.st.kind (octetFt e).toNat)
            (o.rdBytes (paylen o.st.cfg o.st.kind (octetFt e).toNat)).1 :: records, blk :: blks, r,
          truncWarn (paylen o.st.cfg o.st.kind (octetFt e).toNat) (o.st.wholeBytes (paylen o.st.cfg o.st.kind (octetFt e).toNat)) ||| w,
          ?_, ?_, ?_, by simp [h4], by simpa using h5, h6, ?_, h8, ?_, ?_, ?_, h12, ?_, ?_, ?_⟩
        · simpa [Run.rdBytes_eq] using h1
        · simpa using h2
        · have : o.st.decReps = blk :: rest := hd
          have h3' : rest = blks ++ t.decReps := h3
          rw [this, h3']; rfl
        · rw [h7]; congr 1; simp only [List.length_cons]; omega
        · rcases hw with hw | hw <;> rcases h9 with h9 | h9 <;> rw [hw, h9] <;> decide
        · rw [h10, ← BitVec.or_assoc]; rfl
        · rw [h11, ← BitVec.or_assoc]
        · intro hc
          unfold State.avail at hle
          have hs := State.cursor_setCursor o.st
            (p := o.st.cursor + 8 * o.st.wholeBytes (paylen o.st.cfg o.st.kind (octetFt e).toNat)) (by omega)
          refine h13 (le_of_eq_of_le hs ?_)
          show o.st.cursor + _ ≤ o.st.limit
          omega
        · intro record hr
          rcases List.mem_cons.1 hr with rfl | hr
          · have hpl : paylen o.st.cfg o.st.kind (octetFt e).toNat = flen o.st.cfg o.st.kind (octetFt e).toNat - 1 := by
              unfold paylen; rw [if_pos hv]
            have hge : 1 ≤ flen o.st.cfg o.st.kind (octetFt e).toNat := by
              simp only [validFt, decide_eq_true_eq] at hv; exact hv.2.2
            simp only [legacyRecord, List.headD_cons, octetFt_tocOctet, octetF_tocOctet, hv, and_true, List.length_cons,
              List.length_append, List.length_replicate, Run.rdBytes_eq, List.length_map, List.length_range]
            omega
          · exact h14 record hr
        · rw [h15]; rfl

/-! ## The blocks of GRP.ENC -/

/-- The blocks of GRP.ENC when PIN and the codec engine hold what it takes and the replies keep the contract (R181, R183, R184). -/
theorem grpEncBlocks_contract (mode : Word) (n : Nat) (frames : List Frame) (o : Run) (blks pin' : List PcmBlock)
    (reps enc' : List EncReply) (hp : o.st.pin = blks ++ pin') (hn : blks.length = n) (he : o.st.encReps = reps ++ enc')
    (hm : reps.length = n) (hc : ∀ r ∈ reps, r.contract o.st.cfg o.st.kind) (w : BitVec 3)
    (hw : w = if (reps.filter fun r => plausible o.st.cfg o.st.kind r.size).length = n then 0 else wEef) :
    grpEncBlocks mode n frames o = .next
      (frames ++ (reps.filter fun r => plausible o.st.cfg o.st.kind r.size).map (fun r => frameOf o.st.cfg r.record),
        ⟨{ o.st with
            flags := o.st.flags ||| w
            skipcnt := o.st.skipcnt + BitVec.ofNat 32 (n - (reps.filter fun r => plausible o.st.cfg o.st.kind r.size).length)
            pin := pin', encReps := enc', engReqs := o.st.engReqs ++ blks.map (fun b => EngReq.encode b mode) }, o.wflags ||| w⟩) := by
  induction n generalizing frames o blks reps w with
  | zero =>
    obtain rfl := List.length_eq_zero_iff.1 hn
    obtain rfl := List.length_eq_zero_iff.1 hm
    simp only [List.nil_append] at hp he
    subst hw
    simp [grpEncBlocks, ← hp, ← he]
  | succ n ih =>
    obtain ⟨blk, blks, rfl⟩ : ∃ b bs, blks = b :: bs := by
      cases blks with
      | nil => simp at hn
      | cons b bs => exact ⟨b, bs, rfl⟩
    obtain ⟨rep, reps, rfl⟩ : ∃ b bs, reps = b :: bs := by
      cases reps with
      | nil => simp at hm
      | cons b bs => exact ⟨b, bs, rfl⟩
    simp only [List.length_cons, Nat.add_right_cancel_iff] at hn hm
    have hpop : o.st.popPin = some (blk, { o.st with pin := blks ++ pin' }) := by
      unfold State.popPin; rw [hp]; rfl
    have henc := State.engEncode_cons { o.st with pin := blks ++ pin' } blk mode rep (reps ++ enc') (by simpa using he)
    have hfl : (reps.filter fun r => plausible o.st.cfg o.st.kind r.size).length ≤ n := by
      rw [← hm]; exact List.length_filter_le _ _
    simp only [grpEncBlocks, hpop, henc]
    cases hpl : plausible o.st.cfg o.st.kind rep.size with
    | false =>
      have hf : ((rep :: reps).filter fun r => plausible o.st.cfg o.st.kind r.size) =
          reps.filter fun r => plausible o.st.cfg o.st.kind r.size := by
        rw [List.filter_cons_of_neg (by simp [hpl])]
      rw [hf, if_neg (by omega)] at hw
      simp only [if_true, hf]
      generalize hx : Run.skipBlock _ = x
      have h1 : x.st = { o.st with
          flags := o.st.flags ||| wEef, skipcnt := o.st.skipcnt + 1, pin := blks ++ pin', encReps := reps ++ enc'
          engReqs := o.st.engReqs ++ [EngReq.encode blk mode] } := by rw [← hx]; rfl
      have h2 : x.wflags = o.wflags ||| wEef := by rw [← hx]; rfl
      have hk : x.st.kind = o.st.kind := by rw [h1]
      have hg : x.st.cfg = o.st.cfg := by rw [h1]
      have := ih frames x blks reps (by rw [h1]) hn (by rw [h1]) hm
        (fun r hr => by rw [hk, hg]; exact hc r (List.mem_cons_of_mem _ hr)) _ rfl
      rw [this, hk, hg, h2, h1]
      simp only [Host.Outcome.next.injEq, Prod.mk.injEq, true_and, Run.mk.injEq]
      generalize (reps.filter fun r => plausible o.st.cfg o.st.kind r.size).length = m at *
      have hw2 : wEef ||| (if m = n then 0 else wEef) = w := by rw [hw]; split <;> decide
      refine ⟨?_, by rw [BitVec.or_assoc, hw2]⟩
      have hsk : o.st.skipcnt + 1 + BitVec.ofNat 32 (n - m) = o.st.skipcnt + BitVec.ofNat 32 (n + 1 - m) := by
        rw [show n + 1 - m = 1 + (n - m) by omega, BitVec.ofNat_add, BitVec.add_assoc]; rfl
      rw [BitVec.or_assoc, hw2, hsk]
      simp
    | true =>
      have hlen := hc rep List.mem_cons_self hpl
      have hf : ((rep :: reps).filter fun r => plausible o.st.cfg o.st.kind r.size) =
          rep :: reps.filter fun r => plausible o.st.cfg o.st.kind r.size := List.filter_cons_of_pos hpl
      rw [if_neg (by simp), if_neg (by simp [hlen])]
      generalize hx : Run.mk _ o.wflags = x
      have h1 : x.st = { o.st with
          pin := blks ++ pin', encReps := reps ++ enc', engReqs := o.st.engReqs ++ [EngReq.encode blk mode] } := by rw [← hx]
      have h2 : x.wflags = o.wflags := by rw [← hx]
      have hk : x.st.kind = o.st.kind := by rw [h1]
      have hg : x.st.cfg = o.st.cfg := by rw [h1]
      have := ih (frames ++ [frameOf o.st.cfg rep.record]) x blks reps (by rw [h1]) hn (by rw [h1]) hm
        (fun r hr => by rw [hk, hg]; exact hc r (List.mem_cons_of_mem _ hr)) _ rfl
      rw [this, hk, hg, h2, h1]
      rw [hf] at hw ⊢
      simp only [List.length_cons, Nat.add_right_cancel_iff] at hw
      simp [hw]

/-- Everything the blocks of GRP.ENC can do when they complete (R181, R183, R184): `k` of the `n` blocks are skipped, and nothing is written
but PIN, the codec engine port, SKIPCNT and the EEF flag. -/
theorem grpEncBlocks_next {mode : Word} {n : Nat} {frames fs : List Frame} {o o' : Run}
    (h : grpEncBlocks mode n frames o = .next (fs, o')) :
    ∃ (k : Nat) (w : BitVec 3), k ≤ n ∧ (w = 0 ∨ w = wEef) ∧ fs.length = frames.length + (n - k) ∧
      o'.wflags = o.wflags ||| w ∧
      o'.st = { o.st with
        flags := o.st.flags ||| w, skipcnt := o.st.skipcnt + BitVec.ofNat 32 k
        pin := o'.st.pin, encReps := o'.st.encReps, engReqs := o'.st.engReqs } := by
  induction n generalizing frames o with
  | zero =>
    simp only [grpEncBlocks, Host.Outcome.next.injEq, Prod.mk.injEq] at h
    obtain ⟨rfl, rfl⟩ := h
    exact ⟨0, 0, le_refl _, .inl rfl, rfl, by simp, by simp⟩
  | succ n ih =>
    simp only [grpEncBlocks] at h
    split at h
    · simp at h
    rename_i blk s1 h1
    obtain ⟨pin', hp, rfl⟩ := State.popPin_some h1
    split at h
    · simp at h
    rename_i rep s2 h2
    obtain ⟨enc', he, rfl⟩ := State.engEncode_some h2
    split at h
    · obtain ⟨k, w, h3, h4, h5, h6, h7⟩ := ih h
      refine ⟨k + 1, wEef ||| w, by omega, ?_, by omega, ?_, ?_⟩
      · rcases h4 with rfl | rfl <;> exact .inr (by decide)
      · rw [h6, ← BitVec.or_assoc]; rfl
      · rw [h7]
        have hsk : o.st.skipcnt + 1 + BitVec.ofNat 32 k = o.st.skipcnt + BitVec.ofNat 32 (k + 1) := by
          rw [show k + 1 = 1 + k by omega, BitVec.ofNat_add, BitVec.add_assoc]; rfl
        simp only [Run.skipBlock, Run.warn, Run.modify, BitVec.or_assoc, hsk]
    · split at h
      · simp at h
      · obtain ⟨k, w, h3, h4, h5, h6, h7⟩ := ih h
        refine ⟨k, w, by omega, h4, ?_, h6, h7⟩
        simp only [List.length_append, List.length_cons, List.length_nil] at h5; omega

/-- The blocks of GRP.ENC take exactly `n` blocks off PIN, `n` replies off the codec engine, and request each block with the mode, in
order (R181, R190 (f)). -/
theorem grpEncBlocks_taken {mode : Word} {n : Nat} {frames fs : List Frame} {o o' : Run}
    (h : grpEncBlocks mode n frames o = .next (fs, o')) :
    ∃ (blks : List PcmBlock) (reps : List EncReply), o.st.pin = blks ++ o'.st.pin ∧ blks.length = n ∧
      o.st.encReps = reps ++ o'.st.encReps ∧ reps.length = n ∧
      o'.st.engReqs = o.st.engReqs ++ blks.map fun b => EngReq.encode b mode := by
  induction n generalizing frames o with
  | zero =>
    simp only [grpEncBlocks, Host.Outcome.next.injEq, Prod.mk.injEq] at h
    obtain ⟨rfl, rfl⟩ := h
    exact ⟨[], [], rfl, rfl, rfl, rfl, by simp⟩
  | succ n ih =>
    simp only [grpEncBlocks] at h
    split at h
    · simp at h
    rename_i blk s1 h1
    obtain ⟨pin', hp, rfl⟩ := State.popPin_some h1
    split at h
    · simp at h
    rename_i rep s2 h2
    obtain ⟨enc', he, rfl⟩ := State.engEncode_some h2
    have key : ∀ {frames : List Frame} {x : Run}, x.st.pin = pin' → x.st.encReps = enc' →
        x.st.engReqs = o.st.engReqs ++ [.encode blk mode] → grpEncBlocks mode n frames x = .next (fs, o') →
        ∃ (blks : List PcmBlock) (reps : List EncReply), o.st.pin = blks ++ o'.st.pin ∧ blks.length = n + 1 ∧
          o.st.encReps = reps ++ o'.st.encReps ∧ reps.length = n + 1 ∧
          o'.st.engReqs = o.st.engReqs ++ blks.map fun b => EngReq.encode b mode := by
      intro frames x hx1 hx2 hx3 hx
      obtain ⟨blks, reps, g1, g2, g3, g4, g5⟩ := ih hx
      have he' : o.st.encReps = rep :: enc' := he
      exact ⟨blk :: blks, rep :: reps, by rw [hp, ← hx1, g1]; rfl, by simp [g2], by rw [he', ← hx2, g3]; rfl, by simp [g4],
        by rw [g5, hx3]; simp⟩
    split at h
    · exact key rfl rfl rfl h
    · split at h
      · simp at h
      · exact key rfl rfl rfl h

/-! ## The group written by GRP.ENC -/

/-- PutBit does not look at the TOC store. -/
theorem State.putBits_setToc (s : State) (a : Nat) (bs : List Bool) (ents : List Byte) :
    (s.setToc ents).putBits a bs = (s.putBits a bs).setToc ents := by
  induction bs generalizing s a with
  | nil => rfl
  | cons b bs ih =>
    have h : (s.setToc ents).putBit a b = (s.putBit a b).setToc ents := by
      unfold State.putBit; rw [show (s.setToc ents).limit = s.limit from rfl]; split <;> rfl
    simp only [State.putBits, h, ih]

theorem State.wrote_setToc (s : State) (bs : List Bool) (ents : List Byte) :
    (s.setToc ents).wrote bs = (s.wrote bs).setToc ents := by
  unfold State.wrote
  rw [show (s.setToc ents).cursor = s.cursor from rfl, State.putBits_setToc]; rfl

/-- Payloads written one after the other where there is room are one run of bits (R75, R181). -/
theorem Run.wrPayloads_room (frames : List Frame) (o : Run) (hc : o.st.cursor ≤ o.st.limit)
    (h : 8 * (frames.flatMap Frame.payload).length ≤ o.st.avail) :
    frames.foldl (fun r f => r.wrBytes f.payload) o = o.modify (State.wrote · (bytesBits (frames.flatMap Frame.payload))) := by
  induction frames generalizing o with
  | nil => simp only [List.foldl_nil, List.flatMap_nil, bytesBits_nil, Run.modify, State.wrote_nil _ hc]
  | cons f frames ih =>
    rw [List.flatMap_cons, List.length_append] at h
    rw [List.foldl_cons, Run.wrBytes_room _ _ (by omega) hc, ih]
    · simp only [Run.modify, List.flatMap_cons, bytesBits_append]
      rw [State.wrote_wrote _ _ _ hc (by rw [bytesBits_length]; omega)]
    · simp only [Run.modify_st, State.wrote_limit]
      rw [State.wrote_cursor _ _ hc (by rw [bytesBits_length]; omega), bytesBits_length]
      unfold State.avail at h; omega
    · simp only [Run.modify_st, State.wrote_avail, bytesBits_length]; omega

theorem groupBytes_length (frames : List Frame) : (groupBytes frames).length = groupLength frames := by
  unfold groupBytes groupOctets groupLength
  rw [List.length_append, chainOctets_length, List.length_map, List.length_flatMap]

/-- The group written where there is room for it (R181, R189). -/
theorem grpEncEmit_room (frames : List Frame) (o : Run) (hf : frames ≠ []) (h : 8 * (groupBytes frames).length ≤ o.st.avail) :
    grpEncEmit frames o =
      (o.modify fun s => (s.wrote (bytesBits (groupBytes frames))).setToc (groupOctets frames)).respond
        .ok frames.length (groupBytes frames).length := by
  have hpos : 0 < frames.length := List.length_pos_iff.2 hf
  have hlen : (groupBytes frames).length = frames.length + (frames.flatMap Frame.payload).length := by
    unfold groupBytes groupOctets; rw [List.length_append, chainOctets_length, List.length_map]
  have hc : o.st.cursor ≤ o.st.limit := by unfold State.avail at h; omega
  have hol : (bytesBits (groupOctets frames)).length = 8 * frames.length := by
    rw [bytesBits_length]; unfold groupOctets; rw [chainOctets_length, List.length_map]
  unfold grpEncEmit
  rw [if_neg hf, ← groupBytes_length, if_neg (by omega)]
  congr 1
  rw [Run.tocWrite_room _ _ (by rw [List.length_map]; omega) hc]
  change List.foldl _ (o.modify fun s => (s.wrote (bytesBits (groupOctets frames))).setToc (groupOctets frames)) _ = _
  rw [Run.wrPayloads_room]
  · simp only [Run.modify, State.wrote_setToc, Run.mk.injEq, and_true]
    rw [State.wrote_wrote _ _ _ hc (by omega), groupBytes, bytesBits_append]
  · show (o.st.wrote _).cursor ≤ (o.st.wrote _).limit
    rw [State.wrote_cursor _ _ hc (by omega), State.wrote_limit]
    unfold State.avail at h; omega
  · show _ ≤ (o.st.wrote _).avail
    rw [State.wrote_avail]; omega

/-- What the emission of GRP.ENC can write: BUF, POS, the TOC store, ERR and the response (R181, R187 to R189). -/
theorem grpEncEmit_next {frames : List Frame} {o : Run} {t : State} (h : grpEncEmit frames o = .next t) :
    t = { o.st with buf := t.buf, pos := t.pos, tocn := t.tocn, tocbuf := t.tocbuf, err := t.err, rsps := t.rsps } := by
  by_cases hf : frames = []
  · unfold grpEncEmit at h
    rw [if_pos hf] at h
    simp only [Run.respond, Run.modify, Host.Outcome.next.injEq] at h
    subst h; rfl
  by_cases hr : 8 * (groupBytes frames).length ≤ o.st.avail
  · rw [grpEncEmit_room frames o hf hr] at h
    simp only [Run.respond, Run.modify, Host.Outcome.next.injEq] at h
    subst h
    rw [State.wrote_eq]; rfl
  · unfold grpEncEmit at h
    rw [if_neg hf, ← groupBytes_length, if_pos (by omega)] at h
    simp only [Run.raise, Run.respond, Host.Outcome.next.injEq] at h
    subst h; rfl

end Sys2Proof.Machine
end

