-- ==== Sys2Proof/Laws/Host.lean ====
section
/-! SUPPORT. What the host's actions can do (48_host_sequences.md R225). -/

namespace Sys2Proof.Machine

@[simp] theorem State.supply_din (s : State) (din : List Byte) (pin : List HostBlock) : (s.supply din pin).din = s.din ++ din := rfl
@[simp] theorem State.supply_pin (s : State) (din : List Byte) (pin : List HostBlock) : (s.supply din pin).pin = s.pin ++ pin.map HostBlock.samples := rfl
@[simp] theorem State.supply_cmds (s : State) (din : List Byte) (pin : List HostBlock) : (s.supply din pin).cmds = s.cmds := rfl
@[simp] theorem State.supply_rsps (s : State) (din : List Byte) (pin : List HostBlock) : (s.supply din pin).rsps = s.rsps := rfl
@[simp] theorem State.supply_kind (s : State) (din : List Byte) (pin : List HostBlock) : (s.supply din pin).kind = s.kind := rfl
@[simp] theorem State.supply_cfg (s : State) (din : List Byte) (pin : List HostBlock) : (s.supply din pin).cfg = s.cfg := rfl

theorem operationOf_ok {w : CmdWord} {i : Instr} (h : decode w = .ok i) : operationOf w = i := by unfold operationOf; rw [h]

theorem operationOf_error {w : CmdWord} {e : DecodeError} (h : decode w = .error e) : operationOf w = .nop := by
  unfold operationOf; rw [h]

/-- A codec engine serves a stream exactly when it is the stream's own, of its kind if that is known. -/
theorem CodecLife.serves_iff {c : CodecLife} {k : Kind} :
    c.serves k = true ↔ (∃ k', c = .live k') ∧ (k ≠ .unknown → c = .live k) := by
  cases c <;> simp [CodecLife.serves, or_iff_not_imp_left]

/-- No duty is broken before the operation exactly when every one is kept (R225). -/
theorem Session.breach_none (h : Session) (i : Instr) (pin : List HostBlock) :
    h.breach i pin = none ↔
      h.st.cmds = [] ∧ h.st.rsps = [] ∧ (fixesKind i = true → h.kindFixed = false) ∧ (needsKind i = true → h.kindFixed = true) ∧
      h.st.din.length = dinTaken h.st.cfg i ∧ h.st.pin.length = pinTaken h.st.kind i ∧
      (∀ blk ∈ h.st.pin, blk.length = nsamp h.st.kind) ∧
      (∀ blk ∈ pin, blk.rate = sampleRate h.st.kind) ∧ (usesCodec i = true → h.codec.serves h.st.kind = true) := by
  unfold Session.breach
  constructor
  · intro hb
    split_ifs at hb with h1 h2 h3 h4 h5 h6 h7 h8
    simp only [not_or, not_not] at h1
    refine ⟨h1.1, h1.2, fun hf => ?_, fun hn => ?_, not_not.1 h4, not_not.1 h5, fun blk hm => ?_, fun blk hm => ?_, fun hu => ?_⟩
    · exact Bool.eq_false_iff.2 fun hx => h2 ⟨hf, hx⟩
    · by_contra hx; exact h3 ⟨hn, Bool.eq_false_iff.2 hx⟩
    · by_contra hx; exact h6 ⟨blk, hm, hx⟩
    · by_contra hx; exact h7 ⟨blk, hm, hx⟩
    · by_contra hx; exact h8 ⟨hu, Bool.eq_false_iff.2 hx⟩
  · rintro ⟨h1, h1', h2, h3, h4, h5, h6, h7, h8⟩
    rw [if_neg (by simp [h1, h1']), if_neg fun h => by simp [h2 h.1] at h, if_neg fun h => by simp [h3 h.1] at h, if_neg (not_not.2 h4),
      if_neg (not_not.2 h5), if_neg fun ⟨blk, hm, hx⟩ => hx (h6 blk hm), if_neg fun ⟨blk, hm, hx⟩ => hx (h7 blk hm),
      if_neg fun h => by simp [h8 h.1] at h]

/-- A step on an engine with an empty command channel to which one word is presented (R25). -/
theorem step_presentCommand (s : State) (w : CmdWord) (h : s.cmds = []) :
    step (s.presentCommand w) = match decode w with
      | .ok i => exec i s
      | .error _ => execIllegal s := by
  have hf : fetch (s.presentCommand w) = some (w, s) := by
    unfold fetch State.presentCommand
    simp only [h, List.nil_append, Option.some.injEq, Prod.mk.injEq, true_and]
    rw [← h]
  cases hd : decode w <;> simp only [step, hf, hd]

/-- Everything a presented command that has a meaning can do (R225). -/
theorem Session.issue_next {h h' : Session} {w : CmdWord} {din : List Byte} {pin : List HostBlock} :
    h.issue w din pin = .next h' ↔
      Session.breach { h with st := h.st.supply din pin } (operationOf w) pin = none ∧
      step ((h.st.supply din pin).presentCommand w) = .next h'.st ∧ (∀ r ∈ h'.st.rsps, r.status ≠ .noSpace) ∧
      h'.codec = h.codec ∧ h'.kindFixed = (h.kindFixed || fixesKind (operationOf w)) ∧ h'.outBytes = h.outBytes ∧
      h'.outBlocks = h.outBlocks := by
  unfold Session.issue
  cases Session.breach { h with st := h.st.supply din pin } (operationOf w) pin with
  | some b => simp
  | none =>
    cases step ((h.st.supply din pin).presentCommand w) with
    | fault r => simp
    | refused r => simp
    | next t =>
      simp only [true_and, Host.Outcome.next.injEq]
      split_ifs with hr
      · obtain ⟨r, hm, hs⟩ := hr
        constructor
        · intro hx; cases hx
        · rintro ⟨rfl, hn, -⟩; exact absurd hs (hn r hm)
      · have hn : ∀ r ∈ t.rsps, r.status ≠ .noSpace := fun r hm hs => hr ⟨r, hm, hs⟩
        simp only [Host.Outcome.next.injEq]
        constructor
        · rintro rfl; exact ⟨rfl, hn, rfl, rfl, rfl, rfl⟩
        · rintro ⟨rfl, -, hc, hk, hb, hp⟩
          cases h'; simp_all

theorem CodecLife.exists_eq_false {c : CodecLife} : c.exists = false ↔ c = .absent ∨ c = .destroyed := by cases c <;> simp [CodecLife.exists]

/-- Draining moves what was pushed first from the channel to the host (R27, R226). -/
@[simp] theorem Session.drainBytes_pushedBytes (h : Session) (n : Nat) : (h.drainBytes n).pushedBytes = h.pushedBytes := by
  simp [Session.pushedBytes, Session.drainBytes, State.drainDout]
@[simp] theorem Session.drainBytes_pushedBlocks (h : Session) (n : Nat) : (h.drainBytes n).pushedBlocks = h.pushedBlocks := rfl
@[simp] theorem Session.drainBlocks_pushedBytes (h : Session) (n : Nat) : (h.drainBlocks n).pushedBytes = h.pushedBytes := rfl
@[simp] theorem Session.drainBlocks_pushedBlocks (h : Session) (n : Nat) : (h.drainBlocks n).pushedBlocks = h.pushedBlocks := by
  simp [Session.pushedBlocks, Session.drainBlocks, State.drainPout]

/-- A reset empties the channels and takes nothing out of what the run has pushed (R226, R262). -/
@[simp] theorem Session.resetEngine_pushedBytes (h : Session) : h.resetEngine.pushedBytes = h.pushedBytes := List.append_nil _
@[simp] theorem Session.resetEngine_pushedBlocks (h : Session) : h.resetEngine.pushedBlocks = h.pushedBlocks := List.append_nil _

/-- Everything the end of a run can give (R224, R226). -/
theorem Session.finish_next {h : Session} {res : RunResult} :
    h.finish = .next res ↔ h.codec.exists = false ∧ ⟨h.st, h.pushedBytes, h.pushedBlocks⟩ = res := by
  unfold Session.finish
  split_ifs with hc <;> simp [hc]

end Sys2Proof.Machine
end

