-- ==== Sys2Proof/Laws/PerInstr.lean ====
section
/-! SUPPORT. One lemma per operation: its encoding carries its opcode of 30_encoding.md R62. -/

namespace Sys2Proof.Laws

/-- The encoding of an operation has the operation's opcode in bits 71..64 (R61, R62). -/
def OpcodePlaced.Statement (i : Instr) : Prop := cmdOp (encode i) = opcode i

theorem OpcodePlaced.bcAttach (len pos0 : Word) : Statement (.bcAttach len pos0) := cmdOp_mkCmd _ _ _
theorem OpcodePlaced.bcRd (n : Word) : Statement (.bcRd n) := cmdOp_mkCmd _ _ _
theorem OpcodePlaced.bcWr (n value : Word) : Statement (.bcWr n value) := cmdOp_mkCmd _ _ _
theorem OpcodePlaced.bcRdb (len : Word) : Statement (.bcRdb len) := cmdOp_mkCmd _ _ _
theorem OpcodePlaced.bcWrb (len : Word) : Statement (.bcWrb len) := cmdOp_mkCmd _ _ _
theorem OpcodePlaced.hsDetect : Statement .hsDetect := cmdOp_mkCmd _ _ _
theorem OpcodePlaced.kindSet (kind : Word) : Statement (.kindSet kind) := cmdOp_mkCmd _ _ _
theorem OpcodePlaced.flLookup (ft : Word) : Statement (.flLookup ft) := cmdOp_mkCmd _ _ _
theorem OpcodePlaced.tocDec : Statement .tocDec := cmdOp_mkCmd _ _ _
theorem OpcodePlaced.tocEnc (k : Word) : Statement (.tocEnc k) := cmdOp_mkCmd _ _ _
theorem OpcodePlaced.grpDec : Statement .grpDec := cmdOp_mkCmd _ _ _
theorem OpcodePlaced.grpEnc (nblk mode : Word) : Statement (.grpEnc nblk mode) := cmdOp_mkCmd _ _ _
theorem OpcodePlaced.csrRd (idx : Word) : Statement (.csrRd idx) := cmdOp_mkCmd _ _ _
theorem OpcodePlaced.flgClr (mask : Word) : Statement (.flgClr mask) := cmdOp_mkCmd _ _ _
theorem OpcodePlaced.hmLd (addr len : Word) : Statement (.hmLd addr len) := cmdOp_mkCmd _ _ _
theorem OpcodePlaced.hmSt (addr len : Word) : Statement (.hmSt addr len) := cmdOp_mkCmd _ _ _
theorem OpcodePlaced.nop : Statement .nop := cmdOp_mkCmd _ _ _

end Sys2Proof.Laws
end

