-- ==== Sys2Proof/Laws/Region.lean ====
section
/-! SUPPORT. The attached region and the rest of BUF (20_memory.md R41): what reads cannot see and what writes cannot reach. -/

namespace Sys2Proof.Machine

/-- Two states that agree below `n` and differ in BUF at most, as one state and another BUF. -/
theorem State.sameBelow_iff {n : Nat} {s t : State} :
    State.sameBelow n s t ↔ t = { s with buf := t.buf } ∧ ∀ a, a < n → s.bufByte a = t.bufByte a := by
  have key : ({ s with buf := [] } : State) = { t with buf := [] } ↔ t = { s with buf := t.buf } := by
    constructor
    · intro h
      have h' := congrArg (fun x : State => ({ x with buf := t.buf } : State)) h
      exact h'.symm
    · intro h; rw [h]
  exact and_congr_left fun _ => key

/-- Past the region PutBit writes nothing; inside it, no byte past the region (R41, R44). -/
theorem State.lookup_putBit_past (s : State) (a : Nat) (b : Bool) {x : Nat} (h : s.len.toNat ≤ x) :
    Memory.lookup (s.putBit a b).buf x = Memory.lookup s.buf x := by
  unfold State.putBit
  split
  · rename_i ha
    rw [State.memWrite_buf, Memory.storeAll, Memory.storeAll, Memory.lookup_store, if_neg (by unfold State.limit at ha; omega)]
  · rfl

theorem State.lookup_putBits_past (s : State) (a : Nat) (bs : List Bool) {x : Nat} (h : s.len.toNat ≤ x) :
    Memory.lookup (s.putBits a bs).buf x = Memory.lookup s.buf x := by
  induction bs generalizing s a with
  | nil => rfl
  | cons b bs ih => rw [State.putBits, ih _ _ (by rw [State.putBit_len]; exact h), State.lookup_putBit_past _ _ _ h]

/-- A bit read inside the region depends on the bytes of the region only (R41, R43). -/
theorem State.getBits_sameBelow {s t : State} (h : State.sameBelow s.len.toNat s t) (a n : Nat) : t.getBits a n = s.getBits a n := by
  obtain ⟨ht, hb⟩ := State.sameBelow_iff.1 h
  have hl : t.limit = s.limit := State.limit_congr (by rw [ht])
  unfold State.getBits
  refine List.map_congr_left fun i _ => ?_
  unfold State.getBit
  rw [hl]
  split
  · unfold State.bufBit; rw [hb _ (by unfold State.limit at *; omega)]
  · rfl

/-- Bits put in two states that agree on the region leave two states that agree on the region (R41, R44). -/
theorem State.putBits_sameBelow {s t : State} (h : State.sameBelow s.len.toNat s t) (a : Nat) (bs : List Bool) :
    State.sameBelow s.len.toNat (s.putBits a bs) (t.putBits a bs) := by
  obtain ⟨ht, hb⟩ := State.sameBelow_iff.1 h
  have hl : t.limit = s.limit := State.limit_congr (by rw [ht])
  refine State.sameBelow_iff.2 ⟨?_, fun k hk => State.bufByte_ext fun j hj => ?_⟩
  · apply State.ext <;> simp <;> rw [ht]
  · rw [State.bufBit_putBits, State.bufBit_putBits, hl]
    split
    · rfl
    · unfold State.bufBit; rw [hb _ (by omega)]

end Sys2Proof.Machine
end

