-- ==== Sys2Proof/Tests/Slice0.lean ====
section
/-! SUPPORT. The author's own tests: words written out from the encodings of 30_encoding.md, the ill-formed operands WellFormed refuses,
vectors of 95_test_vectors.md (each test names its vector), and for every statement with hypotheses a witness that meets them. -/

namespace Sys2Proof.Tests

open Sys2Proof Sys2Proof.Machine

/-! ## Small states -/

/-- There is a next state and it meets `p`. -/
def after (o : Host.Outcome State Fault Refusal) (p : State → Bool) : Bool :=
  match o with
  | .next t => p t
  | _ => false

/-- BUF holding `bs` from byte 0 on. -/
def cells (bs : List Byte) : List Host.Cell := (List.range bs.length).zip bs

/-- The state after reset with `bs` in BUF and attached, and the cursor at `p`. -/
def region (bs : List Byte) (p : Nat) : State :=
  { State.reset with buf := cells bs, len := BitVec.ofNat 29 bs.length, pos := BitVec.ofNat 32 p }

/-- `n` bytes counted up from `a`: the payloads of the vectors. -/
def ramp (a n : Nat) : List Byte := (List.range n).map fun i => BitVec.ofNat 8 (a + i)

/-- A small configuration: 16 bytes of BUF. -/
def smallConfig : Config := { defaultConfig with bufmax := 16 }

/-! ## Decode: one word per operation, written out from the table of R62 -/

theorem test_decode_bc_attach : decode 0x01_00000046_00000030 = .ok (.bcAttach 70 48) := by decide
theorem test_decode_bc_rd : decode 0x02_00000020_FFFFFFFF = .ok (.bcRd 32) := by decide
theorem test_decode_bc_wr : decode 0x03_0000000D_00000ABC = .ok (.bcWr 13 0xABC) := by decide
theorem test_decode_bc_rdb : decode 0x04_00000002_00000000 = .ok (.bcRdb 2) := by decide
theorem test_decode_bc_wrb : decode 0x05_00000006_00000001 = .ok (.bcWrb 6) := by decide
theorem test_decode_hs_detect : decode 0x08_FFFFFFFF_FFFFFFFF = .ok .hsDetect := by decide
theorem test_decode_kind_set : decode 0x09_00000002_00000000 = .ok (.kindSet 2) := by decide
theorem test_decode_fl_lookup : decode 0x0A_00000007_00000000 = .ok (.flLookup 7) := by decide
theorem test_decode_toc_dec : decode 0x10_00000000_00000000 = .ok .tocDec := by decide
theorem test_decode_toc_enc : decode 0x11_00000002_00000000 = .ok (.tocEnc 2) := by decide
theorem test_decode_grp_dec : decode 0x18_00000000_00000000 = .ok .grpDec := by decide
theorem test_decode_grp_enc : decode 0x19_00000003_00000007 = .ok (.grpEnc 3 7) := by decide
theorem test_decode_csr_rd : decode 0x20_00000023_00000000 = .ok (.csrRd 35) := by decide
theorem test_decode_flg_clr : decode 0x21_00000100_00000000 = .ok (.flgClr 0x100) := by decide
theorem test_decode_hm_ld : decode 0x28_00000000_00000004 = .ok (.hmLd 0 4) := by decide
theorem test_decode_hm_st : decode 0x29_FFFFFFFF_00000002 = .ok (.hmSt 0xFFFFFFFF 2) := by decide
theorem test_decode_nop : decode 0x30_DEADBEEF_12345678 = .ok .nop := by decide

/-- V70, V71: reserved opcodes are no operation. -/
theorem test_decode_reserved :
    decode 0x00_00000000_00000000 = .error (.illegalOpcode 0x00) ∧ decode 0x06_00000001_00000000 = .error (.illegalOpcode 0x06) ∧
    decode 0x0B_00000000_00000000 = .error (.illegalOpcode 0x0B) ∧ decode 0x1A_00000000_00000000 = .error (.illegalOpcode 0x1A) ∧
    decode 0x31_00000000_00000000 = .error (.illegalOpcode 0x31) ∧ decode 0xFF_FFFFFFFF_FFFFFFFF = .error (.illegalOpcode 0xFF) := by
  decide

/-- The table's numbering: bit 0 is the least significant bit of the 72-bit word (R61). -/
theorem test_decode_table_word : decodeTableWord 72 (0x19 * 2 ^ 64 + 3 * 2 ^ 32 + 7) = some (.grpEnc 3 7) ∧ decodeTableWord 72 0 = none := by
  decide

/-! ## WellFormed: an ill-formed operation for each check, which the check refuses, and the boundary beside it -/

theorem test_wf_bc_attach : (Instr.bcAttach 17 0).wellFormed smallConfig = false ∧ (Instr.bcAttach 16 129).wellFormed smallConfig = false ∧
    (Instr.bcAttach 16 128).wellFormed smallConfig = true := by decide
theorem test_wf_bits : (Instr.bcRd 0).wellFormed smallConfig = false ∧ (Instr.bcRd 33).wellFormed smallConfig = false ∧
    (Instr.bcWr 0 1).wellFormed smallConfig = false ∧ (Instr.bcWr 33 1).wellFormed smallConfig = false ∧
    (Instr.bcRd 32).wellFormed smallConfig = true ∧ (Instr.bcWr 1 2).wellFormed smallConfig = true := by decide
theorem test_wf_bytes : (Instr.bcRdb 17).wellFormed smallConfig = false ∧ (Instr.bcWrb 17).wellFormed smallConfig = false ∧
    (Instr.bcRdb 16).wellFormed smallConfig = true ∧ (Instr.bcWrb 16).wellFormed smallConfig = true := by decide
theorem test_wf_kind_set : (Instr.kindSet 0).wellFormed smallConfig = false ∧ (Instr.kindSet 3).wellFormed smallConfig = false ∧
    (Instr.kindSet 2).wellFormed smallConfig = true := by decide
theorem test_wf_fl_lookup : (Instr.flLookup 16).wellFormed smallConfig = false ∧ (Instr.flLookup 15).wellFormed smallConfig = true := by decide
theorem test_wf_chain : (Instr.tocEnc 0).wellFormed smallConfig = false ∧ (Instr.tocEnc 21).wellFormed smallConfig = false ∧
    (Instr.tocEnc 20).wellFormed smallConfig = true ∧ (Instr.grpEnc 21 0).wellFormed smallConfig = false ∧
    (Instr.grpEnc 0 0).wellFormed smallConfig = true := by decide
theorem test_wf_csr_rd : (Instr.csrRd 10).wellFormed smallConfig = false ∧ (Instr.csrRd 15).wellFormed smallConfig = false ∧
    (Instr.csrRd 36).wellFormed smallConfig = false ∧ (Instr.csrRd 35).wellFormed smallConfig = true := by decide
theorem test_wf_host_memory : (Instr.hmLd 15 2).wellFormed smallConfig = false ∧ (Instr.hmSt 0xFFFFFFFF 2).wellFormed smallConfig = false ∧
    (Instr.hmSt 16 0).wellFormed smallConfig = true := by decide
theorem test_config_wf : defaultConfig.wf ∧ smallConfig.wf ∧ ¬ ({ defaultConfig with bufmax := 0 } : Config).wf ∧
    ¬ ({ defaultConfig with ftmaxNB := 6 } : Config).wf := by decide

/-! ## One step on a small state, expected results from 95_test_vectors.md -/

/-- V19c. -/
theorem test_bc_attach_refuses : after (exec (.bcAttach 4 33) (region [1, 2] 3))
    (fun t => t.rsps = [⟨.badOperand, 0, 0, 0⟩] ∧ t.len = 2 ∧ t.pos = 3 ∧ t.err = 0x11) = true := by decide
/-- V4. -/
theorem test_bc_rd_pads_low : after (exec (.bcRd 32) (region [0xA5, 0x3C, 0xF0, 0x0F] 20))
    (fun t => t.rsps = [⟨.ok, 1, 0x00F00000, 12⟩] ∧ t.pos = 32 ∧ t.flags = 1) = true := by decide
/-- V6. -/
theorem test_bc_rd_unaligned : after (exec (.bcRd 32) (region [0xA5, 0x3C, 0xF0, 0x0F] 5))
    (fun t => t.rsps = [⟨.ok, 1, 0xA79E01E0, 27⟩] ∧ t.pos = 32) = true := by decide
/-- V8. -/
theorem test_bc_wr_unaligned : after (exec (.bcWr 13 0xABC) (region [0xFF, 0xFF, 0xFF, 0xFF] 3))
    (fun t => t.rsps = [⟨.ok, 0, 0, 13⟩] ∧ t.pos = 16 ∧ t.buf = cells [0xEA, 0xBC, 0xFF, 0xFF]) = true := by decide
/-- V15. -/
theorem test_bc_wr_drops : after (exec (.bcWr 8 0) (region [0xFF, 0xFF] 12))
    (fun t => t.rsps = [⟨.ok, 1, 0, 4⟩] ∧ t.pos = 16 ∧ t.buf = cells [0xFF, 0xF0]) = true := by decide
/-- V18. -/
theorem test_bc_rdb_whole_bytes : after (exec (.bcRdb 4) (region [0xA5, 0x3C, 0xF0, 0x0F] 3))
    (fun t => t.rsps = [⟨.ok, 1, 3, 0⟩] ∧ t.pos = 27 ∧ t.dout = [0x29, 0xE7, 0x80]) = true := by decide
/-- V13. -/
theorem test_bc_rdb_zero : after (exec (.bcRdb 0) (region [0xA5] 3))
    (fun t => t.rsps = [⟨.ok, 0, 0, 0⟩] ∧ t.pos = 3 ∧ t.dout = []) = true := by
  decide
/-- V19. -/
theorem test_bc_wrb_unaligned : after (exec (.bcWrb 2) { region [0xFF, 0, 0xFF, 0] 5 with din := [0x12, 0x34] })
    (fun t => t.rsps = [⟨.ok, 0, 2, 0⟩] ∧ t.pos = 21 ∧ t.buf = cells [0xF8, 0x91, 0xA7, 0]) = true := by decide
/-- V19b. -/
theorem test_bc_wrb_discards : after (exec (.bcWrb 3) { region [0xAA, 0x55] 4 with din := [0x11, 0x22, 0x33, 0x44] })
    (fun t => t.rsps = [⟨.ok, 1, 1, 0⟩] ∧ t.pos = 12 ∧ t.buf = cells [0xA1, 0x15] ∧ t.din = [0x44]) = true := by decide
/-- V22 and V21. -/
theorem test_hs_detect_kinds :
    after (exec .hsDetect (region (magicWB ++ [4]) 0)) (fun t => t.rsps = [⟨.ok, 0, 2, 9⟩] ∧ t.kind = .wb) = true ∧
    after (exec .hsDetect (region (magicNB ++ [0x3C]) 0)) (fun t => t.rsps = [⟨.ok, 0, 1, 6⟩] ∧ t.kind = .nb) = true := by decide
/-- V23, from KIND = Narrowband: the wideband literal is in BUF, but only 8 bytes are attached. -/
theorem test_hs_detect_short : after (exec .hsDetect { region (magicWB ++ [4]) 0 with len := 8, kind := .nb })
    (fun t => t.rsps = [⟨.ok, 0, 0, 0⟩] ∧ t.kind = .unknown) = true := by decide
/-- V29 and V29b. -/
theorem test_kind_set : after (exec (.kindSet 2) State.reset) (fun t => t.rsps = [⟨.ok, 0, 0, 0⟩] ∧ t.kind = .wb) = true ∧
    after (exec (.kindSet 3) State.reset) (fun t => t.rsps = [⟨.badOperand, 0, 0, 0⟩] ∧ t.kind = .unknown) = true := by decide
/-- V47 (default tables). -/
theorem test_fl_lookup_wideband : after (exec (.flLookup 8) { State.reset with kind := .wb })
    (fun t => t.rsps = [⟨.ok, 0, 61, 60⟩]) = true := by
  decide
/-- V46 (default tables): index 15 has a record length but lies above FTMAX. -/
theorem test_fl_lookup_above_ftmax : after (exec (.flLookup 15) { State.reset with kind := .nb })
    (fun t => t.rsps = [⟨.invalidFrameType, 0, 0, 0⟩] ∧ t.err = 3) = true := by decide
/-- V36. -/
theorem test_toc_dec_malformed : after (exec .tocDec (region (List.replicate 21 0xBC) 0))
    (fun t => t.rsps = [⟨.malformedToc, 0, 0, 0⟩] ∧ t.pos = 160 ∧ t.tocn = 0 ∧ t.dout = []) = true := by decide
/-- V40. -/
theorem test_toc_dec_cut : after (exec .tocDec (region [0x0B, 0xC0] 4))
    (fun t => t.rsps = [⟨.ok, 1, 2, 1⟩] ∧ t.pos = 16 ∧ t.dout = [0xBC, 0x00]) = true := by decide
/-- V32. -/
theorem test_toc_enc_unaligned : after (exec (.tocEnc 2) { region [0xFF, 0xFF, 0xFF] 4 with din := [0x3C, 0x44] })
    (fun t => t.rsps = [⟨.ok, 0, 2, 2⟩] ∧ t.pos = 20 ∧ t.buf = cells [0xFB, 0xC4, 0x4F] ∧ t.tocn = 2) = true := by decide
/-- V31 cut to two entries: the input's bits 7, 1 and 0 are ignored. -/
theorem test_toc_enc_recomputes : after (exec (.tocEnc 2) { region [0xFF, 0xFF, 0xFF] 0 with din := [0x7F, 0xC7] })
    (fun t => t.rsps = [⟨.ok, 0, 2, 2⟩] ∧ t.buf = cells [0xFC, 0x44, 0xFF]) = true := by decide
/-- V64 (default tables), with a narrowband SID frame. -/
theorem test_grp_dec_sid : after (exec .grpDec { region [0x44, 1, 2, 3, 4, 5] 0 with kind := .nb, decReps := [[7], [8]] })
    (fun t => t.rsps = [⟨.ok, 0, 1, 6⟩] ∧ t.engReqs = [.decode [0x44, 1, 2, 3, 4, 5]] ∧ t.pout = [[7]] ∧ t.decReps = [[8]] ∧ t.pos = 48) = true := by decide
/-- The cut payload of program P6 on a SID frame (default tables), with Q = 1, in the second entry of a chain: F is cleared, zeros complete the
record, TRUNC and PLM are raised (R164, R168). -/
theorem test_grp_dec_cut : after (exec .grpDec { region [0xC4, 0x44, 1, 2, 3, 4, 5, 6, 7] 0 with kind := .nb, decReps := [[7], [8]] })
    (fun t => t.rsps = [⟨.ok, 3, 2, 9⟩] ∧ t.engReqs = [.decode [0x44, 1, 2, 3, 4, 5], .decode [0x44, 6, 7, 0, 0, 0]] ∧ t.exppay = 10 ∧ t.rempay = 7 ∧ t.flags = 3) = true := by decide
/-- V53 with a last reply of two bytes. -/
theorem test_grp_enc_skips : after (exec (.grpEnc 5 7) { region (List.replicate 4 0xEE) 0 with
      kind := .nb, pin := [[1], [2], [3], [4], [5]]
      encReps := [⟨0, []⟩, ⟨-1, []⟩, ⟨33, []⟩, ⟨1, [0x78]⟩, ⟨2, [0xBC, 9]⟩] })
    (fun t => t.rsps = [⟨.ok, 4, 2, 3⟩] ∧ t.buf = cells [0xF8, 0x3C, 9, 0xEE] ∧ t.pos = 24 ∧ t.skipcnt = 3) = true := by decide
/-- V55: no room; the block is popped and the engine called, BUF, POS and the TOC store are unchanged. -/
theorem test_grp_enc_no_space : after (exec (.grpEnc 1 7) { region [0xEE, 0xEE, 0xEE] 0 with
      kind := .nb, pin := [[1]], encReps := [⟨6, [0x44, 1, 2, 3, 4, 5]⟩], tocn := 1 })
    (fun t => t.rsps = [⟨.noSpace, 0, 0, 0⟩] ∧ t.buf = cells [0xEE, 0xEE, 0xEE] ∧ t.pos = 0 ∧ t.tocn = 1 ∧ t.pin = [] ∧ t.engReqs = [.encode [1] 7]) = true := by decide
/-- V49. -/
theorem test_csr_rd_cap : after (exec (.csrRd 9) { State.reset with kind := .nb }) (fun t => t.rsps = [⟨.ok, 0, 0x2014, 0⟩]) = true ∧
    after (exec (.csrRd 9) { State.reset with kind := .wb }) (fun t => t.rsps = [⟨.ok, 0, 0x3D14, 0⟩]) = true := by decide
/-- V74 and V75. -/
theorem test_csr_rd_map : after (exec (.csrRd 36) State.reset) (fun t => t.rsps = [⟨.badOperand, 0, 0, 0⟩]) = true ∧
    after (exec (.csrRd 35) { State.reset with tocbuf := State.reset.tocbuf.set 19 0x3C }) (fun t => t.rsps = [⟨.ok, 0, 0x3C, 0⟩]) = true := by decide
/-- V80. -/
theorem test_flg_clr_one : after (exec (.flgClr 2) { State.reset with flags := 7, err := 5 })
    (fun t => t.flags = 5 ∧ t.err = 5 ∧ t.rsps = [⟨.ok, 0, 0, 0⟩]) = true := by decide
/-- V76. -/
theorem test_flg_clr_err : after (exec (.flgClr 0x100) { State.reset with flags := 7, err := 5 })
    (fun t => t.flags = 7 ∧ t.err = 0) = true := by decide
/-- V77. -/
theorem test_hm_ld_refuses : after (exec (.hmLd 15 2) { State.resetWith smallConfig with din := [1, 2] })
    (fun t => t.rsps = [⟨.badOperand, 0, 0, 0⟩] ∧ t.din = [1, 2] ∧ t.buf = []) = true := by decide
/-- R204: the bytes go to byte indices, whatever is attached. -/
theorem test_hm_ld_places : after (exec (.hmLd 2 2) { region [9] 4 with din := [1, 2, 3] })
    (fun t => t.rsps = [⟨.ok, 0, 2, 0⟩] ∧ t.din = [3] ∧ t.buf = [(0, 9), (2, 1), (3, 2)] ∧ t.pos = 4) = true := by decide
/-- V79: no wrap-around in the sum. -/
theorem test_hm_st_no_wrap : after (exec (.hmSt 0xFFFFFFFF 2) State.reset) (fun t => t.rsps = [⟨.badOperand, 0, 0, 0⟩]) = true := by decide
/-- V78. -/
theorem test_hm_st_top : after (exec (.hmSt 16 0) (State.resetWith smallConfig))
    (fun t => t.rsps = [⟨.ok, 0, 0, 0⟩] ∧ t.dout = []) = true := by
  decide
/-- V72. -/
theorem test_nop : after (exec .nop { State.reset with err := 5 }) (fun t => t.rsps = [⟨.ok, 0, 0, 0⟩] ∧ t.err = 5) = true := by decide
/-- V70 as a step. -/
theorem test_step_illegal : after (step { State.reset with cmds := [0, 1] })
    (fun t => t.rsps = [⟨.illegalOp, 0, 0, 0⟩] ∧ t.err = 0x10 ∧ t.cmds = [1]) = true := by decide
/-- The response word of V4 (R66). -/
theorem test_response_word : (Rsp.mk .ok 1 0x00F00000 12).word = 0x00_01_00F00000_0000000C := by decide
/-- R71: F = 1, FT = 7, Q = 1 is BC; F = 0, FT = 7, Q = 1 is 3C. -/
theorem test_toc_octet : tocOctet true 7 true = 0xBC ∧ tocOctet false 7 true = 0x3C := by decide
/-- R78: the assembler lines of program P1. -/
theorem test_asm_line : asmLine (.hmLd 0 4) = "HM.LD 0, 4" ∧ asmLine (.bcRd 13) = "BC.RD 13" ∧ asmLine .grpDec = "GRP.DEC" := by decide

/-! ## The host's contract (48_host_sequences.md R225): one refusal per duty, expected results from the table's columns -/

/-- The duty an action or a run broke. -/
def breachOf {α : Type} (o : Host.Outcome α Fault HostBreach) : Option HostBreach :=
  match o with
  | .refused b => some b
  | _ => none

/-- A session in the middle of a narrowband stream: two bytes attached, the codec engine created. -/
def stream : Session := ⟨{ region [0x44, 1] 0 with kind := .nb }, true, .live .nb, [], []⟩

/-- R266: a second command before the first response is received. R267, U10: KIND written again, a refused KIND.SET apart; the kind left
unfixed. R225, R272: too few bytes on DIN, a surplus, a surplus under a refused operand. -/
theorem test_host_must_before_the_operation :
    breachOf ({ stream with st := { stream.st with rsps := [⟨.ok, 0, 0, 0⟩] } }.act (.issue 0x30_00000000_00000000 [] [])) =
      some .commandOutstanding ∧
    breachOf (stream.act (.issue 0x08_00000000_00000000 [] [])) = some .kindChanged ∧
    breachOf (stream.act (.issue 0x09_00000002_00000000 [] [])) = some .kindChanged ∧
    breachOf (stream.act (.issue 0x09_00000003_00000000 [] [])) = none ∧
    breachOf ({ stream with kindFixed := false }.act (.issue 0x0A_00000007_00000000 [] [])) = some .kindNotFixed ∧
    breachOf (stream.act (.issue 0x05_00000002_00000000 [1] [])) = some .dinNotExact ∧
    breachOf (stream.act (.issue 0x05_00000002_00000000 [1, 2, 3] [])) = some .dinNotExact ∧
    breachOf (stream.act (.issue 0x11_00000015_00000000 (List.replicate 21 0) [])) = some .dinNotExact := by decide

set_option maxRecDepth 8000 in
/-- R225: a block missing on PIN. R268, U6: a block one sample short. U5: a codec engine of another kind, and none while KIND is Unknown,
where one of any kind will do; R225, R268: a block sampled at the other kind's rate. R188: no room kept. R224: the codec engine
created twice, or alive at the end of its stream. U3: a reply one sample short. -/
theorem test_host_must_around_the_codec_engine :
    breachOf (stream.act (.issue 0x19_00000002_00000007 [] [⟨8000, List.replicate 160 0⟩])) = some .pinNotExact ∧
    breachOf (stream.act (.issue 0x19_00000001_00000007 [] [⟨8000, List.replicate 159 0⟩])) = some .blockLength ∧
    breachOf (stream.act (.issue 0x19_00000001_00000007 [] [⟨16000, List.replicate 160 0⟩])) = some .sampleRate ∧
    breachOf ({ stream with codec := .live .wb }.act (.issue 0x18_00000000_00000000 [] [])) = some .noCodec ∧
    breachOf ({ stream with codec := .absent, st := { stream.st with kind := .unknown } }.act
      (.issue 0x18_00000000_00000000 [] [])) = some .noCodec ∧
    breachOf ({ stream with st := { stream.st with kind := .unknown } }.act (.issue 0x18_00000000_00000000 [] [])) = none ∧
    breachOf ({ stream with st := { stream.st with encReps := [⟨3, [0x44, 1, 2]⟩] } }.act
      (.issue 0x19_00000001_00000007 [] [⟨8000, List.replicate 160 0⟩])) = some .noRoom ∧
    breachOf (stream.act (.createCodec .nb)) = some .codecLifetime ∧ breachOf (stream.act .finishStream) = some .codecLifetime ∧
    breachOf (stream.act (.codecDecodes (List.replicate 159 0))) = some .codecReply := by decide

/-- R224: an error stop that never destroys the codec engine has no result; a reset does not destroy it either, and the next stream has no
codec engine until one is created, for which the old one must be destroyed first, but not a second time. -/
theorem test_codec_engine_is_scoped :
    breachOf (stream.run []) = some .codecLifetime ∧ breachOf (stream.run [.reset]) = some .codecLifetime ∧
    breachOf (stream.run [.reset, .issue 0x09_00000001_00000000 [] [], .receive, .issue 0x18_00000000_00000000 [] []]) =
      some .noCodec ∧
    breachOf (stream.run [.reset, .createCodec .nb]) = some .codecLifetime ∧
    breachOf (stream.run [.reset, .destroyCodec, .createCodec .nb, .destroyCodec]) = none ∧
    breachOf (stream.run [.destroyCodec, .reset, .createCodec .wb, .destroyCodec]) = none := by decide

/-- What a run has pushed on DOUT, and what of it is still there. -/
def bytesOf (o : Host.Outcome RunResult Fault HostBreach) : Option (List Byte × List Byte) :=
  match o with
  | .next r => some (r.bytes, r.st.dout)
  | _ => none

/-- R221, R226: what the host has drained, what a reset took off DOUT, and what is still on it, is all part of what the run has produced. -/
theorem test_drained_output_is_in_the_result :
    bytesOf (stream.run [.issue 0x04_00000001_00000000 [] [], .receive, .drainDout 5, .issue 0x04_00000001_00000000 [] [], .receive,
      .destroyCodec]) = some ([0x44, 1], [1]) ∧
    bytesOf (stream.run [.issue 0x04_00000001_00000000 [] [], .receive, .reset, .destroyCodec]) = some ([0x44], []) := by decide

/-! ## Witnesses: for every statement with hypotheses a state and operands that meet them, clause by clause, at the boundaries -/

/-- A narrowband machine with a group of two SID frames in the region (default tables), both replies waiting. -/
def sidGroup : State := { region [0xC4, 0x44, 1, 2, 3, 4, 5, 6, 7, 8, 9, 10] 0 with kind := .nb, decReps := [[7], [8], [9]] }

/-- The frames of `sidGroup`. -/
def sidFrames : List Frame := [⟨8, true, [1, 2, 3, 4, 5]⟩, ⟨8, true, [6, 7, 8, 9, 10]⟩]

/-- A narrowband machine with room, two blocks on PIN and a skipped and a SID reply waiting. -/
def sidEncode : State :=
  { region (List.replicate 8 0xEE) 4 with
    kind := .nb, pin := [[1], [2], [3]], encReps := [⟨0, []⟩, ⟨6, [0xC4, 1, 2, 3, 4, 5]⟩], decReps := [[5]] }

theorem witness_DecodeUsesExactlyTheNamedFields :
    (∃ (w : CmdWord) (a b : Word), 0x29 = w.toNat / 2 ^ 64 ∧ a.toNat = w.toNat / 2 ^ 32 % 2 ^ 32 ∧ b.toNat = w.toNat % 2 ^ 32) ∧
    (0x21 : Byte) ∈ ([0x02, 0x04, 0x05, 0x09, 0x0A, 0x11, 0x20, 0x21] : List Byte) ∧
    (0x30 : Byte) ∈ ([0x08, 0x10, 0x18, 0x30] : List Byte) ∧ (0x01 : Byte) ∈ ([0x01, 0x03, 0x19, 0x28, 0x29] : List Byte) :=
  ⟨⟨0x29_FFFFFFFF_80000001, 0xFFFFFFFF, 0x80000001, by decide⟩, by decide⟩

theorem witness_ReservedOpcodesAreAnsweredIllegal : ∃ (s : State) (w : CmdWord) (ws : List CmdWord) (op : Nat),
    s.cmds = w :: ws ∧ op = w.toNat / 2 ^ 64 ∧ ∃ e, decode w = .error e :=
  ⟨{ State.reset with cmds := [0xFF_FFFFFFFF_FFFFFFFF] }, _, [], 0xFF, rfl, by decide, _, rfl⟩

theorem witness_StepRunsTheDecodedOperation :
    (∃ (s : State) (w : CmdWord) (ws : List CmdWord) (i : Instr), s.cmds = w :: ws ∧ decode w = .ok i) ∧ ∃ s : State, s.cmds = [] :=
  ⟨⟨{ State.reset with cmds := [0x02_00000020_00000000, 0] }, _, [0], .bcRd 32, rfl, by decide⟩, State.reset, rfl⟩

theorem witness_PlacedWordIsRunNext : ∃ (w : Nat) (i : Instr), decodeTableWord 72 w = some i :=
  ⟨0x30 * 2 ^ 64, .nop, by decide⟩

theorem witness_ResetLeavesTheStatedValues : ∃ (s r : State), r = s.applyReset ∧ s.len = 12 ∧ s.kind = .nb :=
  ⟨sidGroup, _, rfl, rfl, rfl⟩

theorem witness_ResetMeetsTheInvariant : smallConfig.wf ∧ State.reset.Inv := by decide

theorem witness_FirstOperationAfterReset : smallConfig.wf ∧ (1 : Word).toNat ≤ 32 ∧ 1 ≤ (32 : Word).toNat ∧ (32 : Word).toNat ≤ 32 ∧
    (1 ≤ (16 : Word).toNat ∧ (16 : Word).toNat ≤ smallConfig.bufmax ∧ (16 : Word).toNat ≤ (ramp 0 16).length) ∧
    (15 : Word).toNat ≤ 15 ∧ (1 ≤ (20 : Word).toNat ∧ (20 : Word).toNat ≤ 20 ∧ (20 : Word).toNat ≤ (ramp 0 20).length) ∧
    ((16 : Word).toNat ≤ smallConfig.bufmax ∧ (128 : Word).toNat ≤ 8 * (16 : Word).toNat) ∧ ((0 : Word).toNat ≤ 8 ∧ (8 : Word).toNat ≤ 8) ∧
    (16 ≤ (16 : Word).toNat ∧ (35 : Word).toNat ≤ 35) ∧
    ((14 : Word).toNat + (2 : Word).toNat ≤ smallConfig.bufmax ∧ (ramp 0 2).length = (2 : Word).toNat) := by decide

theorem witness_StepKeepsTheInvariant : ∃ s t : State, s.Inv ∧ step s = .next t :=
  ⟨{ sidGroup with cmds := [0x18_00000000_00000000] }, _, by decide, rfl⟩

theorem witness_OperationsSeeOnlyTheAttachedRegion : ∃ (i : Instr) (s t : State), (∀ a n, i ≠ .hmLd a n ∧ i ≠ .hmSt a n) ∧
    State.sameBelow s.len.toNat s t ∧ s.buf ≠ t.buf :=
  ⟨.bcRd 32, { region [1, 2, 3] 0 with len := 2 }, { region [1, 2, 9] 0 with len := 2 }, by simp, by decide, by decide⟩

theorem witness_BytesPastTheRegionAreKept : ∃ (i : Instr) (s t : State) (a : Nat), (∀ x y, i ≠ .hmLd x y) ∧ exec i s = .next t ∧
    s.len.toNat ≤ a :=
  ⟨.bcWr 32 0, { region [1, 2, 3] 0 with len := 2 }, _, 2, by simp, rfl, by decide⟩

theorem witness_EveryOperationAnswersOnceAndFlagsAreSticky : ∃ (i : Instr) (s t : State), exec i s = .next t ∧ ∀ m, i ≠ .flgClr m :=
  ⟨.grpDec, sidGroup, _, rfl, by simp⟩

theorem witness_OperationsWriteOnlyTheirOwnState : ∃ (i : Instr) (s t : State) (p : Piece), exec i s = .next t ∧ p ∉ mayWrite i :=
  ⟨.grpEnc 2 7, sidEncode, _, .plm, rfl, by decide⟩

theorem witness_BadOperandsAreRefusedBeforeAnyEffect :
    (∃ (i : Instr) (s : State), i.wellFormed s.cfg = false ∧ ∀ n m, i = .grpEnc n m → s.kind ≠ .unknown) ∧
    ∃ (i : Instr) (s t : State) (r : Rsp), i.wellFormed s.cfg = true ∧ exec i s = .next t ∧ t.rsps = s.rsps ++ [r] :=
  ⟨⟨.grpEnc 21 0, sidEncode, by decide, by intro _ _ _; decide⟩, .bcRd 32, sidGroup, _, _, by decide, rfl, rfl⟩

theorem witness_UnknownKindIsRefused : (State.reset.kind = .unknown ∧ (15 : Word).toNat ≤ 15) ∧
    ∃ s t : State, exec .hsDetect s = .next t ∧ t.kind = .unknown :=
  ⟨by decide, sidGroup, _, rfl, by decide⟩

theorem witness_OperationsWaitForTheirInput :
    ((1 : Word).toNat ≤ State.reset.cfg.bufmax ∧ State.reset.din.length < (1 : Word).toNat) ∧
    (1 ≤ (20 : Word).toNat ∧ (20 : Word).toNat ≤ 20 ∧ State.reset.din.length < (20 : Word).toNat) ∧
    ((0 : Word).toNat + (1 : Word).toNat ≤ State.reset.cfg.bufmax) ∧
    (sidEncode.kind ≠ .unknown ∧ (20 : Word).toNat ≤ 20 ∧ (∀ r ∈ sidEncode.encReps, r.contract sidEncode.cfg sidEncode.kind) ∧
      ({ sidEncode with pin := [[1]] } : State).pin.length < (2 : Word).toNat ∧ 1 ≤ sidEncode.encReps.length ∧
      ({ sidEncode with encReps := [] } : State).encReps.length < (1 : Word).toNat ∧ 0 < sidEncode.pin.length) ∧
    ∃ (s : State) (k m : Nat), s.kind ≠ .unknown ∧ 8 ≤ s.avail ∧ k ≤ 20 ∧ m ≤ k ∧
      (∀ i, i < k - 1 → octetF (s.octetAt (s.cursor + 8 * i)) = true) ∧ octetF (s.octetAt (s.cursor + 8 * (k - 1))) = false ∧
      (∀ i, i < m → validFt s.cfg s.kind (octetFt (s.octetAt (s.cursor + 8 * i))).toNat = true) ∧ s.decReps.length < m :=
  ⟨by decide, by decide, by decide, by decide, { region [0xC4, 0x44, 1, 2, 3] 0 with kind := .nb, decReps := [[7]] }, 2, 2, by decide⟩

theorem witness_GetBitIsMostSignificantFirst : (95 < 8 * sidGroup.len.toNat ∧ 8 * sidGroup.len.toNat ≤ 96) ∧
    State.sameBelow 2 { region [1, 2, 3] 0 with len := 2 } { region [1, 2, 9] 0 with len := 2 } := by decide

theorem witness_PutBitReplacesOneBit : 95 < 8 * sidGroup.len.toNat ∧ 8 * sidGroup.len.toNat ≤ 96 := by decide

theorem witness_BcAttachSetsRegionAndCursor : ∃ s : State, s.cfg.wf ∧
    (s.cfg.bufmax < (17 : Word).toNat ∨ 8 * (17 : Word).toNat < (0 : Word).toNat) ∧
    (s.cfg.bufmax < (16 : Word).toNat ∨ 8 * (16 : Word).toNat < (129 : Word).toNat) ∧
    (16 : Word).toNat ≤ s.cfg.bufmax ∧ (128 : Word).toNat ≤ 8 * (16 : Word).toNat :=
  ⟨State.resetWith smallConfig, by decide⟩

theorem witness_BcRdReadsBits : ((0 : Word).toNat < 1 ∨ 32 < (0 : Word).toNat) ∧ ((33 : Word).toNat < 1 ∨ 32 < (33 : Word).toNat) ∧
    (1 ≤ (1 : Word).toNat ∧ (1 : Word).toNat ≤ 32) ∧ (1 ≤ (32 : Word).toNat ∧ (32 : Word).toNat ≤ 32) := by decide

theorem witness_BcRdPadsZerosAtTheLowEnd : ∃ (s t : State) (n : Word) (r : Rsp), 1 ≤ n.toNat ∧ n.toNat ≤ 32 ∧ s.avail < n.toNat ∧
    exec (.bcRd n) s = .next t ∧ t.rsps = s.rsps ++ [r] :=
  ⟨region [0xFF, 0xFF] 3, _, 32, _, by decide, by decide, by decide, rfl, rfl⟩

theorem witness_BcWrWritesBits : ((0 : Word).toNat < 1 ∨ 32 < (0 : Word).toNat) ∧ ((33 : Word).toNat < 1 ∨ 32 < (33 : Word).toNat) ∧
    (1 ≤ (1 : Word).toNat ∧ (1 : Word).toNat ≤ 32) ∧ (1 ≤ (32 : Word).toNat ∧ (32 : Word).toNat ≤ 32) := by decide

theorem witness_BcRdbCopiesWholeBytes : ∃ s : State, s.cfg.bufmax < (17 : Word).toNat ∧ (16 : Word).toNat ≤ s.cfg.bufmax :=
  ⟨State.resetWith smallConfig, by decide⟩

theorem witness_UnalignedCopyShiftsAdjacentBytes : ∃ (s t : State) (len : Word) (i : Nat), len.toNat ≤ s.cfg.bufmax ∧
    exec (.bcRdb len) s = .next t ∧ i < min len.toNat (s.avail / 8) ∧ s.cursor % 8 = 3 :=
  ⟨region [0xA5, 0x3C, 0xF0, 0x0F] 3, _, 4, 2, by decide, rfl, by decide, by decide⟩

theorem witness_ByteCopyAgreesWithBitRead : ∃ s : State, 8 ≤ s.avail ∧ 1 ≤ s.cfg.bufmax := ⟨region [0xA5, 0x3C] 8, by decide⟩

theorem witness_BcWrbWritesWholeBytes : ∃ (s : State) (src rest : List Byte), s.cfg.bufmax < (17 : Word).toNat ∧
    (16 : Word).toNat ≤ s.cfg.bufmax ∧ s.din = src ++ rest ∧ src.length = (16 : Word).toNat :=
  ⟨{ State.resetWith smallConfig with din := ramp 0 17 }, ramp 0 16, [16], by decide⟩

theorem witness_CursorStaysAtTheEnd : ∃ s : State, s.cursor = s.limit ∧ 1 ≤ (32 : Word).toNat ∧ (32 : Word).toNat ≤ 32 :=
  ⟨region [0xFF, 0xFF] 16, by decide⟩

theorem witness_BitsWrittenAreReadBack : ∃ (s : State) (n v p : Word), s.cfg.wf ∧ s.len.toNat ≤ s.cfg.bufmax ∧ 1 ≤ n.toNat ∧
    n.toNat ≤ 32 ∧ v.toNat < 2 ^ n.toNat ∧ p.toNat + n.toNat ≤ s.limit :=
  ⟨region [0xFF, 0xFF, 0xFF, 0xFF, 0xFF] 0, 32, 0xFFFFFFFF, 8, by decide⟩

theorem witness_BytesWrittenAreCopiedBack : ∃ (s : State) (d rest : List Byte) (m p : Word), s.cfg.wf ∧ s.len.toNat ≤ s.cfg.bufmax ∧
    s.din = d ++ rest ∧ d.length = m.toNat ∧ p.toNat + 8 * m.toNat ≤ s.limit :=
  ⟨{ region [0xFF, 0xFF, 0xFF] 0 with din := [1, 2, 3] }, [1, 2], [3], 2, 8, by decide⟩

theorem witness_HsDetectRecognisesTheLiterals :
    (∃ s : State, 9 ≤ s.len.toNat ∧ s.memRead 0 9 = [0x23, 0x21, 0x41, 0x4D, 0x52, 0x2D, 0x57, 0x42, 0x0A]) ∧
    (∃ s : State, 6 ≤ s.len.toNat ∧ s.memRead 0 6 = [0x23, 0x21, 0x41, 0x4D, 0x52, 0x0A]) ∧
    ∃ s : State, ¬ (9 ≤ s.len.toNat ∧ s.memRead 0 9 = [0x23, 0x21, 0x41, 0x4D, 0x52, 0x2D, 0x57, 0x42, 0x0A]) ∧
      ¬ (6 ≤ s.len.toNat ∧ s.memRead 0 6 = [0x23, 0x21, 0x41, 0x4D, 0x52, 0x0A]) :=
  ⟨⟨region magicWB 0, by decide⟩, ⟨region magicNB 0, by decide⟩, { region magicWB 0 with len := 8 }, by decide⟩

theorem witness_KindSetTakesOneOrTwo : (1 : Word).toNat = 1 ∧ (2 : Word).toNat = 2 ∧ ((0 : Word).toNat ≠ 1 ∧ (0 : Word).toNat ≠ 2) ∧
    ((3 : Word).toNat ≠ 1 ∧ (3 : Word).toNat ≠ 2) := by decide

theorem witness_TocDecDecodesOneChain : (region [0x3C] 1).avail < 8 ∧
    (∃ s : State, 8 ≤ s.avail ∧ ∀ i, i < 20 → octetF (s.octetAt (s.cursor + 8 * i)) = true) ∧
    ∃ (s : State) (k : Nat), 8 ≤ s.avail ∧ 1 ≤ k ∧ k ≤ 20 ∧ (∀ i, i < k - 1 → octetF (s.octetAt (s.cursor + 8 * i)) = true) ∧
      octetF (s.octetAt (s.cursor + 8 * (k - 1))) = false ∧ k = 20 :=
  ⟨by decide, ⟨region (List.replicate 20 0xBC) 0, by decide⟩, region (List.replicate 19 0xBC ++ [0x3C]) 0, 20, by decide⟩

theorem witness_TocDecAlwaysFinishes : sidGroup.cursor ≤ sidGroup.limit ∧ (region [0] 8).cursor ≤ (region [0] 8).limit := by decide

theorem witness_TocDecEndsACutChain : ∃ (s : State) (j : Nat), 1 ≤ j ∧ j < 20 ∧ s.avail = 8 * j ∧ s.cursor ≤ s.limit ∧
    (∀ i, i < j → octetF (s.octetAt (s.cursor + 8 * i)) = true) ∧ j = 19 :=
  ⟨region (List.replicate 19 0xBC) 0, 19, by decide⟩

theorem witness_TocEncWritesOneChain : ((0 : Word).toNat < 1 ∨ 20 < (0 : Word).toNat) ∧ ((21 : Word).toNat < 1 ∨ 20 < (21 : Word).toNat) ∧
    (∃ (s : State) (src rest : List Byte), s.din = src ++ rest ∧ src.length = (2 : Word).toNat ∧ s.avail < 8 * (2 : Word).toNat) ∧
    ∃ (s : State) (src rest : List Byte), 1 ≤ (2 : Word).toNat ∧ (2 : Word).toNat ≤ 20 ∧ s.din = src ++ rest ∧
      src.length = (2 : Word).toNat ∧ 8 * (2 : Word).toNat ≤ s.avail :=
  ⟨by decide, by decide, ⟨{ region [0xFF, 0xFF] 1 with din := [1, 2, 3] }, [1, 2], [3], by decide⟩,
    { region [0xFF, 0xFF] 0 with din := [1, 2, 3] }, [1, 2], [3], by decide⟩

theorem witness_TocChainsRoundTrip : ∃ (s : State) (k p : Word) (src rest : List Byte), s.cfg.wf ∧ s.len.toNat ≤ s.cfg.bufmax ∧
    1 ≤ k.toNat ∧ k.toNat ≤ 20 ∧ s.din = src ++ rest ∧ src.length = k.toNat ∧ p.toNat + 8 * k.toNat ≤ s.limit :=
  ⟨{ region [0xFF, 0xFF, 0xFF] 0 with din := [0x3C, 0x44] }, 2, 4, [0x3C, 0x44], [], by decide⟩

theorem witness_RecordLengthsFitTheBound : defaultConfig.wf ∧ engMax defaultConfig .wb = 61 := by decide

theorem witness_FlLookupReadsTheTable : 15 < (16 : Word).toNat ∧ ((15 : Word).toNat ≤ 15 ∧ State.reset.kind = .unknown) ∧
    (validFt defaultConfig .nb 8 = true ∧ validFt defaultConfig .nb 9 = false ∧ validFt defaultConfig .unknown 0 = false) ∧
    (∃ s : State, s.kind ≠ .unknown ∧ ftmax s.cfg s.kind < (15 : Word).toNat) ∧
    (∃ s : State, s.kind ≠ .unknown ∧ flen s.cfg s.kind (9 : Word).toNat = 0) ∧
    ∃ s : State, s.kind ≠ .unknown ∧ (8 : Word).toNat ≤ ftmax s.cfg s.kind ∧ 1 ≤ flen s.cfg s.kind (8 : Word).toNat :=
  ⟨by decide, by decide, by decide, ⟨sidGroup, by decide⟩, ⟨sidGroup, by decide⟩, sidGroup, by decide⟩

theorem witness_NarrowbandTypeSevenIsSourced : sidGroup.cfg.wf ∧ sidGroup.kind = .nb := by decide

/-- The cases before a chain is read; then a chain of three whose second type is invalid and whose first payload is cut short. -/
theorem witness_GrpDecDecodesOneGroup : (State.reset.kind = .unknown ∧ ∃ s t : State, s.kind ≠ .unknown ∧ s.avail < 8 ∧
      t.kind ≠ .unknown ∧ 8 ≤ t.avail ∧ ∀ i, i < 20 → octetF (t.octetAt (t.cursor + 8 * i)) = true) ∧
    ∃ (s : State) (k m start rem : Nat) (ents : List Byte) (len off : Nat → Nat) (blks rest : List PcmBlock),
      s.kind ≠ .unknown ∧ 8 ≤ s.avail ∧ 1 ≤ k ∧ k ≤ 20 ∧ (∀ i, i < k - 1 → octetF (s.octetAt (s.cursor + 8 * i)) = true) ∧
      octetF (s.octetAt (s.cursor + 8 * (k - 1))) = false ∧
      ents = (List.range k).map (fun i => s.octetAt (s.cursor + 8 * i) &&& 0xFC) ∧
      start = min (s.cursor + 8 * k) s.limit ∧ rem = (s.limit - start) / 8 ∧
      len = (fun i => paylen s.cfg s.kind (octetFt (ents.getD i 0)).toNat) ∧ off = (fun i => ((List.range i).map len).sum) ∧
      m ≤ k ∧ (∀ i, i < m → validFt s.cfg s.kind (octetFt (ents.getD i 0)).toNat = true) ∧
      (m < k → validFt s.cfg s.kind (octetFt (ents.getD m 0)).toNat = false) ∧ s.decReps = blks ++ rest ∧ blks.length = m ∧ rem < off m :=
  ⟨⟨rfl, { region [0x3C] 1 with kind := .nb }, { region (List.replicate 20 0xBC) 0 with kind := .nb }, by decide⟩,
    { region [0xC4, 0xCC, 0x44, 1, 2, 3] 0 with kind := .nb, decReps := [[7], [8]] }, 3, 1, 24, 3, [0xC4, 0xCC, 0x44], _, _, [[7]], [[8]],
    by decide, by decide, by decide, by decide, by decide, by decide, by decide, by decide, by decide, rfl, rfl, by decide, by decide,
    by decide, by decide, by decide, by decide⟩

theorem witness_GrpDecDecodesAWellFormedGroup : ∃ (s : State) (frames : List Frame) (blks rest : List PcmBlock) (exp rem : Nat),
    s.kind ≠ .unknown ∧ 1 ≤ frames.length ∧ frames.length ≤ 20 ∧ (∀ f ∈ frames, f.wf s.cfg s.kind) ∧
    s.holdsAt s.cursor (groupBytes frames) ∧ s.decReps = blks ++ rest ∧ blks.length = frames.length ∧
    exp = (frames.map fun f => f.payload.length).sum ∧ rem = (s.avail - 8 * frames.length) / 8 :=
  ⟨sidGroup, sidFrames, [[7], [8]], [[9]], 10, 10, by decide⟩

theorem witness_GrpDecStopsAtAnInvalidFrameType : ∃ (s : State) (frames : List Frame) (bad : BitVec 4 × Bool)
    (more : List (BitVec 4 × Bool)) (blks rest : List PcmBlock) (chain : List Byte),
    s.kind ≠ .unknown ∧ frames.length + 1 + more.length ≤ 20 ∧ (∀ f ∈ frames, f.wf s.cfg s.kind) ∧
    validFt s.cfg s.kind bad.1.toNat = false ∧ chain = chainOctets ((frames.map fun f => (f.ft, f.q)) ++ bad :: more) ∧
    s.holdsAt s.cursor (chain ++ frames.flatMap Frame.payload) ∧ s.decReps = blks ++ rest ∧ blks.length = frames.length :=
  ⟨{ region [0xC4, 0xCC, 0x44, 1, 2, 3, 4, 5] 0 with kind := .nb, decReps := [[7]] }, [⟨8, true, [1, 2, 3, 4, 5]⟩], (9, true),
    [(8, true)], [[7]], [], [0xC4, 0xCC, 0x44], by decide⟩

theorem witness_GrpDecMakesOneRequestPerBlock : ∃ s t : State, exec .grpDec s = .next t := ⟨sidGroup, _, rfl⟩

theorem witness_GrpEncWritesOneGroup :
    (State.reset.kind = .unknown ∧ (sidEncode.kind ≠ .unknown ∧ 20 < (21 : Word).toNat)) ∧
    ∃ (s : State) (nblk : Word) (blks pin' : List PcmBlock) (reps enc' kept : List EncReply) (frames : List Frame) (total : Nat),
      s.kind ≠ .unknown ∧ nblk.toNat ≤ 20 ∧ s.pin = blks ++ pin' ∧ blks.length = nblk.toNat ∧ s.encReps = reps ++ enc' ∧
      reps.length = nblk.toNat ∧ (∀ r ∈ reps, r.contract s.cfg s.kind) ∧
      kept = reps.filter (fun r => decide (0 < r.size.toInt ∧ r.size.toInt ≤ (engMax s.cfg s.kind : Int))) ∧
      frames = kept.map (fun r => ⟨(r.record.headD 0 >>> s.cfg.ftShift).setWidth 4, (r.record.headD 0).getLsbD 2, r.record.tail⟩) ∧
      total = (groupBytes frames).length ∧ frames ≠ [] ∧ 8 * total ≤ s.avail :=
  ⟨by decide, sidEncode, 2, [[1], [2]], [[3]], [⟨0, []⟩, ⟨6, [0xC4, 1, 2, 3, 4, 5]⟩], [], [⟨6, [0xC4, 1, 2, 3, 4, 5]⟩],
    [⟨8, true, [1, 2, 3, 4, 5]⟩], 6, by decide⟩

/-- The other two outcomes of GRP.ENC: every reply skipped, and too little room. -/
theorem witness_GrpEncWritesOneGroup_nothing_or_no_room : ∃ (s t : State) (reps reps' : List EncReply),
    (s.kind ≠ .unknown ∧ s.encReps = reps ∧ (∀ r ∈ reps, r.contract s.cfg s.kind) ∧ reps.length = 1 ∧ s.pin.length = 1 ∧
      reps.filter (fun r => decide (0 < r.size.toInt ∧ r.size.toInt ≤ (engMax s.cfg s.kind : Int))) = []) ∧
    (t.kind ≠ .unknown ∧ t.encReps = reps' ∧ (∀ r ∈ reps', r.contract t.cfg t.kind) ∧ reps'.length = 1 ∧ t.pin.length = 1 ∧
      t.avail < 8 * (groupBytes (reps'.map fun r => frameOf t.cfg r.record)).length) :=
  ⟨{ region [0xEE] 0 with kind := .nb, pin := [[1]], encReps := [⟨33, []⟩] },
    { region [0xEE, 0xEE] 0 with kind := .nb, pin := [[1]], encReps := [⟨3, [0x44, 1, 2]⟩] },
    [⟨33, []⟩], [⟨3, [0x44, 1, 2]⟩], by decide⟩

theorem witness_GrpEncRefusesARecordOfAnotherLength : ∃ (s : State) (nblk : Word) (before after : List EncReply) (broken : EncReply),
    s.kind ≠ .unknown ∧ nblk.toNat ≤ 20 ∧ before.length < nblk.toNat ∧ before.length < s.pin.length ∧
    s.encReps = before ++ broken :: after ∧ (∀ r ∈ before, r.contract s.cfg s.kind) ∧ ¬ broken.contract s.cfg s.kind :=
  ⟨{ sidEncode with encReps := [⟨0, []⟩, ⟨6, [0xC4, 1]⟩] }, 2, [⟨0, []⟩], [], ⟨6, [0xC4, 1]⟩, by decide⟩

theorem witness_EncodedGroupsAreDecodedBack : ∃ (s : State) (nblk : Word) (blks pin' out dec' : List PcmBlock)
    (reps enc' : List EncReply) (frames : List Frame),
    s.cfg.wf ∧ s.len.toNat ≤ s.cfg.bufmax ∧ s.kind ≠ .unknown ∧ 1 ≤ nblk.toNat ∧ nblk.toNat ≤ 20 ∧ s.pin = blks ++ pin' ∧
    blks.length = nblk.toNat ∧ s.encReps = reps ++ enc' ∧ reps.length = nblk.toNat ∧
    (∀ r ∈ reps, plausible s.cfg s.kind r.size = true ∧ r.record.length = r.size.toNat) ∧
    frames = reps.map (fun r => ⟨(r.record.headD 0 >>> s.cfg.ftShift).setWidth 4, (r.record.headD 0).getLsbD 2, r.record.tail⟩) ∧
    (∀ f ∈ frames, f.wf s.cfg s.kind) ∧ 8 * (groupBytes frames).length ≤ s.avail ∧ s.decReps = out ++ dec' ∧
    out.length = nblk.toNat :=
  ⟨{ sidEncode with encReps := [⟨6, [0xC4, 1, 2, 3, 4, 5]⟩] }, 1, [[1]], [[2], [3]], [[5]], [], [⟨6, [0xC4, 1, 2, 3, 4, 5]⟩], [],
    [⟨8, true, [1, 2, 3, 4, 5]⟩], by decide⟩

theorem witness_CsrRdReadsTheRegisterMap : (0 < 20 ∧ (16 : Word).toNat = 16 + 0) ∧ (19 < 20 ∧ (35 : Word).toNat = 16 + 19) ∧
    (10 ≤ (10 : Word).toNat ∧ (10 : Word).toNat ≤ 15 ∨ 36 ≤ (10 : Word).toNat) ∧
    (10 ≤ (15 : Word).toNat ∧ (15 : Word).toNat ≤ 15 ∨ 36 ≤ (15 : Word).toNat) ∧
    (10 ≤ (36 : Word).toNat ∧ (36 : Word).toNat ≤ 15 ∨ 36 ≤ (36 : Word).toNat) := by decide

theorem witness_FlgClrClearsTheSelectedFlags : ∃ s t : State, exec .nop s = .next t ∧ s.flags.getLsbD 0 = true ∧ s.err ≠ 0 :=
  ⟨{ State.reset with flags := 7, err := 5 }, _, rfl, by decide, by decide⟩

theorem witness_HmLdLoadsBytes : ∃ (s : State) (src rest : List Byte), s.cfg.bufmax < (15 : Word).toNat + (2 : Word).toNat ∧
    (14 : Word).toNat + (2 : Word).toNat ≤ s.cfg.bufmax ∧ s.din = src ++ rest ∧ src.length = (2 : Word).toNat :=
  ⟨{ State.resetWith smallConfig with din := [1, 2, 3] }, [1, 2], [3], by decide⟩

theorem witness_HmStStoresBytes : ∃ s : State, s.cfg.bufmax < (0xFFFFFFFF : Word).toNat + (2 : Word).toNat ∧
    (14 : Word).toNat + (2 : Word).toNat ≤ s.cfg.bufmax :=
  ⟨State.resetWith smallConfig, by decide⟩

theorem witness_LoadedBytesAreStoredBack : ∃ (s : State) (addr len : Word) (src rest : List Byte),
    addr.toNat + len.toNat ≤ s.cfg.bufmax ∧ s.din = src ++ rest ∧ src.length = len.toNat :=
  ⟨{ State.resetWith smallConfig with din := [1, 2, 3] }, 14, 2, [1, 2], [3], by decide⟩

set_option maxRecDepth 8000 in
/-- A run with a result, an illegal word, the bytes of BC.WRB, a group operation under every duty, and one that fixes the kind. -/
theorem witness_AcceptedOperationsKeepTheHostsDuties :
    (∃ (h : Session) (as : List HostAction) (res : RunResult), h.run as = .next res) ∧
    (∃ (h h' : Session) (w : CmdWord) (e : DecodeError), decode w = .error e ∧ h.act (.issue w [] []) = .next h') ∧
    (∃ (h h' : Session) (w : CmdWord), decode w = .ok (.bcWrb 2) ∧ h.act (.issue w [1, 2] []) = .next h') ∧
    (∃ (h h' : Session) (w : CmdWord) (pin : List HostBlock), decode w = .ok (.grpEnc 1 7) ∧ h.act (.issue w [] pin) = .next h') ∧
    ∃ (h h' : Session) (w : CmdWord), decode w = .ok .hsDetect ∧ h.act (.issue w [] []) = .next h' :=
  ⟨⟨stream, [.destroyCodec], _, rfl⟩, ⟨stream, _, 0, _, rfl, rfl⟩, ⟨stream, _, 0x05_00000002_00000000, by decide, rfl⟩,
    ⟨{ stream with st := { stream.st with encReps := [⟨1, [0x44]⟩] } }, _, 0x19_00000001_00000007, [⟨8000, List.replicate 160 0⟩], by decide, rfl⟩,
    Session.start smallConfig, _, 0x08_00000000_00000000, by decide, rfl⟩

set_option maxRecDepth 8000 in
theorem witness_ActionsKeepTheSessionInvariant :
    (∃ (h h' : Session) (a : HostAction), h.Inv ∧ h.act a = .next h') ∧
    ∃ (h h' : Session) (a : HostAction), h.act a = .next h' ∧ (∀ w din pin, a ≠ .issue w din pin) ∧ h.st.dout ≠ [] :=
  ⟨⟨stream, _, .codecDecodes (List.replicate 160 0), by decide, rfl⟩,
    { stream with st := { stream.st with dout := [1] } }, _, .drainDout 1, rfl, (fun _ _ _ => HostAction.noConfusion), by decide⟩

theorem witness_KindIsFixedWithinAStream :
    (∃ (h h' : Session) (a : HostAction), h.act a = .next h' ∧ h.kindFixed = true ∧ a ≠ .finishStream ∧ a ≠ .reset) ∧
    (∃ h h' : Session, h.act .reset = .next h' ∧ h.codec = .live .nb) ∧
    (∃ h h' : Session, h.act .reset = .next h' ∧ h.codec = .destroyed) ∧
    ∃ h h' : Session, h.act .finishStream = .next h' ∧ h.codec = .absent :=
  ⟨⟨stream, _, .issue 0x01_00000002_00000008 [] [], rfl, by decide⟩, ⟨stream, _, rfl, rfl⟩,
    ⟨{ stream with codec := .destroyed }, _, rfl, rfl⟩, Session.start smallConfig, _, rfl, rfl⟩

set_option maxRecDepth 8000 in
theorem witness_GroupOperationsCarryWholeBlocks :
    (∃ (h h' : Session) (w : CmdWord), h.Inv ∧ h.act (.issue w [] []) = .next h' ∧ decode w = .ok .grpDec ∧ h.st.kind = .nb) ∧
    ∃ (h h' : Session) (w : CmdWord) (pin : List HostBlock), h.Inv ∧ h.act (.issue w [] pin) = .next h' ∧ decode w = .ok (.grpEnc 1 7) :=
  ⟨⟨{ stream with st := { stream.st with decReps := [List.replicate 160 0] } }, _, 0x18_00000000_00000000, by decide, rfl, by decide, rfl⟩,
    { stream with st := { stream.st with encReps := [⟨1, [0x44]⟩] } }, _, 0x19_00000001_00000007, [⟨8000, List.replicate 160 0⟩], by decide, rfl,
    by decide⟩

end Sys2Proof.Tests
end

section
/-! PROOF. The reset table (10_state.md R31): what the initial state and the reset input leave in the registers, streams and channels. -/

namespace Sys2Proof.Machine

/-- Every entry of the TOC store is 0 after reset (R31). -/
@[simp] theorem State.resetWith_tocEntry (c : Config) (i : Nat) : (State.resetWith c).tocEntry i = 0 := by
  rw [State.tocEntry, State.resetWith, Vector.toList_replicate, List.getD_eq_getElem?_getD, List.getElem?_getD_replicate_default_eq]

/-- Settles O9: the initial state and the one the reset input leaves are both `State.resetWith` but for the codec engine port's traffic
and the reset count, which are not in the table. -/
theorem resetLeavesTheStatedValues : Obligations.ResetLeavesTheStatedValues := by
  intro c s r h
  have hr : ∃ c' reqs dec enc n,
      r = { State.resetWith c' with engReqs := reqs, decReps := dec, encReps := enc, epoch := n } := by
    obtain rfl | rfl := h
    · exact ⟨c, [], [], [], 0, rfl⟩
    · exact ⟨s.cfg, s.engReqs, s.decReps, s.encReps, s.epoch + 1, rfl⟩
  obtain ⟨c', _, _, _, _, rfl⟩ := hr
  have htoc : ∀ i, i < 20 → (State.resetWith c').tocEntry i = 0 := fun i _ => State.resetWith_tocEntry c' i
  exact ⟨fun _ => rfl, rfl, rfl, rfl, rfl, rfl, rfl, htoc, rfl, rfl, rfl, rfl, rfl, rfl, rfl, rfl, rfl⟩

end Sys2Proof.Machine
end

section
/-! PROOF. Single bits of BUF (20_memory.md R43, R44): what GetBit reads, and what PutBit replaces and leaves unchanged. -/

namespace Sys2Proof.Machine

/-! ## GetBit -/

theorem State.getBit_of_lt {s : State} {a : Nat} (h : a < s.limit) : s.getBit a = s.bufBit a := if_pos h

theorem State.getBit_past {s : State} {a : Nat} (h : s.limit ≤ a) : s.getBit a = false := if_neg (Nat.not_lt.2 h)

/-- GetBit depends on the bytes of the region only (R41, R43): it is the one bit of a run of length 1. -/
theorem State.getBit_sameBelow {s t : State} (h : State.sameBelow s.len.toNat s t) (a : Nat) : t.getBit a = s.getBit a := by
  simpa [State.getBits] using State.getBits_sameBelow h a 1

/-- Settles O20: the two branches of GetBit, and `State.getBit_sameBelow` for the bytes past the region. -/
theorem getBitIsMostSignificantFirst : Obligations.GetBitIsMostSignificantFirst := fun _ a =>
  ⟨State.getBit_of_lt, State.getBit_past, fun _ h => State.getBit_sameBelow h a⟩

/-! ## PutBit -/

/-- Bit `j` of a byte of BUF, by its bit address (R42). -/
theorem State.bufByte_getLsbD (s : State) (k : Nat) {j : Nat} (hj : j < 8) :
    (s.bufByte k).getLsbD j = s.bufBit (8 * k + (7 - j)) := by
  rw [State.bufBit, show (8 * k + (7 - j)) / 8 = k by omega, show 7 - (8 * k + (7 - j)) % 8 = j by omega]

theorem State.bufBit_putBit_same {s : State} {a : Nat} (h : a < s.limit) (b : Bool) : (s.putBit a b).bufBit a = b := by
  rw [State.bufBit_putBit, if_pos ⟨rfl, h⟩]

theorem State.bufBit_putBit_ne (s : State) {a x : Nat} (h : x ≠ a) (b : Bool) : (s.putBit a b).bufBit x = s.bufBit x := by
  rw [State.bufBit_putBit, if_neg fun hx => h hx.1]

theorem State.bufByte_putBit_ne (s : State) {a k : Nat} (h : k ≠ a / 8) (b : Bool) : (s.putBit a b).bufByte k = s.bufByte k :=
  State.bufByte_ext fun _ _ => State.bufBit_putBit_ne s (by omega) b

/-- PutBit writes no piece of state but BUF (R44). -/
theorem State.putBit_frame (s : State) (a : Nat) (b : Bool) : { s.putBit a b with buf := s.buf } = s := by
  unfold State.putBit
  split <;> rfl

theorem State.putBit_past {s : State} {a : Nat} (h : s.limit ≤ a) (b : Bool) : s.putBit a b = s := if_neg (Nat.not_lt.2 h)

/-- Settles O21: every clause about BUF follows from the value of each bit by its bit address (`State.bufBit_putBit`), since the bits
of a byte and the bytes themselves have different bit addresses. -/
theorem putBitReplacesOneBit : Obligations.PutBitReplacesOneBit := by
  intro s a b
  refine ⟨fun ha => ⟨State.putBit_frame s a b, State.bufBit_putBit_same ha b, fun j hj hne => ?_, fun k hk => ?_⟩,
    fun ha => State.putBit_past ha b⟩
  · have haddr : 8 * (a / 8) + (7 - j) ≠ a := by omega
    rw [State.bufByte_getLsbD _ _ hj, State.bufByte_getLsbD _ _ hj, State.bufBit_putBit_ne s haddr]
  · exact State.bufByte_putBit_ne s hk b

end Sys2Proof.Machine
end

section
/-! PROOF. Reserved opcodes (30_encoding.md R64): which command words the decoder rejects, and what a step answers to one. -/

namespace Sys2Proof

/-- The opcode values that R64 lists as illegal. -/
def ReservedOpcode (op : Nat) : Prop :=
  op = 0x00 ∨ op = 0x06 ∨ op = 0x07 ∨ (0x0B ≤ op ∧ op ≤ 0x0F) ∨ (0x12 ≤ op ∧ op ≤ 0x17) ∨ (0x1A ≤ op ∧ op ≤ 0x1F) ∨
    (0x22 ≤ op ∧ op ≤ 0x27) ∨ (0x2A ≤ op ∧ op ≤ 0x2F) ∨ (0x31 ≤ op ∧ op ≤ 0xFF)

/-- The arms of the decoder that give an operation have opcodes outside the list of R64; those left to the last arm, which has
eight bits, are in it. -/
theorem decode_error_iff (w : CmdWord) : (∃ e, decode w = .error e) ↔ ReservedOpcode (cmdOp w).toNat := by
  have hlt := (cmdOp w).isLt
  unfold decode ReservedOpcode
  split
  case h_18 =>
    refine iff_of_true ⟨_, rfl⟩ ?_
    simp only [imp_false] at *
    omega
  all_goals
    rename_i hop
    rw [hop]
    exact iff_of_false (by simp) (by decide)

namespace Machine

theorem fetch_of_cmds {s : State} {w : CmdWord} {ws : List CmdWord} (h : s.cmds = w :: ws) :
    fetch s = some (w, { s with cmds := ws }) := by
  rw [fetch, h]

theorem execIllegal_eq (s : State) : execIllegal s = .next (s.answered .illegalOp 0 0 0) := Run.begin_raise s .illegalOp

/-- A step on a word the decoder rejects (R64). -/
theorem step_of_decode_error {s : State} {w : CmdWord} {ws : List CmdWord} {e : DecodeError} (h : s.cmds = w :: ws)
    (he : decode w = .error e) : step s = .next ({ s with cmds := ws }.answered .illegalOp 0 0 0) := by
  simp only [step, fetch_of_cmds h, he, execIllegal_eq]

/-- Settles O4, by the decoder's arms (`decode_error_iff`) and the step on a rejected word. -/
theorem reservedOpcodesAreAnsweredIllegal : Obligations.ReservedOpcodesAreAnsweredIllegal := by
  rintro s w ws _ hcmds rfl
  refine ⟨?_, fun ⟨_, he⟩ => ⟨step_of_decode_error hcmds he, rfl⟩⟩
  rw [← cmdOp_toNat]
  exact (decode_error_iff w).symm

end Machine
end Sys2Proof
end

section
/-! PROOF. The bit cursor (40_bit_cursor.md): one equation per operation, and the five rules R91, R93, R96, R99 and R102. -/

namespace Sys2Proof.Machine

/-! ## BC.ATTACH -/

theorem exec_bcAttach_refused {s : State} {len pos0 : Word} (h : s.cfg.bufmax < len.toNat ∨ 8 * len.toNat < pos0.toNat) :
    exec (.bcAttach len pos0) s = .next (s.answered .badOperand 0 0 0) := by
  show execBcAttach len pos0 s = _
  rw [execBcAttach, if_pos h, Run.begin_raise]

theorem exec_bcAttach_accepted {s : State} {len pos0 : Word} (hlen : len.toNat ≤ s.cfg.bufmax) (hpos : pos0.toNat ≤ 8 * len.toNat) :
    exec (.bcAttach len pos0) s = .next ({ s with len := BitVec.ofNat 29 len.toNat, pos := pos0 }.answered .ok 0 0 0) := by
  show execBcAttach len pos0 s = _
  rw [execBcAttach, if_neg (by omega), Run.begin_respond]

/-- Settles O22: BUFMAX is at most 2^28 (R4), so an accepted length fits in the 29 bits of LEN. -/
theorem bcAttachSetsRegionAndCursor : Obligations.BcAttachSetsRegionAndCursor := by
  intro s len pos0 hcfg
  refine ⟨exec_bcAttach_refused, fun hlen hpos => ⟨_, ?_, exec_bcAttach_accepted hlen hpos⟩⟩
  obtain ⟨_, hmax, _⟩ := hcfg
  rw [BitVec.toNat_ofNat]
  omega

/-! ## Operations that end OK after one warning -/

theorem Run.begin_warn_respond (s : State) (w : BitVec 3) (st : Status) (r0 r1 : Nat) :
    ((Run.begin s).warn w).respond st r0 r1 = .next (s.answered st w r0 r1) := by
  rw [Run.begin_warn, Run.respond_answered]

/-! ## BC.RD -/

theorem exec_bcRd_refused {s : State} {n : Word} (h : n.toNat < 1 ∨ 32 < n.toNat) :
    exec (.bcRd n) s = .next (s.answered .badOperand 0 0 0) := by
  show execBcRd n s = _
  rw [execBcRd, if_pos h, Run.begin_raise]

/-- BC.RD in range: the value of the `n` bits at the cursor, and the cursor advanced (R93). -/
theorem exec_bcRd_eq {s : State} {n : Word} (h1 : 1 ≤ n.toNat) (h2 : n.toNat ≤ 32) :
    exec (.bcRd n) s = .next ((s.advance n.toNat).answered .ok (truncWarn n.toNat s.avail)
      (bitsValue (s.getBits s.cursor n.toNat)) (min n.toNat s.avail)) := by
  show execBcRd n s = _
  rw [execBcRd, if_neg (by omega)]
  exact Run.begin_warn_respond (s.advance n.toNat) _ .ok _ _

/-- A run of bits of BUF as a field: the first bit met is the most significant one (R45). -/
theorem State.getBits_testBit (s : State) (a : Nat) {n i : Nat} (h : i < n) :
    (bitsValue (s.getBits a n)).testBit (n - 1 - i) = s.getBit (a + i) := by
  rw [bitsValue_testBit, dif_pos (by rw [State.getBits_length]; omega), State.getBits_getElem, State.getBits_length,
    show n - 1 - (n - 1 - i) = i by omega]

/-- Settles O23: the value is that of the bits met, first bit most significant. -/
theorem bcRdReadsBits : Obligations.BcRdReadsBits := by
  intro s n
  refine ⟨exec_bcRd_refused, fun h1 h2 =>
    ⟨bitsValue (s.getBits s.cursor n.toNat), ?_, fun i hi => s.getBits_testBit s.cursor hi, exec_bcRd_eq h1 h2⟩⟩
  simpa using bitsValue_lt (s.getBits s.cursor n.toNat)

/-! ## BC.RDB -/

theorem exec_bcRdb_refused {s : State} {len : Word} (h : s.cfg.bufmax < len.toNat) :
    exec (.bcRdb len) s = .next (s.answered .badOperand 0 0 0) := by
  show execBcRdb len s = _
  rw [execBcRdb, if_pos h, Run.begin_raise]

/-- The octets from the cursor on, at most `len` and as many whole ones as remain. -/
def State.octetsLeft (s : State) (len : Nat) : List Byte :=
  (List.range (s.wholeBytes len)).map fun i => s.octetAt (s.cursor + 8 * i)

@[simp] theorem State.octetsLeft_length (s : State) (len : Nat) : (s.octetsLeft len).length = s.wholeBytes len := by
  simp [State.octetsLeft]

theorem State.octetsLeft_getD (s : State) {len i : Nat} (h : i < s.wholeBytes len) :
    (s.octetsLeft len).getD i 0 = s.octetAt (s.cursor + 8 * i) := by
  simp [State.octetsLeft, h]

/-- BC.RDB in range: the whole octets left go to DOUT and the cursor moves past them (R99). -/
theorem exec_bcRdb_eq {s : State} {len : Word} (h : len.toNat ≤ s.cfg.bufmax) :
    exec (.bcRdb len) s = .next (((s.setCursor (s.cursor + 8 * s.wholeBytes len.toNat)).pushDout (s.octetsLeft len.toNat)).answered .ok
      (truncWarn len.toNat (s.wholeBytes len.toNat)) (s.wholeBytes len.toNat) 0) := by
  show execBcRdb len s = _
  rw [execBcRdb, if_neg (by omega), Run.rdBytes_eq]
  exact Run.begin_warn_respond ((s.setCursor _).pushDout _) _ .ok _ _

/-- Settles O26: the bytes pushed are the octets at the cursor, whose bits `State.octetAt_getLsbD` gives. -/
theorem bcRdbCopiesWholeBytes : Obligations.BcRdbCopiesWholeBytes := by
  intro s len
  refine ⟨exec_bcRdb_refused, fun h => ⟨s.octetsLeft len.toNat, s.octetsLeft_length _, fun i j hi hj => ?_, ?_⟩⟩
  · rw [State.octetsLeft_length] at hi
    rw [State.octetsLeft_getD s hi, State.octetAt_getLsbD _ _ hj]
  · rw [exec_bcRdb_eq h, State.octetsLeft_length]
    rfl

/-! ## Bits put at the cursor

What BC.WR and BC.WRB share. Bits past the region are dropped (R44), so of `bs` only the first `min bs.length s.avail` bits are put. -/

/-- A run of bits put changes BUF only. -/
theorem State.putBits_eq (s : State) (a : Nat) (bs : List Bool) : s.putBits a bs = { s with buf := (s.putBits a bs).buf } := by
  apply State.ext <;> simp

@[simp] theorem State.bufBit_answered (s : State) (st : Status) (w : BitVec 3) (r0 r1 a : Nat) :
    (s.answered st w r0 r1).bufBit a = s.bufBit a := rfl

@[simp] theorem State.bufBit_setCursor (s : State) (p a : Nat) : (s.setCursor p).bufBit a = s.bufBit a := rfl

@[simp] theorem State.bufBit_advance (s : State) (m a : Nat) : (s.advance m).bufBit a = s.bufBit a := rfl

@[simp] theorem State.bufByte_answered (s : State) (st : Status) (w : BitVec 3) (r0 r1 a : Nat) :
    (s.answered st w r0 r1).bufByte a = s.bufByte a := rfl

@[simp] theorem State.bufByte_setCursor (s : State) (p a : Nat) : (s.setCursor p).bufByte a = s.bufByte a := rfl

@[simp] theorem State.bufByte_advance (s : State) (m a : Nat) : (s.advance m).bufByte a = s.bufByte a := rfl

theorem State.bufBit_putBits_cursor (s : State) (bs : List Bool) {i : Nat} (h : i < min bs.length s.avail) :
    (s.putBits s.cursor bs).bufBit (s.cursor + i) = bs.getD i false := by
  unfold State.avail at h
  rw [State.bufBit_putBits, if_pos (by omega), Nat.add_sub_cancel_left]

theorem State.bufBit_putBits_kept (s : State) (bs : List Bool) {a : Nat} (h : a < s.cursor ∨ s.cursor + min bs.length s.avail ≤ a) :
    (s.putBits s.cursor bs).bufBit a = s.bufBit a := by
  unfold State.avail at h
  rw [State.bufBit_putBits, if_neg (by omega)]

theorem State.bufByte_putBits_kept (s : State) (bs : List Bool) {k : Nat}
    (h : 8 * k + 8 ≤ s.cursor ∨ s.cursor + min bs.length s.avail ≤ 8 * k) : (s.putBits s.cursor bs).bufByte k = s.bufByte k :=
  State.bufByte_ext fun _ _ => s.bufBit_putBits_kept bs (by omega)

/-! ## BC.WR -/

theorem exec_bcWr_refused {s : State} {n value : Word} (h : n.toNat < 1 ∨ 32 < n.toNat) :
    exec (.bcWr n value) s = .next (s.answered .badOperand 0 0 0) := by
  show execBcWr n value s = _
  rw [execBcWr, if_pos h, Run.begin_raise]

/-- BC.WR in range: the field's bits put at the cursor, and the cursor advanced (R96). -/
theorem exec_bcWr_eq {s : State} {n value : Word} (h1 : 1 ≤ n.toNat) (h2 : n.toNat ≤ 32) :
    exec (.bcWr n value) s = .next (((s.putBits s.cursor (fieldBits n.toNat value.toNat)).advance n.toNat).answered .ok
      (truncWarn n.toNat s.avail) 0 (min n.toNat s.avail)) := by
  show execBcWr n value s = _
  rw [execBcWr, if_neg (by omega)]
  exact Run.begin_warn_respond ((s.putBits s.cursor (fieldBits n.toNat value.toNat)).advance n.toNat) _ .ok _ _

theorem fieldBits_getD (v : Nat) {n i : Nat} (h : i < n) : (fieldBits n v).getD i false = v.testBit (n - 1 - i) := by
  rw [List.getD_eq_getElem _ _ (by simpa using h), fieldBits_getElem]

/-- Settles O25: the bits put are those of the field, and only BUF, POS and TRUNC are written. -/
theorem bcWrWritesBits : Obligations.BcWrWritesBits := by
  intro s n value
  refine ⟨exec_bcWr_refused, fun h1 h2 => ⟨_, exec_bcWr_eq h1 h2, ?_, fun i hi => ?_, fun a ha => ?_, fun k hk => ?_⟩⟩
  · conv_lhs => rw [State.putBits_eq]
    rfl
  · rw [State.bufBit_answered, State.bufBit_advance, State.bufBit_putBits_cursor _ _ (by rwa [fieldBits_length]),
      fieldBits_getD _ (by omega)]
  · rw [State.bufBit_answered, State.bufBit_advance, State.bufBit_putBits_kept _ _ (by rwa [fieldBits_length])]
  · rw [State.bufByte_answered, State.bufByte_advance, State.bufByte_putBits_kept _ _ (by rwa [fieldBits_length])]

/-! ## BC.WRB -/

theorem bytesBits_getD (bs : List Byte) {i j : Nat} (hi : i < bs.length) (hj : j < 8) :
    (bytesBits bs).getD (8 * i + j) false = (bs.getD i 0).getLsbD (7 - j) := by
  induction bs generalizing i with
  | nil => simp at hi
  | cons b bs ih =>
    rw [bytesBits_cons]
    cases i with
    | zero =>
      rw [Nat.mul_zero, Nat.zero_add, List.getD_append _ _ _ _ (by simpa using hj), fieldBits_getD _ hj]
      rfl
    | succ i =>
      rw [List.getD_append_right _ _ _ _ (by rw [fieldBits_length]; omega), fieldBits_length,
        show 8 * (i + 1) + j - 8 = 8 * i + j by omega, List.getD_cons_succ]
      exact ih (by simpa using hi)

/-- The bits of the first bytes of `src`, those that fit whole between the cursor and the end of the region (R102). -/
def State.fittingBits (s : State) (src : List Byte) : List Bool := bytesBits (src.take (s.wholeBytes src.length))

@[simp] theorem State.fittingBits_length (s : State) (src : List Byte) :
    (s.fittingBits src).length = 8 * s.wholeBytes src.length := by
  rw [State.fittingBits, bytesBits_length, List.length_take, Nat.min_eq_left (s.wholeBytes_le src.length).2]

/-- None of the bits of the bytes that fit is dropped. -/
theorem State.min_fittingBits_avail (s : State) (src : List Byte) :
    min (s.fittingBits src).length s.avail = 8 * s.wholeBytes src.length := by
  rw [State.fittingBits_length, Nat.min_eq_left (s.wholeBytes_le src.length).1]

theorem State.fittingBits_getD (s : State) (src : List Byte) {i j : Nat} (hi : i < s.wholeBytes src.length) (hj : j < 8) :
    (s.fittingBits src).getD (8 * i + j) false = (src.getD i 0).getLsbD (7 - j) := by
  have hsrc := Nat.lt_of_lt_of_le hi (s.wholeBytes_le src.length).2
  rw [State.fittingBits, bytesBits_getD _ (by rw [List.length_take]; omega) hj]
  simp only [List.getD_eq_getElem?_getD, List.getElem?_take, if_pos hi]

/-- WrBytes puts the bits of the bytes that fit whole and moves the cursor past them (R102). -/
theorem Run.wrBytes_eq (o : Run) (src : List Byte) :
    o.wrBytes src = (o.modify fun s => (s.putBits s.cursor (s.fittingBits src)).setCursor (s.cursor + 8 * s.wholeBytes src.length)).warn
      (truncWarn src.length (o.st.wholeBytes src.length)) := by
  calc o.wrBytes src
    _ = (o.modify fun s => (s.putBits s.cursor (s.fittingBits src)).setCursor
          ((s.putBits s.cursor (s.fittingBits src)).cursor + 8 * s.wholeBytes src.length)).warn
          (truncWarn src.length (o.st.wholeBytes src.length)) := rfl
    _ = _ := by simp only [State.cursor_putBits]

theorem exec_bcWrb_refused {s : State} {len : Word} (h : s.cfg.bufmax < len.toNat) :
    exec (.bcWrb len) s = .next (s.answered .badOperand 0 0 0) := by
  show execBcWrb len s = _
  rw [execBcWrb, if_pos h, Run.begin_raise]

/-- BC.WRB in range with its bytes `src` on DIN: all of them are popped, those that fit whole are put at the cursor, and the cursor moves
past these (R102). -/
theorem exec_bcWrb_eq {s : State} {len : Word} {src rest : List Byte} (h : len.toNat ≤ s.cfg.bufmax) (hdin : s.din = src ++ rest)
    (hsrc : src.length = len.toNat) :
    exec (.bcWrb len) s = .next ((({ s with din := rest }.putBits s.cursor (s.fittingBits src)).setCursor
      (s.cursor + 8 * s.wholeBytes src.length)).answered .ok
      (truncWarn src.length (s.wholeBytes src.length)) (s.wholeBytes src.length) 0) := by
  have hpop : s.popDin src.length = some (src, { s with din := rest }) := by
    rw [State.popDin_enough s _ (by simp [hdin]), hdin, List.take_left, List.drop_left]
  show execBcWrb len s = _
  rw [execBcWrb, if_neg (by omega), ← hsrc, hpop]
  dsimp only
  rw [Run.wrBytes_eq]
  exact Run.begin_warn_respond _ _ .ok _ _

/-- Settles O29: the bits put are those of the first bytes popped, all of which fit, and only BUF, POS, DIN and TRUNC are written. -/
theorem bcWrbWritesWholeBytes : Obligations.BcWrbWritesWholeBytes := by
  intro s len src rest
  refine ⟨exec_bcWrb_refused, fun hlen hdin hsrc => ?_⟩
  have hexec := exec_bcWrb_eq hlen hdin hsrc
  have hput := s.min_fittingBits_avail src
  rw [← hsrc]
  refine ⟨_, s.wholeBytes src.length, rfl, hexec, ?_, fun i j hi hj => ?_, fun a ha => ?_, fun k hk => ?_⟩
  · conv_lhs => rw [State.putBits_eq]
    rfl
  · have hin : 8 * i + j < min (s.fittingBits src).length s.avail := by omega
    rw [State.bufBit_answered, State.bufBit_setCursor, Nat.add_assoc]
    exact (State.bufBit_putBits_cursor { s with din := rest } _ hin).trans (s.fittingBits_getD src hi hj)
  · rw [← hput] at ha
    rw [State.bufBit_answered, State.bufBit_setCursor]
    exact State.bufBit_putBits_kept { s with din := rest } _ ha
  · rw [← hput] at hk
    rw [State.bufByte_answered, State.bufByte_setCursor]
    exact State.bufByte_putBits_kept { s with din := rest } _ hk

end Sys2Proof.Machine
end

section
/-! PROOF. The format sniffer (41_format_sniffer.md): which kind HS.DETECT finds, as a prefix of the attached region, and KIND.SET. -/

namespace Sys2Proof.Machine

/-! ## The literal at the start of the region -/

@[simp] theorem State.memRead_length (s : State) (a n : Nat) : (s.memRead a n).length = n := by simp [State.memRead]

theorem State.memRead_take (s : State) (a : Nat) {m n : Nat} (h : m ≤ n) : (s.memRead a n).take m = s.memRead a m := by
  rw [State.memRead, ← List.map_take, List.take_range, Nat.min_eq_left h, State.memRead]

/-- The test R121 makes for a literal: the region is at least as long and begins with it. -/
theorem State.region_prefix_iff (s : State) (lit : List Byte) :
    lit <+: s.memRead 0 s.len.toNat ↔ lit.length ≤ s.len.toNat ∧ s.memRead 0 lit.length = lit := by
  constructor
  · intro h
    have hlen : lit.length ≤ s.len.toNat := by simpa using h.length_le
    exact ⟨hlen, by rw [← s.memRead_take 0 hlen]; exact (List.prefix_iff_eq_take.1 h).symm⟩
  · rintro ⟨hlen, hread⟩
    rw [List.prefix_iff_eq_take, s.memRead_take 0 hlen, hread]

/-- Neither literal is a prefix of the other, so no bytes begin with both. -/
theorem not_magicNB_prefix_of_magicWB_prefix {bs : List Byte} (hwb : magicWB <+: bs) : ¬ magicNB <+: bs := fun hnb =>
  absurd (List.prefix_of_prefix_length_le hnb hwb (by decide)) (by decide)

theorem State.detectKind_eq (s : State) :
    s.detectKind = if magicWB <+: s.memRead 0 s.len.toNat then .wb
      else if magicNB <+: s.memRead 0 s.len.toNat then .nb else .unknown := by
  simp only [State.detectKind, State.region_prefix_iff]

theorem State.detectKind_eq_wb_iff (s : State) : s.detectKind = .wb ↔ magicWB <+: s.memRead 0 s.len.toNat := by
  rw [State.detectKind_eq]
  split_ifs with hwb hnb <;> simp [hwb]

theorem State.detectKind_eq_nb_iff (s : State) : s.detectKind = .nb ↔ magicNB <+: s.memRead 0 s.len.toNat := by
  rw [State.detectKind_eq]
  split_ifs with hwb hnb
  · simp [not_magicNB_prefix_of_magicWB_prefix hwb]
  · simp [hnb]
  · simp [hnb]

theorem State.detectKind_eq_unknown_iff (s : State) :
    s.detectKind = .unknown ↔ ¬ magicNB <+: s.memRead 0 s.len.toNat ∧ ¬ magicWB <+: s.memRead 0 s.len.toNat := by
  rw [← s.detectKind_eq_nb_iff, ← s.detectKind_eq_wb_iff]
  cases s.detectKind <;> decide

/-! ## HS.DETECT -/

theorem exec_hsDetect_eq {s : State} {k : Kind} (h : s.detectKind = k) :
    exec .hsDetect s = .next ({ s with kind := k }.answered .ok 0 (kindCode k) (headerLength k)) := by
  subst h
  exact Run.begin_respond { s with kind := s.detectKind } _ _ _

/-- Settles O33: each case of R121 says, through `State.region_prefix_iff`, which kind is detected. -/
theorem hsDetectRecognisesTheLiterals : Obligations.HsDetectRecognisesTheLiterals := by
  intro s
  have hwb := s.region_prefix_iff magicWB
  have hnb := s.region_prefix_iff magicNB
  refine ⟨fun h => exec_hsDetect_eq (s.detectKind_eq_wb_iff.2 (hwb.2 h)),
    fun h => exec_hsDetect_eq (s.detectKind_eq_nb_iff.2 (hnb.2 h)), fun h9 h6 => exec_hsDetect_eq ?_⟩
  exact s.detectKind_eq_unknown_iff.2 ⟨fun h => h6 (hnb.1 h), fun h => h9 (hwb.1 h)⟩

theorem kindCode_lt (k : Kind) : kindCode k < 2 ^ 32 := by cases k <;> decide

/-- HS.DETECT answers a kind, in KIND and as its code in `R0`, exactly when it is the kind detected (R122). -/
theorem hsDetect_answers_iff (s : State) (k : Kind) :
    (∃ (t : State) (r : Rsp), exec .hsDetect s = .next t ∧ t.kind = k ∧ t.rsps = s.rsps ++ [r] ∧ r.r0.toNat = kindCode k) ↔
      s.detectKind = k := by
  constructor
  · rintro ⟨t, r, hexec, hkind, -, -⟩
    rw [exec_hsDetect_eq rfl] at hexec
    cases hexec
    exact hkind
  · intro h
    refine ⟨_, _, exec_hsDetect_eq h, rfl, rfl, ?_⟩
    rw [BitVec.toNat_ofNat, Nat.mod_eq_of_lt (kindCode_lt k)]

/-- A prefix as the statements write it. -/
theorem exists_eq_append_iff_prefix (bs lit : List Byte) : (∃ x, bs = lit ++ x) ↔ lit <+: bs :=
  exists_congr fun _ => eq_comm

/-- Settles O34: the kind answered is the one detected, and `State.detectKind` is determined by the literal that is a prefix of the
region. -/
theorem hsDetectClassifiesEveryRegion : Obligations.HsDetectClassifiesEveryRegion := by
  intro s k
  have hanswers := hsDetect_answers_iff s k
  cases k with
  | nb =>
    refine (hanswers.trans s.detectKind_eq_nb_iff).trans ?_
    simp [← exists_eq_append_iff_prefix, magicNB]
  | wb =>
    refine (hanswers.trans s.detectKind_eq_wb_iff).trans ?_
    simp [← exists_eq_append_iff_prefix, magicWB]
  | unknown =>
    refine (hanswers.trans s.detectKind_eq_unknown_iff).trans ?_
    simp [← exists_eq_append_iff_prefix, magicNB, magicWB, forall_and]

/-! ## KIND.SET -/

theorem exec_kindSet_nb (s : State) {kind : Word} (h : kind.toNat = 1) :
    exec (.kindSet kind) s = .next ({ s with kind := .nb }.answered .ok 0 0 0) := by
  show execKindSet kind s = _
  rw [execKindSet, if_pos h, Run.begin_respond]

theorem exec_kindSet_wb (s : State) {kind : Word} (h : kind.toNat = 2) :
    exec (.kindSet kind) s = .next ({ s with kind := .wb }.answered .ok 0 0 0) := by
  show execKindSet kind s = _
  rw [execKindSet, if_neg (by omega), if_pos h, Run.begin_respond]

theorem exec_kindSet_refused (s : State) {kind : Word} (h1 : kind.toNat ≠ 1) (h2 : kind.toNat ≠ 2) :
    exec (.kindSet kind) s = .next (s.answered .badOperand 0 0 0) := by
  show execKindSet kind s = _
  rw [execKindSet, if_neg h1, if_neg h2, Run.begin_raise]

/-- Settles O35: the three branches of R124. -/
theorem kindSetTakesOneOrTwo : Obligations.KindSetTakesOneOrTwo := fun s _ =>
  ⟨exec_kindSet_nb s, exec_kindSet_wb s, fun ⟨h1, h2⟩ => exec_kindSet_refused s h1 h2⟩

end Sys2Proof.Machine
end

section
/-! PROOF. The TOC codec (42_toc_codec.md): one equation per case of TOC.DEC (R132) and of TOC.ENC (R137), and what each case writes. -/

namespace Sys2Proof.Machine

/-! ## TOC.DEC -/

theorem exec_tocDec_noData {s : State} (h : s.avail < 8) : exec .tocDec s = .next (s.answered .noData 0 0 0) := by
  show execTocDec s = _
  rw [execTocDec, Run.tocRead_noData (Run.begin s) h]
  exact Run.begin_raise s .noData

/-- TOC.DEC where no entry under the cap ends the chain: the store is emptied, and the cursor is after the entries read (R132). -/
theorem exec_tocDec_malformed {s : State} (h : 8 ≤ s.avail)
    (hF : ∀ i, i < Config.tocCap → octetF (s.octetAt (s.cursor + 8 * i)) = true) :
    exec .tocDec s = .next (((s.advance (8 * Config.tocCap)).setToc []).answered .malformedToc
      (truncWarn (8 * Config.tocCap) s.avail) 0 0) := by
  show execTocDec s = _
  rw [execTocDec, Run.tocRead_malformed (Run.begin s) h hF]
  exact Run.begin_warn_respond ((s.advance _).setToc []) _ .malformedToc 0 0

@[simp] theorem State.octetsFrom_length (s : State) (a k : Nat) : (s.octetsFrom a k).length = k := by simp [State.octetsFrom]

theorem Run.readOctets_cursor (o : Run) (k : Nat) : (o.readOctets k).st.cursor = min (o.st.cursor + 8 * k) o.st.limit := by
  simp [Run.readOctets]

/-- TOC.DEC where entry `k - 1` is the first with F = 0: the chain goes to the TOC store and onto DOUT (R132). -/
theorem exec_tocDec_chain {s : State} {k : Nat} (h : 8 ≤ s.avail) (h1 : 1 ≤ k) (hk : k ≤ Config.tocCap)
    (hF : ∀ i, i < k - 1 → octetF (s.octetAt (s.cursor + 8 * i)) = true)
    (hL : octetF (s.octetAt (s.cursor + 8 * (k - 1))) = false) :
    exec .tocDec s = .next ((((s.advance (8 * k)).setToc (s.octetsFrom s.cursor k)).pushDout (s.octetsFrom s.cursor k)).answered .ok
      (truncWarn (8 * k) s.avail) k ((min (s.cursor + 8 * k) s.limit - s.cursor) / 8)) := by
  show execTocDec s = _
  rw [execTocDec, Run.tocRead_chain (Run.begin s) k h h1 hk hF hL]
  dsimp only
  rw [State.octetsFrom_length, Run.readOctets_cursor]
  exact Run.begin_warn_respond (((s.advance (8 * k)).setToc (s.octetsFrom s.cursor k)).pushDout (s.octetsFrom s.cursor k)) _ .ok _ _

/-- Settles O36: the three cases of TocRead, each with the whole next state. -/
theorem tocDecDecodesOneChain : Obligations.TocDecDecodesOneChain := by
  intro s
  refine ⟨exec_tocDec_noData, fun h hF => ?_, fun k h h1 hk hF hL => ?_⟩
  · exact ⟨_, exec_tocDec_malformed h hF, (s.advance 160).setToc_tocIs [] (Nat.zero_le _), rfl⟩
  · exact ⟨_, s.octetsFrom s.cursor k, rfl, exec_tocDec_chain h h1 hk hF hL,
      (s.advance (8 * k)).setToc_tocIs _ (by rwa [State.octetsFrom_length]), rfl⟩

/-! ## TOC.ENC -/

/-- The octets TOC.ENC writes for the input bytes `src`: their frame types and quality bits, F computed from the position (R136, R137). -/
def reencoded (src : List Byte) : List Byte := chainOctets (src.map fun b => (octetFt b, octetQ b))

@[simp] theorem reencoded_length (src : List Byte) : (reencoded src).length = src.length := by
  rw [reencoded, chainOctets_length, List.length_map]

/-- An octet rebuilt from the frame type and the quality bit of a byte keeps bits 6..2 of it (R69). -/
theorem tocOctet_octetFt_octetQ (f : Bool) (b : Byte) :
    tocOctet f (octetFt b) (octetQ b) = (if f then 0x80 else 0) ||| (b &&& 0x7C) := by
  revert f b; decide

theorem reencoded_getD {src : List Byte} {i : Nat} (h : i < src.length) :
    (reencoded src).getD i 0 = (if i + 1 < src.length then 0x80 else 0) ||| (src.getD i 0 &&& 0x7C) := by
  rw [reencoded, List.getD_eq_getElem?_getD, chainOctets_getElem _ i (by rwa [List.length_map]), Option.getD_some,
    List.getD_eq_getElem _ _ h]
  simp only [List.getElem_map, List.length_map, tocOctet_octetFt_octetQ, decide_eq_true_eq]

theorem State.popDin_append {s : State} {src rest : List Byte} (h : s.din = src ++ rest) :
    s.popDin src.length = some (src, { s with din := rest }) := by
  rw [State.popDin_enough s _ (by simp [h]), h, List.take_left, List.drop_left]

theorem exec_tocEnc_refused {s : State} {k : Word} (h : k.toNat < 1 ∨ Config.tocCap < k.toNat) :
    exec (.tocEnc k) s = .next (s.answered .badOperand 0 0 0) := by
  show execTocEnc k s = _
  rw [execTocEnc, if_pos h, Run.begin_raise]

section
variable {s : State} {k : Word} {src rest : List Byte}

theorem exec_tocEnc_noSpace (h1 : 1 ≤ k.toNat) (h2 : k.toNat ≤ Config.tocCap) (hdin : s.din = src ++ rest)
    (hsrc : src.length = k.toNat) (h : s.avail < 8 * k.toNat) :
    exec (.tocEnc k) s = .next ({ s with din := rest }.answered .noSpace 0 0 0) := by
  show execTocEnc k s = _
  rw [execTocEnc, if_neg (by omega), ← hsrc, State.popDin_append hdin]
  dsimp only
  rw [hsrc]
  exact (if_pos h).trans (Run.begin_raise _ _)

/-- TOC.ENC with room: the octets put at the cursor and kept in the TOC store, and the cursor moved past them (R137). -/
theorem exec_tocEnc_room (h1 : 1 ≤ k.toNat) (h2 : k.toNat ≤ Config.tocCap) (hdin : s.din = src ++ rest)
    (hsrc : src.length = k.toNat) (h : 8 * k.toNat ≤ s.avail) :
    exec (.tocEnc k) s = .next ((({ s with din := rest }.wrote (bytesBits (reencoded src))).setToc (reencoded src)).answered .ok 0
      k.toNat k.toNat) := by
  have hc : s.cursor ≤ s.limit := by unfold State.avail at h; omega
  show execTocEnc k s = _
  rw [execTocEnc, if_neg (by omega), ← hsrc, State.popDin_append hdin]
  dsimp only
  rw [hsrc]
  refine (if_neg (Nat.not_lt.2 h)).trans ?_
  rw [Run.tocWrite_room _ _ (by rwa [List.length_map, hsrc]) hc]
  exact Run.begin_respond (({ s with din := rest }.wrote (bytesBits (reencoded src))).setToc (reencoded src)) .ok _ _

end

/-- Bits written with room for them change BUF, and leave the cursor at their end. -/
theorem State.wrote_room_eq {s : State} {bs : List Bool} (hc : s.cursor ≤ s.limit) (h : bs.length ≤ s.avail) :
    s.wrote bs = { s with buf := (s.wrote bs).buf, pos := BitVec.ofNat 32 (s.cursor + bs.length) } := by
  have hpos : (s.wrote bs).pos = BitVec.ofNat 32 (s.cursor + bs.length) := by
    rw [← s.wrote_cursor bs hc h, State.cursor, BitVec.ofNat_toNat, BitVec.setWidth_eq]
  rw [← hpos]
  exact s.wrote_eq bs

/-- Settles O39: with room TOC.ENC writes one run of bits, whose octets stand at the old cursor (`State.wrote_holdsAt`). -/
theorem tocEncWritesOneChain : Obligations.TocEncWritesOneChain := by
  intro s k src rest
  refine ⟨exec_tocEnc_refused, exec_tocEnc_noSpace, fun h1 h2 hdin hsrc h => ?_⟩
  have hc : s.cursor ≤ s.limit := by unfold State.avail at h; omega
  have hlen : (reencoded src).length = k.toNat := (reencoded_length src).trans hsrc
  have hbits : (bytesBits (reencoded src)).length = 8 * k.toNat := by rw [bytesBits_length, hlen]
  have hwrote := State.wrote_room_eq (s := { s with din := rest }) hc (hbits.trans_le h)
  rw [hbits] at hwrote
  refine ⟨_, reencoded src, exec_tocEnc_room h1 h2 hdin hsrc h, hlen, fun i hi => ?_, ?_, ?_, ?_, fun a ha => ?_, fun b hb => ?_⟩
  · rw [← hsrc] at hi ⊢
    exact reencoded_getD hi
  · conv_lhs => rw [hwrote]
    rfl
  · exact ({ s with din := rest }.wrote (bytesBits (reencoded src))).setToc_tocIs (reencoded src) (hlen.trans_le h2)
  · exact State.wrote_holdsAt { s with din := rest } (reencoded src) hc (by rwa [hlen])
  · rw [← hbits] at ha
    exact State.wrote_bufBit { s with din := rest } _ ha
  · rw [← hbits] at hb
    exact State.wrote_bufByte { s with din := rest } _ hb

end Sys2Proof.Machine
end

section
/-! PROOF. The frame-length tables (43_frame_tables.md): the entries read, validity (R155), the payload length (R154), and one equation
per case of FL.LOOKUP (R156). -/

namespace Sys2Proof.Machine

/-! ## The tables, validity and the payload length -/

/-- The default of a table's list is never read at one of its 16 indices. -/
theorem toList_getD_fin {n : Nat} (v : Vector Byte n) (i : Fin n) : v.toList.getD i 0 = v[i] := by
  rw [List.getD_eq_getElem _ _ (by simp), Vector.getElem_toList]
  rfl

theorem flen_nb (c : Config) (i : Fin 16) : flen c .nb i = (c.flenNB[i]).toNat := congrArg BitVec.toNat (toList_getD_fin c.flenNB i)

theorem flen_wb (c : Config) (i : Fin 16) : flen c .wb i = (c.flenWB[i]).toNat := congrArg BitVec.toNat (toList_getD_fin c.flenWB i)

theorem validFt_iff (c : Config) (k : Kind) (ft : Nat) :
    validFt c k ft = true ↔ k ≠ .unknown ∧ ft ≤ ftmax c k ∧ 1 ≤ flen c k ft := decide_eq_true_iff

theorem validFt_eq_false {c : Config} {k : Kind} {ft : Nat} (h : ftmax c k < ft ∨ flen c k ft = 0) : validFt c k ft = false := by
  rw [Bool.eq_false_iff, Ne, validFt_iff]
  omega

theorem paylen_of_valid {c : Config} {k : Kind} {ft : Nat} (h : validFt c k ft = true) : paylen c k ft = flen c k ft - 1 := if_pos h

theorem paylen_of_invalid {c : Config} {k : Kind} {ft : Nat} (h : validFt c k ft = false) : paylen c k ft = 0 := by
  rw [paylen, h, if_neg Bool.false_ne_true]

theorem paylen_add_one {c : Config} {k : Kind} {ft : Nat} (h : validFt c k ft = true) : paylen c k ft + 1 = flen c k ft := by
  obtain ⟨-, -, hentry⟩ := (validFt_iff c k ft).1 h
  rw [paylen_of_valid h, Nat.sub_add_cancel hentry]

/-! ## FL.LOOKUP -/

section
variable {s : State} {ft : Word}

theorem exec_flLookup_badOperand (h : 15 < ft.toNat) : exec (.flLookup ft) s = .next (s.answered .badOperand 0 0 0) := by
  show execFlLookup ft s = _
  rw [execFlLookup, if_pos h, Run.begin_raise]

theorem exec_flLookup_unknownFormat (h : ft.toNat ≤ 15) (hk : s.kind = .unknown) :
    exec (.flLookup ft) s = .next (s.answered .unknownFormat 0 0 0) := by
  show execFlLookup ft s = _
  rw [execFlLookup, if_neg (Nat.not_lt.2 h), if_pos hk, Run.begin_raise]

theorem exec_flLookup_invalid (h : ft.toNat ≤ 15) (hk : s.kind ≠ .unknown) (hv : validFt s.cfg s.kind ft.toNat = false) :
    exec (.flLookup ft) s = .next (s.answered .invalidFrameType 0 0 0) := by
  show execFlLookup ft s = _
  rw [execFlLookup, if_neg (Nat.not_lt.2 h), if_neg hk, if_pos hv, Run.begin_raise]

/-- FL.LOOKUP of a valid index; validity says that the kind is known (R155). -/
theorem exec_flLookup_valid (h : ft.toNat ≤ 15) (hv : validFt s.cfg s.kind ft.toNat = true) :
    exec (.flLookup ft) s =
      .next (s.answered .ok 0 (flen s.cfg s.kind ft.toNat) (flen s.cfg s.kind ft.toNat - 1)) := by
  obtain ⟨hk, -, -⟩ := (validFt_iff _ _ _).1 hv
  show execFlLookup ft s = _
  rw [execFlLookup, if_neg (Nat.not_lt.2 h), if_neg hk, if_neg (by simp [hv]), Run.begin_respond, paylen_of_valid hv]

end

/-- Settles O42: what the tables, validity and the payload length are, then the four branches of R156 in their order. -/
theorem flLookupReadsTheTable : Obligations.FlLookupReadsTheTable := by
  refine ⟨fun c i => ⟨flen_nb c i, flen_wb c i⟩, fun _ => ⟨rfl, rfl⟩,
    fun c k ft => ⟨validFt_iff c k ft, paylen_add_one, paylen_of_invalid⟩, fun s ft => ?_⟩
  refine ⟨exec_flLookup_badOperand, exec_flLookup_unknownFormat, fun h hk hbad => ?_, fun h hk hmax hentry => ?_⟩
  · exact exec_flLookup_invalid h hk (validFt_eq_false hbad)
  · exact exec_flLookup_valid h ((validFt_iff _ _ _).2 ⟨hk, hmax, hentry⟩)

end Sys2Proof.Machine
end

section
/-! PROOF. The frame demultiplexer (44_frame_demux.md): one equation per case of GRP.DEC (R161), and what each case writes. -/

namespace Sys2Proof.Machine

/-! ## GRP.DEC before a chain is read -/

theorem exec_grpDec_unknownFormat {s : State} (h : s.kind = .unknown) :
    exec .grpDec s = .next (s.answered .unknownFormat 0 0 0) := by
  show execGrpDec s = _
  rw [execGrpDec, if_pos h, Run.begin_raise]

theorem exec_grpDec_noData {s : State} (hkind : s.kind ≠ .unknown) (h : s.avail < 8) :
    exec .grpDec s = .next (s.answered .noData 0 0 0) := by
  show execGrpDec s = _
  rw [execGrpDec, if_neg hkind, Run.tocRead_noData (Run.begin s) h]
  exact Run.begin_raise s .noData

/-- GRP.DEC where no entry under the cap ends the chain: the store is emptied, and the cursor is after the entries read (R161). -/
theorem exec_grpDec_malformed {s : State} (hkind : s.kind ≠ .unknown) (h : 8 ≤ s.avail)
    (hF : ∀ i, i < Config.tocCap → octetF (s.octetAt (s.cursor + 8 * i)) = true) :
    exec .grpDec s = .next (((s.advance (8 * Config.tocCap)).setToc []).answered .malformedToc
      (truncWarn (8 * Config.tocCap) s.avail) 0 ((min (s.cursor + 8 * Config.tocCap) s.limit - s.cursor) / 8)) := by
  show execGrpDec s = _
  rw [execGrpDec, if_neg hkind, Run.tocRead_malformed (Run.begin s) h hF]
  dsimp only
  rw [Run.readOctets_cursor]
  exact Run.begin_warn_respond ((s.advance (8 * Config.tocCap)).setToc []) _ .malformedToc 0 _

/-! ## The chain and the payload check -/

/-- `s` after steps 1 and 2 of GRP.DEC for a chain of `k` octets, but for the flags: the chain kept, the cursor after it, and the
expected and the remaining payload length (R161, R164). -/
def State.chainTaken (s : State) (k : Nat) : State :=
  { (s.advance (8 * k)).setToc (s.octetsFrom s.cursor k) with
    exppay := BitVec.ofNat 32 (expectedPay s.cfg s.kind (s.octetsFrom s.cursor k))
    rempay := BitVec.ofNat 32 ((s.advance (8 * k)).avail / 8) }

theorem State.chainTaken_cursor (s : State) (k : Nat) : (s.chainTaken k).cursor = min (s.cursor + 8 * k) s.limit :=
  State.cursor_advance s (8 * k)

theorem State.chainTaken_tocIs (s : State) {k : Nat} (hk : k ≤ Config.tocCap) :
    (s.chainTaken k).tocIs (s.octetsFrom s.cursor k) :=
  State.setToc_tocIs (s.advance (8 * k)) _ (by rwa [State.octetsFrom_length])

/-- GRP.DEC where entry `k - 1` is the first with F = 0 goes on with the frames of that chain (R161). -/
theorem exec_grpDec_chain {s : State} {k : Nat} (hkind : s.kind ≠ .unknown) (h : 8 ≤ s.avail) (h1 : 1 ≤ k) (hk : k ≤ Config.tocCap)
    (hF : ∀ i, i < k - 1 → octetF (s.octetAt (s.cursor + 8 * i)) = true)
    (hL : octetF (s.octetAt (s.cursor + 8 * (k - 1))) = false) :
    exec .grpDec s = grpDecFrames s.cursor (s.octetsFrom s.cursor k) 0 ((Run.begin (s.chainTaken k)).warn
      (truncWarn (8 * k) s.avail ||| plmWarn (expectedPay s.cfg s.kind (s.octetsFrom s.cursor k)) ((s.advance (8 * k)).avail / 8))) := by
  show execGrpDec s = _
  rw [execGrpDec, if_neg hkind, Run.tocRead_chain (Run.begin s) k h h1 hk hF hL, ← Run.warn_warn]
  rfl

/-! ## The frames -/

/-- `s` after the frames of the valid entries `es` are decoded with the blocks `blks`, but for the flags: their payloads, as far as
there are any, are behind the cursor, and their records sent (R161, R166 to R169). -/
def State.framesDecoded (s : State) (es : List Byte) (blks rest : List PcmBlock) : State :=
  { s with
    pos := BitVec.ofNat 32 (s.cursor + 8 * s.wholeBytes (expectedPay s.cfg s.kind es))
    pout := s.pout ++ blks, decReps := rest
    engReqs := s.engReqs ++ (s.legacyRecords s.cursor (s.avail / 8) 0 es).map EngReq.decode }

theorem State.framesDecoded_cursor {s : State} (hc : s.cursor ≤ s.limit) (es : List Byte) (blks rest : List PcmBlock) :
    (s.framesDecoded es blks rest).cursor = s.cursor + 8 * s.wholeBytes (expectedPay s.cfg s.kind es) := by
  have hroom := (s.wholeBytes_le (expectedPay s.cfg s.kind es)).1
  have hlimit := s.limit_lt
  unfold State.avail at hroom
  exact State.cursor_setCursor s (by omega)

theorem take_eq_map_getD (es : List Byte) {m : Nat} (h : m ≤ es.length) : es.take m = (List.range m).map (es.getD · 0) := by
  apply List.ext_getElem
  · simpa using h
  · intro i hi _
    have hi : i < es.length := by rw [List.length_take] at hi; omega
    simp [hi]

/-- Records depend on the tables, the kind and the bytes of the region only. -/
theorem State.legacyRecords_congr {s t : State} (hc : t.cfg = s.cfg) (hk : t.kind = s.kind) (hb : t.buf = s.buf) (he : t.epoch = s.epoch)
    (hl : t.len = s.len) (a n off : Nat) (es : List Byte) : t.legacyRecords a n off es = s.legacyRecords a n off es :=
  State.legacyRecords_shift s t a a n n off off 0 es hc hk hb he hl (Nat.zero_add off).symm (fun _ => rfl) rfl

section
variable {s : State} {es : List Byte} {blks rest : List PcmBlock} {pos0 nblk : Nat} {w : BitVec 3}

/-- `grpDecFrames_valid` for an operation that has raised the warnings `w` so far. -/
theorem grpDecFrames_framesDecoded (more : List Byte) (hv : ∀ e ∈ es, validFt s.cfg s.kind (octetFt e).toNat = true)
    (hc : s.cursor ≤ s.limit) (hd : s.decReps = blks ++ rest) (hl : blks.length = es.length) :
    grpDecFrames pos0 (es ++ more) nblk ((Run.begin s).warn w) = grpDecFrames pos0 more (nblk + es.length)
      ((Run.begin (s.framesDecoded es blks rest)).warn (w ||| truncWarn (expectedPay s.cfg s.kind es) (s.avail / 8))) := by
  rw [grpDecFrames_valid pos0 es more nblk _ blks rest hv hc hd hl, ← Run.warn_warn,
    State.legacyRecords_congr (s := s) (t := ((Run.begin s).warn w).st) rfl rfl rfl rfl rfl]
  rfl

/-- An entry with an invalid frame type ends the operation where it stands (R166). -/
theorem grpDecFrames_invalid {e : Byte} {o : Run} (h : validFt o.st.cfg o.st.kind (octetFt e).toNat = false) :
    grpDecFrames pos0 (e :: es) nblk o = o.respond .invalidFrameType nblk ((o.st.cursor - pos0) / 8) := by
  rw [grpDecFrames, if_pos h]

/-- Step 3 of GRP.DEC over a whole chain: the first `m` entries, all valid, are decoded, and the entry after them, if there is one,
is invalid and ends the operation (R161, R166). -/
theorem grpDecFrames_group {m : Nat} (hm : m ≤ es.length) (hc : s.cursor ≤ s.limit)
    (hv : ∀ i, i < m → validFt s.cfg s.kind (octetFt (es.getD i 0)).toNat = true)
    (hbad : m < es.length → validFt s.cfg s.kind (octetFt (es.getD m 0)).toNat = false)
    (hd : s.decReps = blks ++ rest) (hl : blks.length = m) :
    grpDecFrames pos0 es 0 ((Run.begin s).warn w) = .next ((s.framesDecoded (es.take m) blks rest).answered
      (if m = es.length then .ok else .invalidFrameType)
      (w ||| truncWarn (expectedPay s.cfg s.kind (es.take m)) (s.avail / 8)) m
      (((s.framesDecoded (es.take m) blks rest).cursor - pos0) / 8)) := by
  have htake : (es.take m).length = m := List.length_take_of_le hm
  have hvalid : ∀ e ∈ es.take m, validFt s.cfg s.kind (octetFt e).toNat = true := by
    rw [take_eq_map_getD es hm]
    simpa using hv
  conv_lhs => rw [← List.take_append_drop m es]
  rw [grpDecFrames_framesDecoded _ hvalid hc hd (hl.trans htake.symm), htake, Nat.zero_add]
  obtain rfl | hlt := Nat.eq_or_lt_of_le hm
  · rw [List.drop_length, if_pos rfl]
    exact Run.begin_warn_respond _ _ .ok _ _
  · have hbad := hbad hlt
    rw [List.getD_eq_getElem _ _ hlt] at hbad
    rw [List.drop_eq_getElem_cons hlt, if_neg hlt.ne, grpDecFrames_invalid hbad]
    exact Run.begin_warn_respond _ _ .invalidFrameType _ _

end

/-! ## Records and payload lengths by the entry's index -/

theorem expectedPay_map {ι : Type} (c : Config) (k : Kind) (l : List ι) (f : ι → Byte) :
    expectedPay c k (l.map f) = (l.map fun i => paylen c k (octetFt (f i)).toNat).sum := by
  rw [expectedPay, List.map_map]
  rfl

theorem State.legacyRecords_append (s : State) (a n off : Nat) (xs ys : List Byte) :
    s.legacyRecords a n off (xs ++ ys) =
      s.legacyRecords a n off xs ++ s.legacyRecords a n (off + expectedPay s.cfg s.kind xs) ys := by
  induction xs generalizing off with
  | nil => rfl
  | cons x xs ih =>
    rw [List.cons_append, State.legacyRecords, ih, Nat.add_assoc]
    rfl

/-- The legacy record of entry `i`: its payload begins where the payloads of the entries before it end (R167, R168). -/
theorem State.legacyRecords_map_range (s : State) (a n : Nat) (f : Nat → Byte) (m : Nat) :
    s.legacyRecords a n 0 ((List.range m).map f) = (List.range m).map fun i =>
      tocOctet false (octetFt (f i)) (octetQ (f i)) :: (List.range (paylen s.cfg s.kind (octetFt (f i)).toNat)).map fun j =>
        s.tailByte a n (expectedPay s.cfg s.kind ((List.range i).map f) + j) := by
  induction m with
  | zero => rfl
  | succ m ih =>
    rw [List.range_succ, List.map_append, List.map_append, State.legacyRecords_append, ih, Nat.zero_add]
    rfl

/-! ## The whole operation -/

/-- The warnings of GRP.DEC: TRUNC when the chain or the payloads wanted more than there was, PLM when the check fails (R164, R237). -/
theorem truncWarn_or_plmWarn_or_truncWarn (wanted there expected remaining wanted' there' : Nat) :
    truncWarn wanted there ||| plmWarn expected remaining ||| truncWarn wanted' there' =
      (if there < wanted ∨ there' < wanted' then 1 else 0) ||| (if expected = remaining then 0 else 2) := by
  have htrunc : truncWarn wanted there ||| truncWarn wanted' there' = if there < wanted ∨ there' < wanted' then 1 else 0 := by
    unfold truncWarn
    by_cases h : there < wanted <;> by_cases h' : there' < wanted' <;> simp [h, h', wTrunc]
  rw [BitVec.or_assoc, BitVec.or_comm (plmWarn _ _), ← BitVec.or_assoc, htrunc]
  rfl

section
variable {s : State} {k start rem : Nat} (hstart : start = min (s.cursor + 8 * k) s.limit) (hrem : rem = (s.limit - start) / 8)
include hstart hrem

theorem State.chainTaken_avail : (s.chainTaken k).avail / 8 = rem := by
  rw [State.avail, State.chainTaken_cursor, hrem, hstart]
  rfl

/-- The state after the frames, written out against the state before the operation: `start` is the end of the chain, from which `rem`
whole bytes remain. -/
theorem State.chainTaken_framesDecoded (es : List Byte) (blks rest : List PcmBlock) :
    (s.chainTaken k).framesDecoded es blks rest = { s with
      pos := BitVec.ofNat 32 (start + 8 * min (expectedPay s.cfg s.kind es) rem)
      tocn := (s.chainTaken k).tocn, tocbuf := (s.chainTaken k).tocbuf
      exppay := BitVec.ofNat 32 (expectedPay s.cfg s.kind (s.octetsFrom s.cursor k)), rempay := BitVec.ofNat 32 rem
      pout := s.pout ++ blks, decReps := rest
      engReqs := s.engReqs ++ (s.legacyRecords start rem 0 es).map EngReq.decode } := by
  have havail := State.chainTaken_avail hstart hrem
  rw [State.framesDecoded, State.wholeBytes, State.chainTaken_cursor, ← hstart, havail,
    State.legacyRecords_congr (s := s) (t := s.chainTaken k) rfl rfl rfl rfl rfl, ← havail]
  rfl

/-- GRP.DEC of a chain of `k` octets of which the first `m` are decoded (R161). -/
theorem exec_grpDec_group {m : Nat} {ents : List Byte} {blks rest : List PcmBlock}
    (hkind : s.kind ≠ .unknown) (h : 8 ≤ s.avail) (h1 : 1 ≤ k) (hk : k ≤ Config.tocCap)
    (hF : ∀ i, i < k - 1 → octetF (s.octetAt (s.cursor + 8 * i)) = true)
    (hL : octetF (s.octetAt (s.cursor + 8 * (k - 1))) = false) (hents : ents = s.octetsFrom s.cursor k) (hm : m ≤ k)
    (hv : ∀ i, i < m → validFt s.cfg s.kind (octetFt (ents.getD i 0)).toNat = true)
    (hbad : m < k → validFt s.cfg s.kind (octetFt (ents.getD m 0)).toNat = false)
    (hd : s.decReps = blks ++ rest) (hl : blks.length = m) :
    exec .grpDec s = .next (((s.chainTaken k).framesDecoded (ents.take m) blks rest).answered
      (if m = k then .ok else .invalidFrameType)
      ((if s.avail < 8 * k ∨ rem < expectedPay s.cfg s.kind (ents.take m) then 1 else 0) |||
        (if expectedPay s.cfg s.kind ents = rem then 0 else 2)) m
      ((start + 8 * min (expectedPay s.cfg s.kind (ents.take m)) rem - s.cursor) / 8)) := by
  have hlen : ents.length = k := by rw [hents, State.octetsFrom_length]
  have hc : (s.chainTaken k).cursor ≤ (s.chainTaken k).limit := (s.chainTaken_cursor k).trans_le (Nat.min_le_right _ _)
  have havail : (s.advance (8 * k)).avail / 8 = rem := State.chainTaken_avail hstart hrem
  subst hlen
  rw [exec_grpDec_chain hkind h h1 hk hF hL, ← hents, grpDecFrames_group (s := s.chainTaken ents.length) hm hc hv hbad hd hl,
    truncWarn_or_plmWarn_or_truncWarn, State.framesDecoded_cursor hc, State.wholeBytes, State.chainTaken_cursor, ← hstart,
    State.chainTaken_avail hstart hrem, havail]
  rfl

end

/-- Settles O44: the cases before a chain are those of TocRead; with a chain, the entries before the first invalid one are decoded
(`exec_grpDec_group`), and the payload lengths and records of a part of the chain are read off by the entry's index. -/
theorem grpDecDecodesOneGroup : Obligations.GrpDecDecodesOneGroup := by
  intro s
  refine ⟨exec_grpDec_unknownFormat, exec_grpDec_noData, fun hkind h hF => ?_, ?_⟩
  · exact ⟨_, exec_grpDec_malformed hkind h hF, (s.advance 160).setToc_tocIs [] (Nat.zero_le _), rfl⟩
  intro k m start rem after ents len off tail blks rest w hkind h h1 hk hF hL hents hstart hrem hlen hoff htail hm hv hbad hd hl hw hafter
  change ents = s.octetsFrom s.cursor k at hents
  have hcount : ents.length = k := by rw [hents, State.octetsFrom_length]
  have hpay : ∀ i, expectedPay s.cfg s.kind ((List.range i).map (ents.getD · 0)) = off i := fun i => by
    rw [expectedPay_map, hoff, hlen]
  have htake : ents.take m = (List.range m).map (ents.getD · 0) := take_eq_map_getD ents (hm.trans_eq hcount.symm)
  have hfull : expectedPay s.cfg s.kind ents = off k := by
    rw [← hpay k, ← take_eq_map_getD ents hcount.ge, ← hcount, List.take_length]
  have hrecords : s.legacyRecords start rem 0 (ents.take m) = (List.range m).map fun i =>
      tocOctet false (octetFt (ents.getD i 0)) (octetQ (ents.getD i 0)) :: (List.range (len i)).map fun j => tail (off i + j) := by
    simp only [htake, State.legacyRecords_map_range, hpay, hlen, htail]
    rfl
  have hexec := exec_grpDec_group hstart hrem hkind h h1 hk hF hL hents hm hv hbad hd hl
  rw [hfull, htake, hpay, ← hw, ← hafter, ← htake] at hexec
  refine ⟨_, hexec, hents ▸ s.chainTaken_tocIs hk, ?_⟩
  conv_lhs => rw [State.chainTaken_framesDecoded hstart hrem, ← hents, hfull, htake, hpay, ← hafter, ← htake, hrecords, List.map_map]
  rfl

end Sys2Proof.Machine
end

section
/-! PROOF. The frame multiplexer (45_frame_mux.md): one equation per case of GRP.ENC (R181), and what each case writes. -/

namespace Sys2Proof.Machine

/-! ## GRP.ENC before a block is taken -/

theorem exec_grpEnc_unknownFormat {s : State} {nblk mode : Word} (h : s.kind = .unknown) :
    exec (.grpEnc nblk mode) s = .next (s.answered .unknownFormat 0 0 0) := by
  show execGrpEnc nblk mode s = _
  rw [execGrpEnc, if_pos h, Run.begin_raise]

theorem exec_grpEnc_badOperand {s : State} {nblk mode : Word} (hkind : s.kind ≠ .unknown) (h : Config.tocCap < nblk.toNat) :
    exec (.grpEnc nblk mode) s = .next (s.answered .badOperand 0 0 0) := by
  show execGrpEnc nblk mode s = _
  rw [execGrpEnc, if_neg hkind, if_pos h, Run.begin_raise]

/-! ## The blocks -/

/-- The replies whose size is plausible, which are not skipped (R184). -/
def keptReplies (c : Config) (k : Kind) (reps : List EncReply) : List EncReply := reps.filter fun r => plausible c k r.size

/-- The frames of the replies that are not skipped, in order (R181, R183). -/
def keptFrames (c : Config) (k : Kind) (reps : List EncReply) : List Frame := (keptReplies c k reps).map fun r => frameOf c r.record

theorem keptReplies_length_le (c : Config) (k : Kind) (reps : List EncReply) : (keptReplies c k reps).length ≤ reps.length :=
  List.length_filter_le _ _

@[simp] theorem keptFrames_length (c : Config) (k : Kind) (reps : List EncReply) :
    (keptFrames c k reps).length = (keptReplies c k reps).length := List.length_map _

/-- The warning of a GRP.ENC that has skipped so many blocks (R184). -/
def skipWarn (skipped : Nat) : BitVec 3 := if skipped = 0 then 0 else wEef

/-- `s` after steps 1 and 2 of GRP.ENC over the blocks `blks`, but for the flags: what is left on PIN and of the codec engine's replies,
and the blocks skipped counted (R181, R184). -/
def State.blocksEncoded (s : State) (mode : Word) (blks pin' : List PcmBlock) (enc' : List EncReply) (skipped : Nat) : State :=
  { s with
    pin := pin', encReps := enc', skipcnt := BitVec.ofNat 32 skipped
    engReqs := s.engReqs ++ blks.map fun b => EngReq.encode b mode }

/-- GRP.ENC with its blocks and replies at hand goes on with the emission of the frames kept (R181). -/
theorem exec_grpEnc_emit {s : State} {nblk mode : Word} {blks pin' : List PcmBlock} {reps enc' : List EncReply} {skipped : Nat}
    (hkind : s.kind ≠ .unknown) (hn : nblk.toNat ≤ Config.tocCap) (hpin : s.pin = blks ++ pin') (hblks : blks.length = nblk.toNat)
    (henc : s.encReps = reps ++ enc') (hreps : reps.length = nblk.toNat) (hc : ∀ r ∈ reps, r.contract s.cfg s.kind)
    (hskipped : skipped = nblk.toNat - (keptReplies s.cfg s.kind reps).length) :
    exec (.grpEnc nblk mode) s = grpEncEmit (keptFrames s.cfg s.kind reps)
      ((Run.begin (s.blocksEncoded mode blks pin' enc' skipped)).warn (skipWarn skipped)) := by
  have hle := (keptReplies_length_le s.cfg s.kind reps).trans_eq hreps
  have hwarn : skipWarn skipped = if (keptReplies s.cfg s.kind reps).length = nblk.toNat then 0 else wEef :=
    if_congr (by omega) rfl rfl
  have hblocks := grpEncBlocks_contract mode nblk.toNat [] (Run.begin { s with skipcnt := 0 }) blks pin' reps enc' hpin hblks henc hreps
    hc _ hwarn
  show execGrpEnc nblk mode s = _
  rw [execGrpEnc, if_neg hkind, if_neg (by omega), hblocks, Run.begin_warn, hskipped]
  simp only [Run.begin, BitVec.ofNat_eq_ofNat, BitVec.zero_add, BitVec.zero_or, List.nil_append]
  rfl

/-! ## The emission -/

/-- PutBit does not look at the flags. -/
theorem State.putBits_withFlags (s : State) (a : Nat) (bs : List Bool) (f : BitVec 3) :
    State.putBits { s with flags := f } a bs = { s.putBits a bs with flags := f } := by
  induction bs generalizing s a with
  | nil => rfl
  | cons b bs ih =>
    have h : State.putBit { s with flags := f } a b = { s.putBit a b with flags := f } := by
      unfold State.putBit
      rw [show State.limit { s with flags := f } = s.limit from rfl]
      split <;> rfl
    simp only [State.putBits, h, ih]

/-- A warning raised before bits are written at the cursor may as well be raised after. -/
theorem Run.warn_modify_wrote (o : Run) (w : BitVec 3) (bs : List Bool) :
    (o.warn w).modify (State.wrote · bs) = (o.modify (State.wrote · bs)).warn w := by
  simp only [Run.modify, Run.warn, State.wrote_flags, Run.mk.injEq, and_true]
  rw [State.wrote, State.putBits_withFlags]
  rfl

theorem groupBytes_length_pos {frames : List Frame} (hf : frames ≠ []) : 0 < (groupBytes frames).length := by
  rw [groupBytes_length, groupLength]
  exact Nat.add_pos_left (List.length_pos_iff.2 hf) _

section
variable (s : State) (w : BitVec 3) {frames : List Frame}

theorem grpEncEmit_nothing : grpEncEmit [] ((Run.begin s).warn w) = .next ((s.setToc []).answered .ok w 0 0) :=
  Run.begin_warn_respond (s.setToc []) w .ok 0 0

theorem grpEncEmit_noSpace (hf : frames ≠ []) (h : s.avail < 8 * (groupBytes frames).length) :
    grpEncEmit frames ((Run.begin s).warn w) = .next (s.answered .noSpace w 0 0) := by
  rw [groupBytes_length] at h
  rw [grpEncEmit, if_neg hf]
  exact (if_pos h).trans (Run.begin_warn_respond s w .noSpace 0 0)

/-- With room the group is put at the cursor, the cursor moved past it, and the chain kept in the TOC store (R181, R189). -/
theorem grpEncEmit_written (hf : frames ≠ []) (h : 8 * (groupBytes frames).length ≤ s.avail) :
    grpEncEmit frames ((Run.begin s).warn w) = .next (((s.wrote (bytesBits (groupBytes frames))).setToc (groupOctets frames)).answered
      .ok w frames.length (groupBytes frames).length) := by
  rw [grpEncEmit_room frames ((Run.begin s).warn w) hf h,
    ← Run.modify_modify _ (State.wrote · (bytesBits (groupBytes frames))) (State.setToc · (groupOctets frames)), Run.warn_modify_wrote]
  exact Run.begin_warn_respond ((s.wrote (bytesBits (groupBytes frames))).setToc (groupOctets frames)) w .ok _ _

end

/-- Settles O48: the blocks leave the frames of the plausible replies (`exec_grpEnc_emit`), and with room for them the group is one run of
bits, whose bytes stand at the old cursor (`State.wrote_holdsAt`). -/
theorem grpEncWritesOneGroup : Obligations.GrpEncWritesOneGroup := by
  intro s nblk mode blks pin' reps enc' kept frames base w skipped total
  refine ⟨exec_grpEnc_unknownFormat, exec_grpEnc_badOperand, ?_⟩
  intro hkind hn hpin hblks henc hreps hc hkept hframes hskipped hw htotal hbase
  change kept = keptReplies s.cfg s.kind reps at hkept
  subst hkept
  change frames = keptFrames s.cfg s.kind reps at hframes
  change w = skipWarn skipped at hw
  change base = s.blocksEncoded mode blks pin' enc' skipped at hbase
  have hexec := exec_grpEnc_emit hkind hn hpin hblks henc hreps hc (mode := mode) hskipped
  rw [← hframes, ← hw, ← hbase] at hexec
  have hcursor : base.cursor = s.cursor := by rw [hbase]; rfl
  have havail : base.avail = s.avail := by rw [hbase]; rfl
  rw [hexec, ← havail, ← hcursor, htotal]
  refine ⟨fun hnone => ?_, grpEncEmit_noSpace base w, fun hf hroom => ?_⟩
  · rw [hnone]
    exact ⟨_, grpEncEmit_nothing base w, base.setToc_tocIs [] (Nat.zero_le _), rfl⟩
  · have hcap : (groupOctets frames).length ≤ Config.tocCap := by
      rw [groupOctets_length, hframes, keptFrames_length]
      exact (keptReplies_length_le _ _ _).trans (hreps.trans_le hn)
    have hpos := groupBytes_length_pos hf
    have hin : base.cursor ≤ base.limit := by unfold State.avail at hroom; omega
    have hbits : (bytesBits (groupBytes frames)).length = 8 * (groupBytes frames).length := bytesBits_length _
    have hwrote := State.wrote_room_eq hin (hbits.trans_le hroom)
    have hbit : ∀ a, base.bufBit a = s.bufBit a := fun a => by rw [hbase]; rfl
    have hbyte : ∀ k, base.bufByte k = s.bufByte k := fun k => by rw [hbase]; rfl
    rw [hbits] at hwrote
    refine ⟨_, grpEncEmit_written base w hf hroom, ?_, ?_, ?_, fun a ha => ?_, fun k hk => ?_⟩
    · conv_lhs => rw [hwrote]
      rfl
    · exact (base.wrote (bytesBits (groupBytes frames))).setToc_tocIs (groupOctets frames) hcap
    · exact State.wrote_holdsAt base (groupBytes frames) hin hroom
    · rw [← hbits] at ha
      exact (State.wrote_bufBit base _ ha).trans (hbit a)
    · rw [← hbits] at hk
      exact (State.wrote_bufByte base _ hk).trans (hbyte k)

end Sys2Proof.Machine
end

section
/-! PROOF. The system operations (46_system_ops.md): one equation per case of CSR.RD, FLG.CLR, HM.LD, HM.ST and NOP, and what each case
writes (R201 to R207). -/

namespace Sys2Proof.Machine

/-! ## NOP -/

theorem exec_nop_eq (s : State) : exec .nop s = .next (s.answered .ok 0 0 0) := Run.begin_respond s .ok 0 0

/-- Settles O56: an answer of OK with no warning leaves FLAGS and ERR as they are (R207). -/
theorem nopChangesNothing : Obligations.NopChangesNothing := by
  intro s
  rw [exec_nop_eq, State.answered, errAfter_ok, BitVec.ofNat_eq_ofNat, BitVec.or_zero]
  rfl

/-! ## CSR.RD -/

/-- From index 10 on the register map holds the TOC store at 16 and up, and nothing else (R24). -/
theorem State.csr_of_ten_le (s : State) {i : Nat} (h : 10 ≤ i) :
    s.csr i = if 16 ≤ i ∧ i < 16 + Config.tocCap then some (s.tocEntry (i - 16)).toNat else none := by
  obtain ⟨j, rfl⟩ := Nat.exists_eq_add_of_le' h
  rfl

theorem State.csr_tocEntry (s : State) {i : Nat} (h : i < Config.tocCap) : s.csr (16 + i) = some (s.tocEntry i).toNat := by
  rw [s.csr_of_ten_le (by omega), if_pos ⟨by omega, by omega⟩, Nat.add_sub_cancel_left]

theorem State.csr_reserved (s : State) {i : Nat} (h : 10 ≤ i ∧ i ≤ 15 ∨ 16 + Config.tocCap ≤ i) : s.csr i = none := by
  rw [s.csr_of_ten_le (by omega), if_neg (by omega)]

theorem exec_csrRd_register {s : State} {idx : Word} {v : Nat} (h : s.csr idx.toNat = some v) :
    exec (.csrRd idx) s = .next (s.answered .ok 0 v 0) := by
  show execCsrRd idx s = _
  rw [execCsrRd, h]
  exact Run.begin_respond s .ok v 0

theorem exec_csrRd_reserved {s : State} {idx : Word} (h : s.csr idx.toNat = none) :
    exec (.csrRd idx) s = .next (s.answered .badOperand 0 0 0) := by
  show execCsrRd idx s = _
  rw [execCsrRd, h]
  exact Run.begin_raise s .badOperand

/-- Settles O51: indices 0 to 9 are each a row of the register map, and from 10 on the map is that of `State.csr_of_ten_le`. -/
theorem csrRdReadsTheRegisterMap : Obligations.CsrRdReadsTheRegisterMap := by
  intro s idx
  refine ⟨?_, ?_, ?_, ?_, ?_, ?_, ?_, ?_, ?_, ?_, fun i hi hidx => ?_, fun hidx => ?_⟩
  case refine_11 => exact exec_csrRd_register (hidx ▸ s.csr_tocEntry hi)
  case refine_12 => exact exec_csrRd_reserved (s.csr_reserved hidx)
  all_goals
    rintro rfl
    exact exec_csrRd_register rfl

/-! ## HM.LD -/

theorem exec_hmLd_refused {s : State} {addr len : Word} (h : s.cfg.bufmax < addr.toNat + len.toNat) :
    exec (.hmLd addr len) s = .next (s.answered .badOperand 0 0 0) := by
  show execHmLd addr len s = _
  rw [execHmLd, if_pos h, Run.begin_raise]

/-- HM.LD in range with its bytes `src` on DIN: all of them are popped and stored from byte index `addr` on (R204). -/
theorem exec_hmLd_eq {s : State} {addr len : Word} {src rest : List Byte} (h : addr.toNat + len.toNat ≤ s.cfg.bufmax)
    (hdin : s.din = src ++ rest) (hsrc : src.length = len.toNat) :
    exec (.hmLd addr len) s = .next (({ s with din := rest }.memWrite addr.toNat src).answered .ok 0 len.toNat 0) := by
  show execHmLd addr len s = _
  rw [execHmLd, if_neg (by omega), ← hsrc, State.popDin_append hdin]
  exact Run.begin_respond _ .ok _ 0

/-- Settles O53: the bytes popped are stored by one MemWrite, which `State.bufByte_memWrite` reads back. -/
theorem hmLdLoadsBytes : Obligations.HmLdLoadsBytes := by
  intro s addr len src rest
  refine ⟨exec_hmLd_refused, fun h hdin hsrc => ⟨_, exec_hmLd_eq h hdin hsrc, rfl, fun i hi => ?_, fun a ha => ?_⟩⟩
  · rw [State.bufByte_answered, State.bufByte_memWrite, if_pos (by omega), Nat.add_sub_cancel_left]
  · rw [State.bufByte_answered, State.bufByte_memWrite, if_neg (by omega)]
    rfl

/-! ## HM.ST -/

theorem exec_hmSt_refused {s : State} {addr len : Word} (h : s.cfg.bufmax < addr.toNat + len.toNat) :
    exec (.hmSt addr len) s = .next (s.answered .badOperand 0 0 0) := by
  show execHmSt addr len s = _
  rw [execHmSt, if_pos h, Run.begin_raise]

/-- HM.ST in range: the bytes from byte index `addr` on go to DOUT (R205). -/
theorem exec_hmSt_eq {s : State} {addr len : Word} (h : addr.toNat + len.toNat ≤ s.cfg.bufmax) :
    exec (.hmSt addr len) s = .next ((s.pushDout (s.memRead addr.toNat len.toNat)).answered .ok 0 len.toNat 0) := by
  show execHmSt addr len s = _
  rw [execHmSt, if_neg (by omega), Run.begin_respond]

theorem State.memRead_getD (s : State) (a : Nat) {n i : Nat} (h : i < n) : (s.memRead a n).getD i 0 = s.bufByte (a + i) := by
  simp [State.memRead, h]

/-- Settles O54: the bytes pushed are those MemRead gives (`State.memRead_getD`). -/
theorem hmStStoresBytes : Obligations.HmStStoresBytes := fun s addr len =>
  ⟨exec_hmSt_refused, fun h => ⟨s.memRead addr.toNat len.toNat, s.memRead_length _ _, fun _ hi => s.memRead_getD _ hi,
    exec_hmSt_eq h⟩⟩

end Sys2Proof.Machine
end

section
/-! PROOF. FLAGS and ERR (10_state.md R17, R18): what FLG.CLR does to them (R202), and that every other operation changes them only as its
response says (R232, R236). -/

namespace Sys2Proof.Machine

/-! ## FLG.CLR -/

theorem exec_flgClr_eq (s : State) (mask : Word) :
    exec (.flgClr mask) s =
      .next ({ s with flags := clearFlags s.flags mask, err := if mask.getLsbD 8 then 0 else s.err }.answered .ok 0 0 0) :=
  Run.begin_respond _ .ok 0 0

/-- A response with no warning leaves FLAGS as they are (R236). -/
theorem State.answered_flags_of_no_warning (s : State) (st : Status) (r0 r1 : Nat) : (s.answered st 0 r0 r1).flags = s.flags :=
  BitVec.or_zero

theorem clearFlags_getLsbD (flags : BitVec 3) (mask : Word) {j : Nat} (h : j < 3) :
    (clearFlags flags mask).getLsbD j = (flags.getLsbD j && !mask.getLsbD j) := by
  simp [clearFlags, h]

/-! ## The response of every other operation -/

/-- The response `r` takes `s` to `t` as far as FLAGS, ERR and the response channel go: FLAGS gains the warnings of `r`, ERR takes its status,
and `r` is sent (R232, R236). -/
def State.AnsweredBy (s : State) (r : Rsp) (t : State) : Prop :=
  t.flags = s.flags ||| r.wflags ∧ t.err = errAfter s.err r.status ∧ t.rsps = s.rsps ++ [r]

theorem State.answeredBy_answered (s : State) (st : Status) (w : BitVec 3) (r0 r1 : Nat) :
    s.AnsweredBy ⟨st, w, BitVec.ofNat 32 r0, BitVec.ofNat 32 r1⟩ (s.answered st w r0 r1) := ⟨rfl, rfl, rfl⟩

/-- Of the state before, only FLAGS, ERR and the responses sent matter. -/
theorem State.AnsweredBy.of_congr {s x t : State} {r : Rsp} (h : x.AnsweredBy r t)
    (hx : x.flags = s.flags ∧ x.err = s.err ∧ x.rsps = s.rsps) : s.AnsweredBy r t := by
  obtain ⟨hflags, herr, hrsps⟩ := hx
  rwa [State.AnsweredBy, hflags, herr, hrsps] at h

/-- An operation whose outcome is a response over a state with the flags, ERR and responses of `s`. -/
theorem answeredBy_of_eq {s x t : State} {out : Host.Outcome State Fault Refusal} {st : Status} {w : BitVec 3} {r0 r1 : Nat}
    (h : out = .next t) (heq : out = .next (x.answered st w r0 r1))
    (hx : x.flags = s.flags ∧ x.err = s.err ∧ x.rsps = s.rsps := by simp) : ∃ r, s.AnsweredBy r t := by
  cases heq.symm.trans h
  exact ⟨_, (x.answeredBy_answered st w r0 r1).of_congr hx⟩

/-- DIN holds too few bytes, or it begins with as many as are wanted (R26). -/
theorem State.din_cases (s : State) (n : Nat) : s.din.length < n ∨ ∃ src rest, s.din = src ++ rest ∧ src.length = n := by
  rcases Nat.lt_or_ge s.din.length n with h | h
  · exact .inl h
  · exact .inr ⟨s.din.take n, s.din.drop n, (List.take_append_drop n s.din).symm, List.length_take_of_le h⟩

/-! ### Operations that wait for DIN -/

theorem exec_bcWrb_waits {s : State} {len : Word} (h : len.toNat ≤ s.cfg.bufmax) (hdin : s.din.length < len.toNat) :
    exec (.bcWrb len) s = .fault .waitDin := by
  show execBcWrb len s = _
  rw [execBcWrb, if_neg (by omega), (s.popDin_none _).2 hdin]

theorem exec_tocEnc_waits {s : State} {k : Word} (h1 : 1 ≤ k.toNat) (h2 : k.toNat ≤ Config.tocCap) (hdin : s.din.length < k.toNat) :
    exec (.tocEnc k) s = .fault .waitDin := by
  show execTocEnc k s = _
  rw [execTocEnc, if_neg (by omega), (s.popDin_none _).2 hdin]

theorem exec_hmLd_waits {s : State} {addr len : Word} (h : addr.toNat + len.toNat ≤ s.cfg.bufmax) (hdin : s.din.length < len.toNat) :
    exec (.hmLd addr len) s = .fault .waitDin := by
  show execHmLd addr len s = _
  rw [execHmLd, if_neg (by omega), (s.popDin_none _).2 hdin]

section
variable {s t : State}

theorem exec_bcWrb_answeredBy {len : Word} (h : exec (.bcWrb len) s = .next t) : ∃ r, s.AnsweredBy r t := by
  rcases Nat.lt_or_ge s.cfg.bufmax len.toNat with hbad | hlen
  · exact answeredBy_of_eq h (exec_bcWrb_refused hbad)
  obtain hwait | ⟨src, rest, hdin, hsrc⟩ := s.din_cases len.toNat
  · cases (exec_bcWrb_waits hlen hwait).symm.trans h
  · exact answeredBy_of_eq h (exec_bcWrb_eq hlen hdin hsrc)

theorem exec_tocEnc_answeredBy {k : Word} (h : exec (.tocEnc k) s = .next t) : ∃ r, s.AnsweredBy r t := by
  by_cases hbad : k.toNat < 1 ∨ Config.tocCap < k.toNat
  · exact answeredBy_of_eq h (exec_tocEnc_refused hbad)
  have h1 : 1 ≤ k.toNat := by omega
  have h2 : k.toNat ≤ Config.tocCap := by omega
  obtain hwait | ⟨src, rest, hdin, hsrc⟩ := s.din_cases k.toNat
  · cases (exec_tocEnc_waits h1 h2 hwait).symm.trans h
  rcases Nat.lt_or_ge s.avail (8 * k.toNat) with hfull | hroom
  · exact answeredBy_of_eq h (exec_tocEnc_noSpace h1 h2 hdin hsrc hfull)
  · exact answeredBy_of_eq h (exec_tocEnc_room h1 h2 hdin hsrc hroom)

theorem exec_hmLd_answeredBy {addr len : Word} (h : exec (.hmLd addr len) s = .next t) : ∃ r, s.AnsweredBy r t := by
  rcases Nat.lt_or_ge s.cfg.bufmax (addr.toNat + len.toNat) with hbad | hlen
  · exact answeredBy_of_eq h (exec_hmLd_refused hbad)
  obtain hwait | ⟨src, rest, hdin, hsrc⟩ := s.din_cases len.toNat
  · cases (exec_hmLd_waits hlen hwait).symm.trans h
  · exact answeredBy_of_eq h (exec_hmLd_eq hlen hdin hsrc)

/-! ### The other operations outside the groups -/

theorem exec_kindSet_answeredBy {kind : Word} (h : exec (.kindSet kind) s = .next t) : ∃ r, s.AnsweredBy r t := by
  by_cases h1 : kind.toNat = 1
  · exact answeredBy_of_eq h (exec_kindSet_nb s h1)
  by_cases h2 : kind.toNat = 2
  · exact answeredBy_of_eq h (exec_kindSet_wb s h2)
  · exact answeredBy_of_eq h (exec_kindSet_refused s h1 h2)

theorem exec_flLookup_answeredBy {ft : Word} (h : exec (.flLookup ft) s = .next t) : ∃ r, s.AnsweredBy r t := by
  rcases Nat.lt_or_ge 15 ft.toNat with hbad | hft
  · exact answeredBy_of_eq h (exec_flLookup_badOperand hbad)
  by_cases hkind : s.kind = .unknown
  · exact answeredBy_of_eq h (exec_flLookup_unknownFormat hft hkind)
  cases hvalid : validFt s.cfg s.kind ft.toNat with
  | false => exact answeredBy_of_eq h (exec_flLookup_invalid hft hkind hvalid)
  | true => exact answeredBy_of_eq h (exec_flLookup_valid hft hvalid)

theorem exec_tocDec_answeredBy (h : exec .tocDec s = .next t) : ∃ r, s.AnsweredBy r t := by
  obtain hnone | ⟨h8, k, h1, hk, hF, hL⟩ | ⟨h8, hF⟩ := s.toc_cases
  · exact answeredBy_of_eq h (exec_tocDec_noData hnone)
  · exact answeredBy_of_eq h (exec_tocDec_chain h8 h1 hk hF hL)
  · exact answeredBy_of_eq h (exec_tocDec_malformed h8 hF)

theorem exec_csrRd_answeredBy {idx : Word} (h : exec (.csrRd idx) s = .next t) : ∃ r, s.AnsweredBy r t := by
  cases hcsr : s.csr idx.toNat with
  | none => exact answeredBy_of_eq h (exec_csrRd_reserved hcsr)
  | some v => exact answeredBy_of_eq h (exec_csrRd_register hcsr)

/-! ### The group operations -/

/-- The frames of GRP.DEC after the warnings `w`: those of the frames come on top (R161). -/
theorem grpDecFrames_answeredBy {x : State} {w : BitVec 3} {pos0 nblk : Nat} {es : List Byte}
    (h : grpDecFrames pos0 es nblk ((Run.begin x).warn w) = .next t) : ∃ r, x.AnsweredBy r t := by
  obtain ⟨_, _, r, w', -, -, -, -, -, hrsps, -, -, -, hflags, hwflags, herr, -⟩ := grpDecFrames_next h
  refine ⟨r, ?_, herr, hrsps⟩
  rw [hflags, hwflags]
  simp [BitVec.or_assoc]

theorem exec_grpDec_answeredBy (h : exec .grpDec s = .next t) : ∃ r, s.AnsweredBy r t := by
  by_cases hkind : s.kind = .unknown
  · exact answeredBy_of_eq h (exec_grpDec_unknownFormat hkind)
  obtain hnone | ⟨h8, k, h1, hk, hF, hL⟩ | ⟨h8, hF⟩ := s.toc_cases
  · exact answeredBy_of_eq h (exec_grpDec_noData hkind hnone)
  · rw [exec_grpDec_chain hkind h8 h1 hk hF hL] at h
    exact grpDecFrames_answeredBy (x := s.chainTaken k) h
  · exact answeredBy_of_eq h (exec_grpDec_malformed hkind h8 hF)

/-- The emission of GRP.ENC after the warnings `w` (R181, R187 to R189). -/
theorem grpEncEmit_answeredBy {x : State} {w : BitVec 3} {frames : List Frame}
    (h : grpEncEmit frames ((Run.begin x).warn w) = .next t) : ∃ r, x.AnsweredBy r t := by
  by_cases hnone : frames = []
  · subst hnone
    exact answeredBy_of_eq h (grpEncEmit_nothing x w)
  rcases Nat.lt_or_ge x.avail (8 * (groupBytes frames).length) with hfull | hroom
  · exact answeredBy_of_eq h (grpEncEmit_noSpace x w hnone hfull)
  · exact answeredBy_of_eq h (grpEncEmit_written x w hnone hroom)

/-- An operation in progress whose flags are those of `s` with its own warnings, as one that has only raised these warnings. -/
theorem Run.eq_begin_warn {o : Run} {f : BitVec 3} (h : o.st.flags = f ||| o.wflags) :
    o = (Run.begin { o.st with flags := f }).warn o.wflags := by
  rw [Run.begin_warn]
  dsimp only
  rw [← h]

/-- The blocks of GRP.ENC only raise warnings, over a state with the flags, ERR and responses of `s` (R181, R184). -/
theorem grpEncBlocks_warned {mode : Word} {n : Nat} {frames fs : List Frame} {o : Run}
    (h : grpEncBlocks mode n frames (Run.begin s) = .next (fs, o)) :
    ∃ (x : State) (w : BitVec 3), o = (Run.begin x).warn w ∧ x.flags = s.flags ∧ x.err = s.err ∧ x.rsps = s.rsps := by
  obtain ⟨_, w, -, -, -, hw, hst⟩ := grpEncBlocks_next h
  rw [Run.begin_wflags, BitVec.ofNat_eq_ofNat, BitVec.zero_or] at hw
  refine ⟨{ o.st with flags := s.flags }, o.wflags, Run.eq_begin_warn ?_, rfl, ?_, ?_⟩ <;> rw [hst]
  · rw [hw]
    rfl
  · rfl
  · rfl

theorem exec_grpEnc_answeredBy {nblk mode : Word} (h : exec (.grpEnc nblk mode) s = .next t) : ∃ r, s.AnsweredBy r t := by
  by_cases hkind : s.kind = .unknown
  · exact answeredBy_of_eq h (exec_grpEnc_unknownFormat hkind)
  rcases Nat.lt_or_ge Config.tocCap nblk.toNat with hbad | hn
  · exact answeredBy_of_eq h (exec_grpEnc_badOperand hkind hbad)
  change execGrpEnc nblk mode s = _ at h
  rw [execGrpEnc, if_neg hkind, if_neg (by omega)] at h
  cases hblocks : grpEncBlocks mode nblk.toNat [] (Run.begin { s with skipcnt := 0 }) with
  | fault r => rw [hblocks] at h; cases h
  | refused r => rw [hblocks] at h; cases h
  | next p =>
    obtain ⟨frames, o⟩ := p
    obtain ⟨x, w, rfl, hx⟩ := grpEncBlocks_warned hblocks
    rw [hblocks] at h
    obtain ⟨r, hr⟩ := grpEncEmit_answeredBy h
    exact ⟨r, hr.of_congr hx⟩

end

/-- Every operation but FLG.CLR that completes does so with a response, and changes FLAGS and ERR only as the response says (R232, R236). -/
theorem exec_answeredBy {i : Instr} {s t : State} (hi : ∀ mask, i ≠ .flgClr mask) (h : exec i s = .next t) :
    ∃ r, s.AnsweredBy r t := by
  cases i with
  | bcAttach len pos0 =>
    by_cases hbad : s.cfg.bufmax < len.toNat ∨ 8 * len.toNat < pos0.toNat
    · exact answeredBy_of_eq h (exec_bcAttach_refused hbad)
    · exact answeredBy_of_eq h (exec_bcAttach_accepted (by omega) (by omega))
  | bcRd n =>
    by_cases hbad : n.toNat < 1 ∨ 32 < n.toNat
    · exact answeredBy_of_eq h (exec_bcRd_refused hbad)
    · exact answeredBy_of_eq h (exec_bcRd_eq (by omega) (by omega))
  | bcWr n value =>
    by_cases hbad : n.toNat < 1 ∨ 32 < n.toNat
    · exact answeredBy_of_eq h (exec_bcWr_refused hbad)
    · exact answeredBy_of_eq h (exec_bcWr_eq (by omega) (by omega))
  | bcRdb len =>
    rcases Nat.lt_or_ge s.cfg.bufmax len.toNat with hbad | hlen
    · exact answeredBy_of_eq h (exec_bcRdb_refused hbad)
    · exact answeredBy_of_eq h (exec_bcRdb_eq hlen)
  | bcWrb len => exact exec_bcWrb_answeredBy h
  | hsDetect => exact answeredBy_of_eq h (exec_hsDetect_eq rfl)
  | kindSet kind => exact exec_kindSet_answeredBy h
  | flLookup ft => exact exec_flLookup_answeredBy h
  | tocDec => exact exec_tocDec_answeredBy h
  | tocEnc k => exact exec_tocEnc_answeredBy h
  | grpDec => exact exec_grpDec_answeredBy h
  | grpEnc nblk mode => exact exec_grpEnc_answeredBy h
  | csrRd idx => exact exec_csrRd_answeredBy h
  | flgClr mask => exact absurd rfl (hi mask)
  | hmLd addr len => exact exec_hmLd_answeredBy h
  | hmSt addr len =>
    rcases Nat.lt_or_ge s.cfg.bufmax (addr.toNat + len.toNat) with hbad | hlen
    · exact answeredBy_of_eq h (exec_hmSt_refused hbad)
    · exact answeredBy_of_eq h (exec_hmSt_eq hlen)
  | nop => exact answeredBy_of_eq h (exec_nop_eq s)

/-- No status but OK has the code 0 (R231), so a response never takes a nonzero ERR back to 0. -/
theorem errAfter_ne_zero {e : BitVec 8} (h : e ≠ 0) (st : Status) : errAfter e st ≠ 0 := by
  cases st
  case ok => rwa [errAfter_ok]
  all_goals
    rw [errAfter_error e (by decide)]
    decide

/-- Settles O52: FLG.CLR clears by its mask, and the response of any other operation can only add to FLAGS and set ERR (`exec_answeredBy`). -/
theorem flgClrClearsTheSelectedFlags : Obligations.FlgClrClearsTheSelectedFlags := by
  refine ⟨fun s mask => ⟨_, exec_flgClr_eq s mask, fun j hj => ?_, rfl, rfl⟩, fun i s t hi h => ?_⟩
  · rw [State.answered_flags_of_no_warning]
    exact clearFlags_getLsbD s.flags mask hj
  · obtain ⟨r, hflags, herr, -⟩ := exec_answeredBy hi h
    refine ⟨fun j hj => ?_, fun hne => ?_⟩
    · rw [hflags, BitVec.getLsbD_or, hj, Bool.true_or]
    · rw [herr]
      exact errAfter_ne_zero hne r.status

end Sys2Proof.Machine
end

section
/-! PROOF. The exceptions (60_exceptions.md): the operations that need KIND while it is unknown (R238), assembled from the equations of the
operations above. -/

namespace Sys2Proof.Machine

/-- What HS.DETECT leaves, by the kind it leaves in KIND (R122). -/
theorem exec_hsDetect_next {s t : State} {k : Kind} (h : exec .hsDetect s = .next t) (hk : t.kind = k) :
    t = { s with kind := k }.answered .ok 0 (kindCode k) (headerLength k) := by
  rw [exec_hsDetect_eq rfl] at h
  cases h
  have hdetect : s.detectKind = k := hk
  rw [hdetect]

/-- Settles O18: each refusal is the operation's own test of KIND, which comes before every effect, and the value of HS.DETECT is its
equation at the kind Unknown, whose code and literal length are 0. -/
theorem unknownKindIsRefused : Obligations.UnknownKindIsRefused :=
  ⟨fun _ _ _ _ hkind =>
      ⟨fun hft => exec_flLookup_unknownFormat hft hkind, exec_grpDec_unknownFormat hkind, exec_grpEnc_unknownFormat hkind⟩,
    fun _ _ h hkind => exec_hsDetect_next h hkind⟩

end Sys2Proof.Machine
end

section
/-! PROOF. Command words, responses and TOC octets (30_encoding.md): the fields of a word, the decoder arm by arm, decoding after encoding. -/

namespace Sys2Proof

/-! ## Command words -/

theorem cmdA_toNat (w : CmdWord) : (cmdA w).toNat = w.toNat / 2 ^ 32 % 2 ^ 32 := by
  rw [cmdA, BitVec.extractLsb'_toNat, Nat.shiftRight_eq_div_pow]

theorem cmdB_toNat (w : CmdWord) : (cmdB w).toNat = w.toNat % 2 ^ 32 := by
  rw [cmdB, BitVec.extractLsb'_toNat, Nat.shiftRight_zero]

/-- Settles O1: each encoding is a word of three fields, which the decoder's arm for its opcode reads back. -/
theorem decodeOfEncodeIsTheOperation : Obligations.DecodeOfEncodeIsTheOperation := by
  intro i
  cases i <;> simp [encode, opcode, decode]

/-- Settles O2: the operands are the fields of the word, and a word put together from its fields is decoded from the same fields; two such
words decode alike when the operations are equal, which compares the fields that are operands. -/
theorem decodeUsesExactlyTheNamedFields : Obligations.DecodeUsesExactlyTheNamedFields := by
  refine ⟨fun w a b op hop ha hb => ?_, mkCmd_toNat, fun op hop a a' b b' => ?_, fun op hop a a' b b' => ?_, fun op hop a a' b b' => ?_⟩
  · have hA : cmdA w = a := BitVec.eq_of_toNat_eq ((cmdA_toNat w).trans ha.symm)
    have hB : cmdB w = b := BitVec.eq_of_toNat_eq ((cmdB_toNat w).trans hb.symm)
    rw [← cmdOp_toNat] at hop
    refine ⟨?_, ?_, ?_, ?_, ?_, ?_, ?_, ?_, ?_, ?_, ?_, ?_, ?_, ?_, ?_, ?_, ?_⟩ <;>
    · rintro rfl
      simp [decode, ← hop, hA, hB]
  all_goals
    fin_cases hop <;> simp [decode]

/-- Settles O3: the ten words and the zero word, decoded. -/
theorem specWordsDecode : Obligations.SpecWordsDecode := by
  unfold Obligations.SpecWordsDecode
  decide

end Sys2Proof

namespace Sys2Proof.Machine

/-! ## Responses and octets -/

/-- The fields of a response word from the most significant end (R66). -/
theorem Rsp.word_toNat (r : Rsp) :
    r.word.toNat = (statusCode r.status).toNat * 2 ^ 72 + r.wflags.toNat * 2 ^ 64 + r.r0.toNat * 2 ^ 32 + r.r1.toNat := by
  have hw : (r.wflags.setWidth 8).toNat = r.wflags.toNat := by
    rw [BitVec.toNat_setWidth, Nat.mod_eq_of_lt (r.wflags.isLt.trans (by decide))]
  rw [Rsp.word]
  simp only [BitVec.toNat_append, hw]
  rw [← Nat.shiftLeft_add_eq_or_of_lt r.r1.isLt, ← Nat.shiftLeft_add_eq_or_of_lt r.r0.isLt,
    ← Nat.shiftLeft_add_eq_or_of_lt (hw ▸ (r.wflags.setWidth 8).isLt)]
  simp only [Nat.shiftLeft_eq]
  ring

/-- Settles O5: the word is the sum of its fields, each below the weight of the next. -/
theorem responseWordLayout : Obligations.ResponseWordLayout := by
  refine ⟨by decide, fun r => ⟨?_, ?_⟩⟩
  · cases r.status <;> decide
  · have hw := r.wflags.isLt
    have h0 := r.r0.isLt
    have h1 := r.r1.isLt
    rw [Rsp.word_toNat]
    omega

theorem tocOctet_toNat (f : Bool) (ft : BitVec 4) (q : Bool) :
    (tocOctet f ft q).toNat = f.toNat * 2 ^ 7 + ft.toNat * 2 ^ 3 + q.toNat * 2 ^ 2 := by
  revert f ft q
  decide

/-- Settles O6: the octet's value, checked over its three fields, and the octet of the fields of a byte (`tocOctet_octet`). -/
theorem tocOctetLayout : Obligations.TocOctetLayout := ⟨tocOctet_toNat, fun _ => ⟨rfl, rfl, rfl⟩, tocOctet_octet⟩

end Sys2Proof.Machine
end

section
/-! PROOF. What an operation can do, said once: `Completes` has one constructor per way an operation completes, `Stops` one per way it has
no next state, and between them they are all there is (`exec_cases`). The rules of the whole machine are derived from these. -/

namespace Sys2Proof.Machine

/-! ## Operands out of range (60_exceptions.md section 4) -/

/-- The registers of R24 are those whose index is in range. -/
theorem State.csr_eq_none_iff (s : State) (idx : Word) : s.csr idx.toNat = none ↔ (Instr.csrRd idx).wellFormed s.cfg = false := by
  simp only [Instr.wellFormed, decide_eq_false_iff_not]
  generalize idx.toNat = i
  rcases Nat.lt_or_ge i 10 with h | h
  · refine iff_of_false (fun hnone => ?_) (fun hbad => hbad (.inl (by omega)))
    interval_cases i <;> cases hnone
  · rw [s.csr_of_ten_le h]
    split_ifs with hin
    · exact iff_of_false (by simp) (fun hbad => hbad (.inr hin))
    · exact iff_of_true rfl (fun hgood => hin (by omega))

/-- Every operation tests its operands before any effect, but for GRP.ENC, which tests the kind first. -/
theorem exec_badOperand {i : Instr} {s : State} (h : i.wellFormed s.cfg = false) (hk : ∀ n m, i = .grpEnc n m → s.kind ≠ .unknown) :
    exec i s = .next (s.answered .badOperand 0 0 0) := by
  cases i with
  | hsDetect | tocDec | grpDec | flgClr | nop => cases h
  | csrRd idx => exact exec_csrRd_reserved ((s.csr_eq_none_iff idx).2 h)
  | bcAttach len pos0 => exact exec_bcAttach_refused (by simp [Instr.wellFormed] at h; omega)
  | bcRd n => exact exec_bcRd_refused (by simp [Instr.wellFormed] at h; omega)
  | bcWr n value => exact exec_bcWr_refused (by simp [Instr.wellFormed] at h; omega)
  | bcRdb len => exact exec_bcRdb_refused (by simpa [Instr.wellFormed] using h)
  | bcWrb len => exact exec_bcWrb_refused (by simpa [Instr.wellFormed] using h)
  | kindSet kind =>
    simp [Instr.wellFormed] at h
    exact exec_kindSet_refused s h.1 h.2
  | flLookup ft => exact exec_flLookup_badOperand (by simpa [Instr.wellFormed] using h)
  | tocEnc k => exact exec_tocEnc_refused (by simp [Instr.wellFormed] at h; omega)
  | grpEnc nblk mode => exact exec_grpEnc_badOperand (hk nblk mode rfl) (by simpa [Instr.wellFormed] using h)
  | hmLd addr len => exact exec_hmLd_refused (by simpa [Instr.wellFormed] using h)
  | hmSt addr len => exact exec_hmSt_refused (by simpa [Instr.wellFormed] using h)

/-! ## The chain at the cursor and the entries decoded -/

/-- A chain of `k` octets, zeros past the region included, stands at the cursor (R131, R135). -/
structure State.ChainAt (s : State) (k : Nat) : Prop where
  octet : 8 ≤ s.avail
  pos : 1 ≤ k
  cap : k ≤ Config.tocCap
  more : ∀ i, i < k - 1 → octetF (s.octetAt (s.cursor + 8 * i)) = true
  last : octetF (s.octetAt (s.cursor + 8 * (k - 1))) = false

/-- No octet at the cursor under the cap ends a chain (R131). -/
structure State.NoChainAt (s : State) : Prop where
  octet : 8 ≤ s.avail
  more : ∀ i, i < Config.tocCap → octetF (s.octetAt (s.cursor + 8 * i)) = true

theorem State.chain_cases (s : State) : s.avail < 8 ∨ (∃ k, s.ChainAt k) ∨ s.NoChainAt := by
  obtain hnone | ⟨h8, k, h1, hk, hF, hL⟩ | ⟨h8, hF⟩ := s.toc_cases
  · exact .inl hnone
  · exact .inr (.inl ⟨k, h8, h1, hk, hF, hL⟩)
  · exact .inr (.inr ⟨h8, hF⟩)

/-- The first `m` of the entries `es` have a valid frame type, and the one after them, if there is one, does not (R166). -/
structure State.Decodes (s : State) (es : List Byte) (m : Nat) : Prop where
  le : m ≤ es.length
  valid : ∀ i, i < m → validFt s.cfg s.kind (octetFt (es.getD i 0)).toNat = true
  stop : m < es.length → validFt s.cfg s.kind (octetFt (es.getD m 0)).toNat = false

theorem State.exists_decodes (s : State) (es : List Byte) : ∃ m, s.Decodes es m := by
  induction es with
  | nil => exact ⟨0, le_refl _, fun _ hi => absurd hi (Nat.not_lt_zero _), fun h => absurd h (Nat.not_lt_zero _)⟩
  | cons e es ih =>
    cases hv : validFt s.cfg s.kind (octetFt e).toNat with
    | false => exact ⟨0, Nat.zero_le _, fun _ hi => absurd hi (Nat.not_lt_zero _), fun _ => hv⟩
    | true =>
      obtain ⟨m, hle, hvalid, hstop⟩ := ih
      refine ⟨m + 1, Nat.succ_le_succ hle, fun i hi => ?_, fun h => hstop (Nat.lt_of_succ_lt_succ h)⟩
      cases i with
      | zero => exact hv
      | succ i => exact hvalid i (Nat.lt_of_succ_lt_succ hi)

/-- `s` after a GRP.DEC that has decoded the first `m` of the `k` entries of its chain, but for the flags (R161). -/
def State.groupDecoded (s : State) (k m : Nat) (blks rest : List PcmBlock) : State :=
  (s.chainTaken k).framesDecoded ((s.octetsFrom s.cursor k).take m) blks rest

/-- The warnings of that GRP.DEC, in the order in which it raises them (R161, R164). -/
def State.groupWarn (s : State) (k m : Nat) : BitVec 3 :=
  truncWarn (8 * k) s.avail ||| plmWarn (expectedPay s.cfg s.kind (s.octetsFrom s.cursor k)) ((s.advance (8 * k)).avail / 8) |||
    truncWarn (expectedPay s.cfg s.kind ((s.octetsFrom s.cursor k).take m)) ((s.chainTaken k).avail / 8)

theorem State.engDecode_nil {s : State} (h : s.decReps = []) (record : List Byte) : s.engDecode record = none := by
  rw [State.engDecode, h]

/-- A valid entry whose decode request the codec engine has not answered (R271). -/
theorem grpDecFrames_waits {pos0 nblk : Nat} {e : Byte} {es : List Byte} {o : Run}
    (hv : validFt o.st.cfg o.st.kind (octetFt e).toNat = true) (hd : o.st.decReps = []) :
    grpDecFrames pos0 (e :: es) nblk o = .fault .waitDecode := by
  have hrest : (o.rdBytes (paylen o.st.cfg o.st.kind (octetFt e).toNat)).2.st.decReps = [] := hd
  rw [grpDecFrames, if_neg (by simp [hv])]
  simp only [State.engDecode_nil hrest]

section
variable {s : State} {k m : Nat} (hkind : s.kind ≠ .unknown) (hchain : s.ChainAt k)
include hkind hchain

theorem exec_grpDec_decoded {blks rest : List PcmBlock} (hm : s.Decodes (s.octetsFrom s.cursor k) m) (hd : s.decReps = blks ++ rest)
    (hl : blks.length = m) :
    exec .grpDec s = .next ((s.groupDecoded k m blks rest).answered (if m = k then .ok else .invalidFrameType) (s.groupWarn k m) m
      (((s.groupDecoded k m blks rest).cursor - s.cursor) / 8)) := by
  obtain ⟨h8, h1, hk, hF, hL⟩ := hchain
  obtain ⟨hle, hv, hbad⟩ := hm
  have hc : (s.chainTaken k).cursor ≤ (s.chainTaken k).limit := (s.chainTaken_cursor k).trans_le (Nat.min_le_right _ _)
  rw [exec_grpDec_chain hkind h8 h1 hk hF hL, grpDecFrames_group (s := s.chainTaken k) hle hc hv hbad hd hl, State.octetsFrom_length]
  rfl

/-- GRP.DEC with fewer replies than valid entries before the first invalid one: the frames there are replies for are decoded, and the next
one waits (R271). -/
theorem exec_grpDec_waits (hm : m ≤ k) (hv : ∀ i, i < m → validFt s.cfg s.kind (octetFt ((s.octetsFrom s.cursor k).getD i 0)).toNat = true)
    (hd : s.decReps.length < m) : exec .grpDec s = .fault .waitDecode := by
  obtain ⟨h8, h1, hk, hF, hL⟩ := hchain
  have hlen := s.octetsFrom_length s.cursor k
  have hlt : s.decReps.length < (s.octetsFrom s.cursor k).length := by omega
  have hc : (s.chainTaken k).cursor ≤ (s.chainTaken k).limit := (s.chainTaken_cursor k).trans_le (Nat.min_le_right _ _)
  have hvalid : ∀ e ∈ (s.octetsFrom s.cursor k).take s.decReps.length, validFt s.cfg s.kind (octetFt e).toNat = true := by
    rw [take_eq_map_getD _ hlt.le]
    intro e he
    obtain ⟨i, hi, rfl⟩ := List.mem_map.1 he
    exact hv i ((List.mem_range.1 hi).trans hd)
  have hnext := hv _ hd
  rw [List.getD_eq_getElem _ _ hlt] at hnext
  rw [exec_grpDec_chain hkind h8 h1 hk hF hL, ← List.take_append_drop s.decReps.length (s.octetsFrom s.cursor k),
    grpDecFrames_framesDecoded (s := s.chainTaken k) (blks := s.decReps) (rest := []) _ hvalid hc (List.append_nil _).symm
      (List.length_take_of_le hlt.le).symm, List.drop_eq_getElem_cons hlt]
  exact grpDecFrames_waits hnext rfl

end

/-! ## The blocks of GRP.ENC -/

/-- Blocks taken in two runs, the first of which completes. -/
theorem grpEncBlocks_add {mode : Word} {m n : Nat} {frames fs : List Frame} {o o' : Run}
    (h : grpEncBlocks mode m frames o = .next (fs, o')) : grpEncBlocks mode (m + n) frames o = grpEncBlocks mode n fs o' := by
  induction m generalizing frames o with
  | zero =>
    cases h
    rw [Nat.zero_add]
  | succ m ih =>
    rw [Nat.succ_add]
    simp only [grpEncBlocks] at h ⊢
    cases hpin : o.st.popPin with
    | none => simp [hpin] at h
    | some p =>
      obtain ⟨blk, s1⟩ := p
      cases henc : s1.engEncode blk mode with
      | none => simp [hpin, henc] at h
      | some q =>
        obtain ⟨rep, s2⟩ := q
        simp only [hpin, henc] at h ⊢
        split_ifs at h ⊢
        · exact ih h
        · exact ih h

section
variable {mode : Word} {n : Nat} {frames : List Frame} {o : Run}

theorem grpEncBlocks_waitPin (h : o.st.pin = []) : grpEncBlocks mode (n + 1) frames o = .fault .waitPin := by
  simp only [grpEncBlocks, State.popPin, h]

theorem grpEncBlocks_waitEncode {blk : PcmBlock} {pin' : List PcmBlock} (h : o.st.pin = blk :: pin') (he : o.st.encReps = []) :
    grpEncBlocks mode (n + 1) frames o = .fault .waitEncode := by
  simp only [grpEncBlocks, State.popPin, h, State.engEncode, he]

theorem grpEncBlocks_refused {blk : PcmBlock} {pin' : List PcmBlock} {rep : EncReply} {enc' : List EncReply} (h : o.st.pin = blk :: pin')
    (he : o.st.encReps = rep :: enc') (hbad : ¬ rep.contract o.st.cfg o.st.kind) :
    grpEncBlocks mode (n + 1) frames o = .refused .recordContract := by
  obtain ⟨hpl, hlen⟩ := Classical.not_imp.1 hbad
  simp only [grpEncBlocks, State.popPin, h, State.engEncode, he]
  rw [if_neg (by simp [hpl]), if_pos hlen]

end

/-- The first blocks and replies of a GRP.ENC, as many of each, the replies within their contract (R29, R181). -/
structure State.BlocksAt (s : State) (blks pin' : List PcmBlock) (reps enc' : List EncReply) : Prop where
  pin : s.pin = blks ++ pin'
  enc : s.encReps = reps ++ enc'
  length : reps.length = blks.length
  contract : ∀ r ∈ reps, r.contract s.cfg s.kind

/-- The first replies, within their contract, and as many blocks. -/
theorem State.blocksAt_of_encReps {s : State} {reps enc' : List EncReply} (henc : s.encReps = reps ++ enc')
    (hle : reps.length ≤ s.pin.length) (hc : ∀ r ∈ reps, r.contract s.cfg s.kind) :
    s.BlocksAt (s.pin.take reps.length) (s.pin.drop reps.length) reps enc' :=
  ⟨(List.take_append_drop _ _).symm, henc, (List.length_take_of_le hle).symm, hc⟩

section
variable {s : State} {nblk mode : Word} {blks pin' : List PcmBlock} {reps enc' : List EncReply}

/-- After the first blocks GRP.ENC goes on with the others, over what is left of PIN and of the replies. -/
theorem grpEncBlocks_from (h : s.BlocksAt blks pin' reps enc') (n : Nat) :
    ∃ frames o, grpEncBlocks mode (blks.length + n) [] (Run.begin { s with skipcnt := 0 }) = grpEncBlocks mode n frames o ∧
      o.st.pin = pin' ∧ o.st.encReps = enc' ∧ o.st.cfg = s.cfg ∧ o.st.kind = s.kind :=
  ⟨_, _, grpEncBlocks_add (grpEncBlocks_contract mode blks.length [] (Run.begin { s with skipcnt := 0 }) blks pin' reps enc' h.pin rfl
    h.enc h.length h.contract _ rfl), rfl, rfl, rfl, rfl⟩

variable (hkind : s.kind ≠ .unknown) (hn : nblk.toNat ≤ Config.tocCap) (h : s.BlocksAt blks pin' reps enc')
  (hlt : blks.length < nblk.toNat)
include hkind hn h hlt

/-- GRP.ENC with a block still to take, as one more step of its loop. -/
theorem exec_grpEnc_next : ∃ n frames o, o.st.pin = pin' ∧ o.st.encReps = enc' ∧ o.st.cfg = s.cfg ∧ o.st.kind = s.kind ∧
    (∀ r, grpEncBlocks mode (n + 1) frames o = .fault r → exec (.grpEnc nblk mode) s = .fault r) ∧
    (∀ r, grpEncBlocks mode (n + 1) frames o = .refused r → exec (.grpEnc nblk mode) s = .refused r) := by
  obtain ⟨n, hsum⟩ : ∃ n, nblk.toNat = blks.length + (n + 1) := ⟨nblk.toNat - blks.length - 1, by omega⟩
  obtain ⟨frames, o, hrun, hpin, henc, hcfg, hk⟩ := grpEncBlocks_from (mode := mode) h (n + 1)
  refine ⟨n, frames, o, hpin, henc, hcfg, hk, fun r hr => ?_, fun r hr => ?_⟩ <;>
  · show execGrpEnc nblk mode s = _
    rw [execGrpEnc, if_neg hkind, if_neg (Nat.not_lt.2 hn), hsum, hrun, hr]

theorem exec_grpEnc_waitPin (hpin : pin' = []) : exec (.grpEnc nblk mode) s = .fault .waitPin := by
  obtain ⟨n, frames, o, hp, -, -, -, hfault, -⟩ := exec_grpEnc_next (mode := mode) hkind hn h hlt
  exact hfault _ (grpEncBlocks_waitPin (hp.trans hpin))

theorem exec_grpEnc_waitEncode (hpin : pin' ≠ []) (henc : enc' = []) : exec (.grpEnc nblk mode) s = .fault .waitEncode := by
  obtain ⟨n, frames, o, hp, he, -, -, hfault, -⟩ := exec_grpEnc_next (mode := mode) hkind hn h hlt
  obtain ⟨blk, rest, rfl⟩ := List.exists_cons_of_ne_nil hpin
  exact hfault _ (grpEncBlocks_waitEncode hp (he.trans henc))

theorem exec_grpEnc_recordContract {rep : EncReply} {after : List EncReply} (hpin : pin' ≠ []) (henc : enc' = rep :: after)
    (hbad : ¬ rep.contract s.cfg s.kind) : exec (.grpEnc nblk mode) s = .refused .recordContract := by
  obtain ⟨n, frames, o, hp, he, hcfg, hk, -, hrefused⟩ := exec_grpEnc_next (mode := mode) hkind hn h hlt
  obtain ⟨blk, rest, rfl⟩ := List.exists_cons_of_ne_nil hpin
  exact hrefused _ (grpEncBlocks_refused hp (he.trans henc) (by rwa [hcfg, hk]))

end

/-! ## The ways an operation completes -/

/-- What GRP.ENC does with its frames over the state `s`: `x` is the state but for the response `(st, _, r0, r1)` (R181, R187 to R189). -/
inductive Emits (s : State) : List Frame → State → Status → Nat → Nat → Prop
  | nothing : Emits s [] (s.setToc []) .ok 0 0
  | noSpace {frames : List Frame} (hf : frames ≠ []) (h : s.avail < 8 * (groupBytes frames).length) : Emits s frames s .noSpace 0 0
  | written {frames : List Frame} (hf : frames ≠ []) (h : 8 * (groupBytes frames).length ≤ s.avail) :
    Emits s frames ((s.wrote (bytesBits (groupBytes frames))).setToc (groupOctets frames)) .ok frames.length (groupBytes frames).length

/-- The operation `i` in state `s` completes: `x` is the state it leaves but for its response, which is `(st, w, r0, r1)`. One constructor
per way, with the conditions of the operation's rule. -/
inductive Completes (s : State) : Instr → State → Status → BitVec 3 → Nat → Nat → Prop
  | badOperand {i : Instr} (h : i.wellFormed s.cfg = false) (hk : ∀ n m, i = .grpEnc n m → s.kind ≠ .unknown) :
    Completes s i s .badOperand 0 0 0
  | bcAttach {len pos0 : Word} (hlen : len.toNat ≤ s.cfg.bufmax) (hpos : pos0.toNat ≤ 8 * len.toNat) :
    Completes s (.bcAttach len pos0) { s with len := BitVec.ofNat 29 len.toNat, pos := pos0 } .ok 0 0 0
  | bcRd {n : Word} (h1 : 1 ≤ n.toNat) (h2 : n.toNat ≤ 32) :
    Completes s (.bcRd n) (s.advance n.toNat) .ok (truncWarn n.toNat s.avail) (bitsValue (s.getBits s.cursor n.toNat))
      (min n.toNat s.avail)
  | bcWr {n value : Word} (h1 : 1 ≤ n.toNat) (h2 : n.toNat ≤ 32) :
    Completes s (.bcWr n value) ((s.putBits s.cursor (fieldBits n.toNat value.toNat)).advance n.toNat) .ok
      (truncWarn n.toNat s.avail) 0 (min n.toNat s.avail)
  | bcRdb {len : Word} (h : len.toNat ≤ s.cfg.bufmax) :
    Completes s (.bcRdb len) ((s.setCursor (s.cursor + 8 * s.wholeBytes len.toNat)).pushDout (s.octetsLeft len.toNat)) .ok
      (truncWarn len.toNat (s.wholeBytes len.toNat)) (s.wholeBytes len.toNat) 0
  | bcWrb {len : Word} {src rest : List Byte} (h : len.toNat ≤ s.cfg.bufmax) (hdin : s.din = src ++ rest)
    (hsrc : src.length = len.toNat) :
    Completes s (.bcWrb len) (({ s with din := rest }.putBits s.cursor (s.fittingBits src)).setCursor
      (s.cursor + 8 * s.wholeBytes src.length)) .ok (truncWarn src.length (s.wholeBytes src.length)) (s.wholeBytes src.length) 0
  | hsDetect : Completes s .hsDetect { s with kind := s.detectKind } .ok 0 (kindCode s.detectKind) (headerLength s.detectKind)
  | kindSetNb {kind : Word} (h : kind.toNat = 1) : Completes s (.kindSet kind) { s with kind := .nb } .ok 0 0 0
  | kindSetWb {kind : Word} (h : kind.toNat = 2) : Completes s (.kindSet kind) { s with kind := .wb } .ok 0 0 0
  | flLookupUnknown {ft : Word} (h : ft.toNat ≤ 15) (hk : s.kind = .unknown) : Completes s (.flLookup ft) s .unknownFormat 0 0 0
  | flLookupInvalid {ft : Word} (h : ft.toNat ≤ 15) (hk : s.kind ≠ .unknown) (hv : validFt s.cfg s.kind ft.toNat = false) :
    Completes s (.flLookup ft) s .invalidFrameType 0 0 0
  | flLookup {ft : Word} (h : ft.toNat ≤ 15) (hv : validFt s.cfg s.kind ft.toNat = true) :
    Completes s (.flLookup ft) s .ok 0 (flen s.cfg s.kind ft.toNat) (flen s.cfg s.kind ft.toNat - 1)
  | tocDecNoData (h : s.avail < 8) : Completes s .tocDec s .noData 0 0 0
  | tocDecMalformed (h : s.NoChainAt) :
    Completes s .tocDec ((s.advance (8 * Config.tocCap)).setToc []) .malformedToc (truncWarn (8 * Config.tocCap) s.avail) 0 0
  | tocDec {k : Nat} (h : s.ChainAt k) :
    Completes s .tocDec (((s.advance (8 * k)).setToc (s.octetsFrom s.cursor k)).pushDout (s.octetsFrom s.cursor k)) .ok
      (truncWarn (8 * k) s.avail) k ((min (s.cursor + 8 * k) s.limit - s.cursor) / 8)
  | tocEncNoSpace {k : Word} {src rest : List Byte} (h1 : 1 ≤ k.toNat) (h2 : k.toNat ≤ Config.tocCap) (hdin : s.din = src ++ rest)
    (hsrc : src.length = k.toNat) (hroom : s.avail < 8 * k.toNat) : Completes s (.tocEnc k) { s with din := rest } .noSpace 0 0 0
  | tocEnc {k : Word} {src rest : List Byte} (h1 : 1 ≤ k.toNat) (h2 : k.toNat ≤ Config.tocCap) (hdin : s.din = src ++ rest)
    (hsrc : src.length = k.toNat) (hroom : 8 * k.toNat ≤ s.avail) :
    Completes s (.tocEnc k) (({ s with din := rest }.wrote (bytesBits (reencoded src))).setToc (reencoded src)) .ok 0 k.toNat k.toNat
  | grpDecUnknown (h : s.kind = .unknown) : Completes s .grpDec s .unknownFormat 0 0 0
  | grpDecNoData (hk : s.kind ≠ .unknown) (h : s.avail < 8) : Completes s .grpDec s .noData 0 0 0
  | grpDecMalformed (hk : s.kind ≠ .unknown) (h : s.NoChainAt) :
    Completes s .grpDec ((s.advance (8 * Config.tocCap)).setToc []) .malformedToc (truncWarn (8 * Config.tocCap) s.avail) 0
      ((min (s.cursor + 8 * Config.tocCap) s.limit - s.cursor) / 8)
  | grpDec {k m : Nat} {blks rest : List PcmBlock} (hk : s.kind ≠ .unknown) (h : s.ChainAt k) (hm : s.Decodes (s.octetsFrom s.cursor k) m)
    (hd : s.decReps = blks ++ rest) (hl : blks.length = m) :
    Completes s .grpDec (s.groupDecoded k m blks rest) (if m = k then .ok else .invalidFrameType) (s.groupWarn k m) m
      (((s.groupDecoded k m blks rest).cursor - s.cursor) / 8)
  | grpEncUnknown {nblk mode : Word} (h : s.kind = .unknown) : Completes s (.grpEnc nblk mode) s .unknownFormat 0 0 0
  | grpEnc {nblk mode : Word} {blks pin' : List PcmBlock} {reps enc' : List EncReply} {skipped : Nat} {frames : List Frame}
    {x : State} {st : Status} {r0 r1 : Nat} (hk : s.kind ≠ .unknown) (hn : nblk.toNat ≤ Config.tocCap) (h : s.BlocksAt blks pin' reps enc')
    (hl : blks.length = nblk.toNat) (hs : skipped = nblk.toNat - (keptReplies s.cfg s.kind reps).length)
    (hf : frames = keptFrames s.cfg s.kind reps) (he : Emits (s.blocksEncoded mode blks pin' enc' skipped) frames x st r0 r1) :
    Completes s (.grpEnc nblk mode) x st (skipWarn skipped) r0 r1
  | csrRd {idx : Word} {v : Nat} (h : s.csr idx.toNat = some v) : Completes s (.csrRd idx) s .ok 0 v 0
  | flgClr {mask : Word} :
    Completes s (.flgClr mask) { s with flags := clearFlags s.flags mask, err := if mask.getLsbD 8 then 0 else s.err } .ok 0 0 0
  | hmLd {addr len : Word} {src rest : List Byte} (h : addr.toNat + len.toNat ≤ s.cfg.bufmax) (hdin : s.din = src ++ rest)
    (hsrc : src.length = len.toNat) : Completes s (.hmLd addr len) ({ s with din := rest }.memWrite addr.toNat src) .ok 0 len.toNat 0
  | hmSt {addr len : Word} (h : addr.toNat + len.toNat ≤ s.cfg.bufmax) :
    Completes s (.hmSt addr len) (s.pushDout (s.memRead addr.toNat len.toNat)) .ok 0 len.toNat 0
  | nop : Completes s .nop s .ok 0 0 0

theorem Emits.exec_eq {s x : State} {frames : List Frame} {st : Status} {r0 r1 : Nat} (h : Emits s frames x st r0 r1) (w : BitVec 3) :
    grpEncEmit frames ((Run.begin s).warn w) = .next (x.answered st w r0 r1) := by
  cases h with
  | nothing => exact grpEncEmit_nothing s w
  | noSpace hf h => exact grpEncEmit_noSpace s w hf h
  | written hf h => exact grpEncEmit_written s w hf h

theorem emits_cases (s : State) (frames : List Frame) : ∃ x st r0 r1, Emits s frames x st r0 r1 := by
  by_cases hf : frames = []
  · subst hf
    exact ⟨_, _, _, _, .nothing⟩
  rcases Nat.lt_or_ge s.avail (8 * (groupBytes frames).length) with hfull | hroom
  · exact ⟨_, _, _, _, .noSpace hf hfull⟩
  · exact ⟨_, _, _, _, .written hf hroom⟩

/-- An operation that completes has the next state that its way of completing says. -/
theorem Completes.exec_eq {i : Instr} {s x : State} {st : Status} {w : BitVec 3} {r0 r1 : Nat} (h : Completes s i x st w r0 r1) :
    exec i s = .next (x.answered st w r0 r1) := by
  cases h with
  | badOperand h hk => exact exec_badOperand h hk
  | bcAttach hlen hpos => exact exec_bcAttach_accepted hlen hpos
  | bcRd h1 h2 => exact exec_bcRd_eq h1 h2
  | bcWr h1 h2 => exact exec_bcWr_eq h1 h2
  | bcRdb h => exact exec_bcRdb_eq h
  | bcWrb h hdin hsrc => exact exec_bcWrb_eq h hdin hsrc
  | hsDetect => exact exec_hsDetect_eq rfl
  | kindSetNb h => exact exec_kindSet_nb s h
  | kindSetWb h => exact exec_kindSet_wb s h
  | flLookupUnknown h hk => exact exec_flLookup_unknownFormat h hk
  | flLookupInvalid h hk hv => exact exec_flLookup_invalid h hk hv
  | flLookup h hv => exact exec_flLookup_valid h hv
  | tocDecNoData h => exact exec_tocDec_noData h
  | tocDecMalformed h => exact exec_tocDec_malformed h.octet h.more
  | tocDec h => exact exec_tocDec_chain h.octet h.pos h.cap h.more h.last
  | tocEncNoSpace h1 h2 hdin hsrc hroom => exact exec_tocEnc_noSpace h1 h2 hdin hsrc hroom
  | tocEnc h1 h2 hdin hsrc hroom => exact exec_tocEnc_room h1 h2 hdin hsrc hroom
  | grpDecUnknown h => exact exec_grpDec_unknownFormat h
  | grpDecNoData hk h => exact exec_grpDec_noData hk h
  | grpDecMalformed hk h => exact exec_grpDec_malformed hk h.octet h.more
  | grpDec hk h hm hd hl => exact exec_grpDec_decoded hk h hm hd hl
  | grpEncUnknown h => exact exec_grpEnc_unknownFormat h
  | grpEnc hk hn h hl hs hf he =>
    rw [exec_grpEnc_emit hk hn h.pin hl h.enc (h.length.trans hl) h.contract hs, ← hf]
    exact he.exec_eq _
  | csrRd h => exact exec_csrRd_register h
  | flgClr => exact exec_flgClr_eq s _
  | hmLd h hdin hsrc => exact exec_hmLd_eq h hdin hsrc
  | hmSt h => exact exec_hmSt_eq h
  | nop => exact exec_nop_eq s

/-! ## The ways an operation has no next state (70_reset_and_hazards.md section 3) -/

/-- The operation `i` in state `s` has no next state: `out` is the fault or the refusal. -/
inductive Stops (s : State) : Instr → Host.Outcome State Fault Refusal → Prop
  | bcWrb {len : Word} (h : len.toNat ≤ s.cfg.bufmax) (hdin : s.din.length < len.toNat) : Stops s (.bcWrb len) (.fault .waitDin)
  | tocEnc {k : Word} (h1 : 1 ≤ k.toNat) (h2 : k.toNat ≤ Config.tocCap) (hdin : s.din.length < k.toNat) :
    Stops s (.tocEnc k) (.fault .waitDin)
  | hmLd {addr len : Word} (h : addr.toNat + len.toNat ≤ s.cfg.bufmax) (hdin : s.din.length < len.toNat) :
    Stops s (.hmLd addr len) (.fault .waitDin)
  | grpDec {k m : Nat} (hk : s.kind ≠ .unknown) (h : s.ChainAt k) (hm : s.Decodes (s.octetsFrom s.cursor k) m)
    (hd : s.decReps.length < m) : Stops s .grpDec (.fault .waitDecode)
  | waitPin {nblk mode : Word} {blks : List PcmBlock} {reps enc' : List EncReply} (hk : s.kind ≠ .unknown)
    (hn : nblk.toNat ≤ Config.tocCap) (h : s.BlocksAt blks [] reps enc') (hlt : blks.length < nblk.toNat) :
    Stops s (.grpEnc nblk mode) (.fault .waitPin)
  | waitEncode {nblk mode : Word} {blks pin' : List PcmBlock} {reps : List EncReply} (hk : s.kind ≠ .unknown)
    (hn : nblk.toNat ≤ Config.tocCap) (h : s.BlocksAt blks pin' reps []) (hlt : blks.length < nblk.toNat) (hpin : pin' ≠ []) :
    Stops s (.grpEnc nblk mode) (.fault .waitEncode)
  | recordContract {nblk mode : Word} {blks pin' : List PcmBlock} {reps after : List EncReply} {rep : EncReply} (hk : s.kind ≠ .unknown)
    (hn : nblk.toNat ≤ Config.tocCap) (h : s.BlocksAt blks pin' reps (rep :: after)) (hlt : blks.length < nblk.toNat) (hpin : pin' ≠ [])
    (hbad : ¬ rep.contract s.cfg s.kind) : Stops s (.grpEnc nblk mode) (.refused .recordContract)

theorem Stops.exec_eq {i : Instr} {s : State} {out : Host.Outcome State Fault Refusal} (h : Stops s i out) : exec i s = out := by
  cases h with
  | bcWrb h hdin => exact exec_bcWrb_waits h hdin
  | tocEnc h1 h2 hdin => exact exec_tocEnc_waits h1 h2 hdin
  | hmLd h hdin => exact exec_hmLd_waits h hdin
  | grpDec hk h hm hd => exact exec_grpDec_waits hk h (hm.le.trans_eq (s.octetsFrom_length _ _)) hm.valid hd
  | waitPin hk hn h hlt => exact exec_grpEnc_waitPin hk hn h hlt rfl
  | waitEncode hk hn h hlt hpin => exact exec_grpEnc_waitEncode hk hn h hlt hpin rfl
  | recordContract hk hn h hlt hpin hbad => exact exec_grpEnc_recordContract hk hn h hlt hpin rfl hbad

theorem Stops.not_next {i : Instr} {s t : State} {out : Host.Outcome State Fault Refusal} (h : Stops s i out) : out ≠ .next t := by
  cases h <;> simp

/-! ## There are no other ways -/

/-- The operation completes in one of the ways of `Completes` or has no next state for one of the reasons of `Stops`. -/
def Settled (i : Instr) (s : State) : Prop := (∃ x st w r0 r1, Completes s i x st w r0 r1) ∨ ∃ out, Stops s i out

theorem Completes.settled {i : Instr} {s x : State} {st : Status} {w : BitVec 3} {r0 r1 : Nat} (h : Completes s i x st w r0 r1) :
    Settled i s := .inl ⟨_, _, _, _, _, h⟩

theorem Stops.settled {i : Instr} {s : State} {out : Host.Outcome State Fault Refusal} (h : Stops s i out) : Settled i s := .inr ⟨_, h⟩

theorem settled_flLookup {s : State} {ft : Word} (h : ft.toNat ≤ 15) : Settled (.flLookup ft) s := by
  by_cases hk : s.kind = .unknown
  · exact (Completes.flLookupUnknown h hk).settled
  cases hv : validFt s.cfg s.kind ft.toNat with
  | false => exact (Completes.flLookupInvalid h hk hv).settled
  | true => exact (Completes.flLookup h hv).settled

theorem settled_tocDec (s : State) : Settled .tocDec s := by
  obtain h | ⟨k, h⟩ | h := s.chain_cases
  · exact (Completes.tocDecNoData h).settled
  · exact (Completes.tocDec h).settled
  · exact (Completes.tocDecMalformed h).settled

theorem settled_tocEnc {s : State} {k : Word} (h1 : 1 ≤ k.toNat) (h2 : k.toNat ≤ Config.tocCap) : Settled (.tocEnc k) s := by
  obtain hwait | ⟨src, rest, hdin, hsrc⟩ := s.din_cases k.toNat
  · exact (Stops.tocEnc h1 h2 hwait).settled
  rcases Nat.lt_or_ge s.avail (8 * k.toNat) with hfull | hroom
  · exact (Completes.tocEncNoSpace h1 h2 hdin hsrc hfull).settled
  · exact (Completes.tocEnc h1 h2 hdin hsrc hroom).settled

/-- The replies to decode requests are as many as the valid entries want, or fewer. -/
theorem settled_grpDec (s : State) : Settled .grpDec s := by
  by_cases hk : s.kind = .unknown
  · exact (Completes.grpDecUnknown hk).settled
  obtain h | ⟨k, h⟩ | h := s.chain_cases
  · exact (Completes.grpDecNoData hk h).settled
  · obtain ⟨m, hm⟩ := s.exists_decodes (s.octetsFrom s.cursor k)
    rcases Nat.lt_or_ge s.decReps.length m with hwait | hd
    · exact (Stops.grpDec hk h hm hwait).settled
    · exact (Completes.grpDec hk h hm (List.take_append_drop m s.decReps).symm (List.length_take_of_le hd)).settled
  · exact (Completes.grpDecMalformed hk h).settled

/-- The replies up to the first one that breaks the contract, if one of them does. -/
theorem exists_contract_prefix (c : Config) (k : Kind) (reps : List EncReply) :
    ∃ before after, reps = before ++ after ∧ (∀ r ∈ before, r.contract c k) ∧ ∀ r ∈ after.head?, ¬ r.contract c k := by
  induction reps with
  | nil => exact ⟨[], [], rfl, by simp, by simp⟩
  | cons r reps ih =>
    by_cases hr : r.contract c k
    · obtain ⟨before, after, rfl, hb, ha⟩ := ih
      exact ⟨r :: before, after, rfl, List.forall_mem_cons.2 ⟨hr, hb⟩, ha⟩
    · exact ⟨[], r :: reps, rfl, by simp, by simpa using hr⟩

/-- GRP.ENC takes as many blocks as it wants, as there are, or as there are replies within the contract, whichever are the fewest. -/
theorem settled_grpEnc (nblk mode : Word) (s : State) : Settled (.grpEnc nblk mode) s := by
  by_cases hk : s.kind = .unknown
  · exact (Completes.grpEncUnknown hk).settled
  rcases Nat.lt_or_ge Config.tocCap nblk.toNat with hbad | hn
  · exact (Completes.badOperand (by simpa [Instr.wellFormed] using hbad) fun _ _ _ => hk).settled
  obtain ⟨before, after, henc, hcontract, hbroken⟩ := exists_contract_prefix s.cfg s.kind s.encReps
  have htake : ∀ j, j ≤ s.pin.length → j ≤ before.length →
      s.BlocksAt (s.pin.take j) (s.pin.drop j) (before.take j) (before.drop j ++ after) := fun j hp hb => by
    have hlen : (before.take j).length = j := List.length_take_of_le hb
    have hsplit : s.encReps = before.take j ++ (before.drop j ++ after) := by rw [← List.append_assoc, List.take_append_drop, henc]
    simpa only [hlen] using State.blocksAt_of_encReps hsplit (hlen.trans_le hp) fun r hr => hcontract r (List.mem_of_mem_take hr)
  by_cases hall : nblk.toNat ≤ s.pin.length ∧ nblk.toNat ≤ before.length
  · obtain ⟨x, st, r0, r1, he⟩ := emits_cases _ _
    exact (Completes.grpEnc hk hn (htake nblk.toNat hall.1 hall.2) (List.length_take_of_le hall.1) rfl rfl he).settled
  rcases Nat.lt_or_ge before.length s.pin.length with hlt | hle
  · have hpin : s.pin.drop before.length ≠ [] := by simpa using hlt
    have hcount : (s.pin.take before.length).length < nblk.toNat := by rw [List.length_take_of_le hlt.le]; omega
    have hblocks := htake before.length hlt.le (le_refl _)
    rw [List.drop_length, List.nil_append] at hblocks
    cases after with
    | nil => exact (Stops.waitEncode hk hn hblocks hcount hpin).settled
    | cons rep after => exact (Stops.recordContract hk hn hblocks hcount hpin (hbroken rep rfl)).settled
  · have hblocks := htake s.pin.length (le_refl _) hle
    rw [List.take_length, List.drop_length] at hblocks
    exact (Stops.waitPin hk hn hblocks (by omega)).settled

/-- Every operation, in every state: the operands out of range first, then each operation with operands in range. -/
theorem exec_settled (i : Instr) (s : State) : Settled i s := by
  by_cases hgrp : ∃ nblk mode, i = .grpEnc nblk mode
  · obtain ⟨nblk, mode, rfl⟩ := hgrp
    exact settled_grpEnc nblk mode s
  cases hgood : i.wellFormed s.cfg with
  | false => exact (Completes.badOperand hgood fun nblk mode h => absurd ⟨nblk, mode, h⟩ hgrp).settled
  | true =>
    cases i with
    | bcAttach len pos0 =>
      obtain ⟨hlen, hpos⟩ := of_decide_eq_true hgood
      exact (Completes.bcAttach hlen hpos).settled
    | bcRd n =>
      obtain ⟨h1, h2⟩ := of_decide_eq_true hgood
      exact (Completes.bcRd h1 h2).settled
    | bcWr n value =>
      obtain ⟨h1, h2⟩ := of_decide_eq_true hgood
      exact (Completes.bcWr h1 h2).settled
    | bcRdb len => exact (Completes.bcRdb (of_decide_eq_true hgood)).settled
    | bcWrb len =>
      obtain hwait | ⟨src, rest, hdin, hsrc⟩ := s.din_cases len.toNat
      · exact (Stops.bcWrb (of_decide_eq_true hgood) hwait).settled
      · exact (Completes.bcWrb (of_decide_eq_true hgood) hdin hsrc).settled
    | hsDetect => exact Completes.hsDetect.settled
    | kindSet kind =>
      obtain h | h := of_decide_eq_true hgood
      · exact (Completes.kindSetNb h).settled
      · exact (Completes.kindSetWb h).settled
    | flLookup ft => exact settled_flLookup (of_decide_eq_true hgood)
    | tocDec => exact settled_tocDec s
    | tocEnc k =>
      obtain ⟨h1, h2⟩ := of_decide_eq_true hgood
      exact settled_tocEnc h1 h2
    | grpDec => exact settled_grpDec s
    | grpEnc nblk mode => exact absurd ⟨nblk, mode, rfl⟩ hgrp
    | csrRd idx =>
      have hsome : s.csr idx.toNat ≠ none := fun hnone => by simp [(s.csr_eq_none_iff idx).1 hnone] at hgood
      obtain ⟨v, hv⟩ := Option.ne_none_iff_exists'.1 hsome
      exact (Completes.csrRd hv).settled
    | flgClr mask => exact Completes.flgClr.settled
    | hmLd addr len =>
      obtain hwait | ⟨src, rest, hdin, hsrc⟩ := s.din_cases len.toNat
      · exact (Stops.hmLd (of_decide_eq_true hgood) hwait).settled
      · exact (Completes.hmLd (of_decide_eq_true hgood) hdin hsrc).settled
    | hmSt addr len => exact (Completes.hmSt (of_decide_eq_true hgood)).settled
    | nop => exact Completes.nop.settled

/-- An operation has a next state exactly when it completes, and then it is the one its way of completing says. -/
theorem exec_next_iff {i : Instr} {s t : State} :
    exec i s = .next t ↔ ∃ x st w r0 r1, Completes s i x st w r0 r1 ∧ t = x.answered st w r0 r1 := by
  constructor
  · intro h
    obtain ⟨x, st, w, r0, r1, hc⟩ | ⟨out, hs⟩ := exec_settled i s
    · exact ⟨x, st, w, r0, r1, hc, (Host.Outcome.next.inj (hc.exec_eq.symm.trans h)).symm⟩
    · exact absurd (hs.exec_eq.symm.trans h) hs.not_next
  · rintro ⟨x, st, w, r0, r1, hc, rfl⟩
    exact hc.exec_eq

end Sys2Proof.Machine
end

section
/-! PROOF. The rules of the whole machine that follow from the ways an operation completes or stops: waiting (R271), the refusal of U2, the
response, operands out of range, and bytes past the attached region (R41). -/

namespace Sys2Proof.Machine

/-! ## Waiting and refusing -/

/-- Entries read from the cursor and normalised have the frame type of the octet there. -/
theorem State.octetFt_octetsFrom (s : State) (a : Nat) {k i : Nat} (h : i < k) :
    octetFt ((s.octetsFrom a k).getD i 0) = octetFt (s.octetAt (a + 8 * i)) := by
  rw [State.octetsFrom, List.getD_eq_getElem _ _ (by simpa using h), List.getElem_map, List.getElem_range, octetFt_and_FC]

/-- Settles O19: each clause is one of the ways of `Stops`. -/
theorem operationsWaitForTheirInput : Obligations.OperationsWaitForTheirInput := by
  refine ⟨fun s len => exec_bcWrb_waits, fun s k => exec_tocEnc_waits, fun s addr len => exec_hmLd_waits,
    fun s nblk mode hk hn hc => ⟨fun hpin hle => ?_, fun henc hlt => ?_⟩, fun s k m hk h8 hcap hmk hF hL hv hd => ?_⟩
  · have hlen := List.length_take_of_le hle
    have hblocks := State.blocksAt_of_encReps (List.take_append_drop s.pin.length s.encReps).symm hlen.le
      fun r hr => hc r (List.mem_of_mem_take hr)
    rw [hlen, List.take_length, List.drop_length] at hblocks
    exact exec_grpEnc_waitPin hk hn hblocks hpin rfl
  · have hblocks := State.blocksAt_of_encReps (List.append_nil s.encReps).symm hlt.le hc
    exact exec_grpEnc_waitEncode hk hn hblocks (by rwa [List.length_take_of_le hlt.le]) (by simpa using hlt) rfl
  · refine exec_grpDec_waits hk ⟨h8, by omega, hcap, hF, hL⟩ hmk (fun i hi => ?_) hd
    rw [s.octetFt_octetsFrom _ (by omega)]
    exact hv i hi

/-- Settles O49: the blocks and replies before the broken one are taken, and it is the next. -/
theorem grpEncRefusesARecordOfAnotherLength : Obligations.GrpEncRefusesARecordOfAnotherLength := by
  intro s nblk mode before after broken hk hn hlt hpin henc hc hbad
  exact exec_grpEnc_recordContract hk hn (State.blocksAt_of_encReps henc hpin.le hc) (by rwa [List.length_take_of_le hpin.le])
    (by simpa using hpin) rfl hbad

/-! ## Responses -/

section
variable {i : Instr} {s x : State} {st : Status} {w : BitVec 3} {r0 r1 : Nat}

theorem Emits.frame {frames : List Frame} (h : Emits s frames x st r0 r1) :
    x = { s with buf := x.buf, pos := x.pos, tocn := x.tocn, tocbuf := x.tocbuf } := by
  cases h with
  | nothing => rfl
  | noSpace => rfl
  | written =>
    rw [State.wrote_eq]
    rfl

/-- Before its response no operation touches the configuration, the reset count or the command and response channels. -/
theorem Completes.channels (h : Completes s i x st w r0 r1) :
    x.cfg = s.cfg ∧ x.epoch = s.epoch ∧ x.cmds = s.cmds ∧ x.rsps = s.rsps := by
  cases h with
  | grpEnc _ _ _ _ _ _ he =>
    rw [he.frame]
    exact ⟨rfl, rfl, rfl, rfl⟩
  | bcWr | bcWrb | tocEnc => simp
  | _ => exact ⟨rfl, rfl, rfl, rfl⟩

/-- Only operands out of range are answered E_BAD_OPERAND (R238). -/
theorem Completes.status_ne_badOperand (h : Completes s i x st w r0 r1) (hgood : i.wellFormed s.cfg = true) : st ≠ .badOperand := by
  cases h with
  | badOperand hbad => simp [hgood] at hbad
  | grpDec => split_ifs <;> decide
  | grpEnc _ _ _ _ _ _ he => cases he <;> decide
  | _ => decide

end

/-- Settles O17: the tests of the operands come first (`exec_badOperand`), and no other way of completing has that status. -/
theorem badOperandsAreRefusedBeforeAnyEffect : Obligations.BadOperandsAreRefusedBeforeAnyEffect := by
  refine ⟨fun i s => exec_badOperand, fun i s t r hgood h hr => ?_⟩
  obtain ⟨x, st, w, r0, r1, hc, rfl⟩ := exec_next_iff.1 h
  obtain ⟨-, -, -, hrsps⟩ := hc.channels
  rw [State.answered_rsps, hrsps, List.append_cancel_left_eq, List.singleton_inj] at hr
  rw [← hr]
  exact hc.status_ne_badOperand hgood

/-- Settles O15: FLG.CLR answers OK, and every other operation is answered as `exec_answeredBy` says. -/
theorem everyOperationAnswersOnceAndFlagsAreSticky : Obligations.EveryOperationAnswersOnceAndFlagsAreSticky := by
  intro i s t h
  by_cases hi : ∃ mask, i = .flgClr mask
  · obtain ⟨mask, rfl⟩ := hi
    cases (exec_flgClr_eq s mask).symm.trans h
    exact ⟨_, rfl, fun hne => absurd rfl (hne mask)⟩
  · obtain ⟨r, hflags, herr, hrsps⟩ := exec_answeredBy (fun mask hm => hi ⟨mask, hm⟩) h
    exact ⟨r, hrsps, fun _ => ⟨hflags, fun hok => by rw [herr, hok, errAfter_ok], fun hne => herr.trans (errAfter_error _ hne)⟩⟩

/-! ## Bytes past the attached region -/

theorem State.lookup_wrote_past (s : State) (bs : List Bool) {a : Nat} (h : s.len.toNat ≤ a) :
    Memory.lookup (s.wrote bs).buf a = Memory.lookup s.buf a := s.lookup_putBits_past s.cursor bs h

/-- No operation but HM.LD writes a byte past the region (R41). -/
theorem Completes.lookup_past {i : Instr} {s x : State} {st : Status} {w : BitVec 3} {r0 r1 a : Nat} (h : Completes s i x st w r0 r1)
    (hi : ∀ addr len, i ≠ .hmLd addr len) (ha : s.len.toNat ≤ a) : Memory.lookup x.buf a = Memory.lookup s.buf a := by
  cases h with
  | hmLd => exact absurd rfl (hi _ _)
  | bcWr => exact s.lookup_putBits_past _ _ ha
  | bcWrb => exact State.lookup_putBits_past _ _ _ ha
  | tocEnc => exact State.lookup_wrote_past _ _ ha
  | grpEnc _ _ _ _ _ _ he =>
    cases he with
    | nothing | noSpace => rfl
    | written => exact State.lookup_wrote_past _ _ ha
  | _ => rfl

/-- Settles O14: a byte of BUF is the byte listed there, or the free byte of the reset count, which no operation changes. -/
theorem bytesPastTheRegionAreKept : Obligations.BytesPastTheRegionAreKept := by
  intro i s t a hi h ha
  obtain ⟨x, st, w, r0, r1, hc, rfl⟩ := exec_next_iff.1 h
  obtain ⟨-, hepoch, -, -⟩ := hc.channels
  have hlookup := hc.lookup_past hi ha
  rw [State.bufByte_answered, State.answered_buf, State.bufByte, State.bufByte, hlookup, hepoch]
  exact ⟨rfl, Iff.rfl⟩

end Sys2Proof.Machine
end

section
/-! PROOF. The write matrix (10_state.md section 11, R33): what each operation leaves unchanged. -/

namespace Sys2Proof.Machine

/-- `s` with the pieces `ps` taken from `x`; the flags and ERR, which the response changes too, and the responses are those of `x`. -/
def State.patch (s x : State) (ps : List Piece) : State where
  cfg := s.cfg
  buf := if .buf ∈ ps then x.buf else s.buf
  len := if .len ∈ ps then x.len else s.len
  pos := if .pos ∈ ps then x.pos else s.pos
  kind := if .kind ∈ ps then x.kind else s.kind
  flags := x.flags
  err := x.err
  tocn := if .toc ∈ ps then x.tocn else s.tocn
  tocbuf := if .toc ∈ ps then x.tocbuf else s.tocbuf
  exppay := if .paylens ∈ ps then x.exppay else s.exppay
  rempay := if .paylens ∈ ps then x.rempay else s.rempay
  skipcnt := if .skipcnt ∈ ps then x.skipcnt else s.skipcnt
  din := if .din ∈ ps then x.din else s.din
  dout := if .dout ∈ ps then x.dout else s.dout
  pin := if .pin ∈ ps then x.pin else s.pin
  pout := if .pout ∈ ps then x.pout else s.pout
  cmds := s.cmds
  rsps := x.rsps
  engReqs := if .codecReqs ∈ ps then x.engReqs else s.engReqs
  decReps := if .codecDec ∈ ps then x.decReps else s.decReps
  encReps := if .codecEnc ∈ ps then x.encReps else s.encReps
  epoch := s.epoch

theorem State.patch_self (s : State) (ps : List Piece) : s.patch s ps = s := by
  simp only [State.patch, ite_self]

section
variable {i : Instr} {s x : State} {st : Status} {w : BitVec 3} {r0 r1 : Nat}

/-- But for the flags, ERR and the response an operation changes the pieces of its row only. -/
theorem Completes.eq_patch (h : Completes s i x st w r0 r1) : x = s.patch x (mayWrite i) := by
  cases h with
  | badOperand | grpEncUnknown | grpDecUnknown | grpDecNoData => exact (State.patch_self _ _).symm
  | bcWr | bcWrb | tocEnc => apply State.ext <;> simp [State.patch, mayWrite]
  | grpEnc _ _ _ _ _ _ he =>
    rw [he.frame]
    rfl
  | _ => rfl

/-- The operations whose row has no ERR column answer OK and leave ERR alone (R33). -/
theorem Completes.err_kept (h : Completes s i x st w r0 r1) (hp : .err ∉ mayWrite i) : errAfter x.err st = s.err := by
  cases h with
  | hsDetect | nop => rfl
  | badOperand hbad =>
    cases i with
    | hsDetect | nop => cases hbad
    | _ => simp [mayWrite] at hp
  | _ => simp [mayWrite] at hp

end

/-! ## Warnings -/

/-- Bit `j` of FLAGS as a piece of the write matrix (R17, R33). -/
def flagPiece : Fin 3 → Piece
  | 0 => .trunc
  | 1 => .plm
  | 2 => .eef

theorem truncWarn_bit {wanted there : Nat} {j : Fin 3} (h : (truncWarn wanted there).getLsbD j = true) : j = 0 := by
  obtain hw | hw := truncWarn_cases wanted there <;>
  · rw [hw] at h
    revert j
    decide

theorem plmWarn_bit {expected remaining : Nat} {j : Fin 3} (h : (plmWarn expected remaining).getLsbD j = true) : j = 1 := by
  unfold plmWarn at h
  split_ifs at h <;>
  · revert j
    decide

theorem skipWarn_bit {skipped : Nat} {j : Fin 3} (h : (skipWarn skipped).getLsbD j = true) : j = 2 := by
  unfold skipWarn at h
  split_ifs at h <;>
  · revert j
    decide

theorem State.groupWarn_bit {s : State} {k m : Nat} {j : Fin 3} (h : (s.groupWarn k m).getLsbD j = true) : j = 0 ∨ j = 1 := by
  simp only [State.groupWarn, BitVec.getLsbD_or, Bool.or_eq_true] at h
  obtain (h | h) | h := h
  · exact .inl (truncWarn_bit h)
  · exact .inr (plmWarn_bit h)
  · exact .inl (truncWarn_bit h)

section
variable {i : Instr} {s x : State} {st : Status} {w : BitVec 3} {r0 r1 : Nat}

/-- An operation raises no warning outside its row (R33). -/
theorem Completes.warn_mem (h : Completes s i x st w r0 r1) {j : Fin 3} (hj : w.getLsbD j = true) : flagPiece j ∈ mayWrite i := by
  cases h with
  | bcRd | bcWr | bcRdb | bcWrb | tocDecMalformed | tocDec | grpDecMalformed =>
    obtain rfl := truncWarn_bit hj
    exact of_decide_eq_true rfl
  | grpDec =>
    obtain rfl | rfl := State.groupWarn_bit hj <;> decide
  | grpEnc =>
    obtain rfl := skipWarn_bit hj
    exact of_decide_eq_true rfl
  | _ => simp at hj

/-- Before its response no operation but FLG.CLR, whose row has all three flags, touches FLAGS. -/
theorem Completes.flags_kept (h : Completes s i x st w r0 r1) {j : Fin 3} (hp : flagPiece j ∉ mayWrite i) : x.flags = s.flags := by
  cases h with
  | flgClr => exact absurd ((by decide : ∀ j, flagPiece j ∈ [Piece.trunc, .plm, .eef, .err]) j) hp
  | bcWr | bcWrb | tocEnc => simp
  | grpEnc _ _ _ _ _ _ he =>
    rw [he.frame]
    rfl
  | _ => rfl

theorem Completes.flag_kept (h : Completes s i x st w r0 r1) (j : Fin 3) (hp : flagPiece j ∉ mayWrite i) :
    (x.flags ||| w).getLsbD j = s.flags.getLsbD j := by
  have hw : w.getLsbD j = false := Bool.eq_false_iff.2 fun hj => hp (h.warn_mem hj)
  rw [BitVec.getLsbD_or, hw, Bool.or_false, h.flags_kept hp]

end

/-- Settles O16: the flags by `Completes.flag_kept`, ERR by `Completes.err_kept`, every other piece by `Completes.eq_patch`. -/
theorem operationsWriteOnlyTheirOwnState : Obligations.OperationsWriteOnlyTheirOwnState := by
  intro i s t p h hp
  obtain ⟨x, st, w, r0, r1, hc, rfl⟩ := exec_next_iff.1 h
  cases p with
  | trunc => exact hc.flag_kept 0 hp
  | plm => exact hc.flag_kept 1 hp
  | eef => exact hc.flag_kept 2 hp
  | err => exact hc.err_kept hp
  | _ =>
    simp only [Piece.same]
    rw [hc.eq_patch]
    simp [State.patch, hp]

end Sys2Proof.Machine
end

section
/-! PROOF. The attached region (20_memory.md R41): from states that differ in bytes past it at most, an operation completes or stops in the
same way. -/

namespace Sys2Proof.Machine

/-! ## What is read inside the region -/

section
variable {s t : State} (h : State.sameBelow s.len.toNat s t)
include h

theorem State.octetAt_sameBelow (a : Nat) : t.octetAt a = s.octetAt a := by rw [State.octetAt, State.getBits_sameBelow h, State.octetAt]

theorem State.octetsFrom_sameBelow (a k : Nat) : t.octetsFrom a k = s.octetsFrom a k := by
  simp only [State.octetsFrom, State.octetAt_sameBelow h]

theorem State.legacyRecords_sameBelow (a n off : Nat) (es : List Byte) : t.legacyRecords a n off es = s.legacyRecords a n off es := by
  obtain ⟨ht, -⟩ := State.sameBelow_iff.1 h
  have hcfg : t.cfg = s.cfg := by rw [ht]
  have hkind : t.kind = s.kind := by rw [ht]
  induction es generalizing off with
  | nil => rfl
  | cons e es ih => simp only [State.legacyRecords, State.tailByte, State.octetAt_sameBelow h, hcfg, hkind, ih]

theorem State.detectKind_sameBelow : t.detectKind = s.detectKind := by
  obtain ⟨ht, hb⟩ := State.sameBelow_iff.1 h
  have hlen : t.len = s.len := by rw [ht]
  have hread : t.memRead 0 t.len.toNat = s.memRead 0 s.len.toNat := by
    rw [hlen]
    refine List.map_congr_left fun i hi => (hb _ ?_).symm
    simpa using hi
  rw [State.detectKind_eq, State.detectKind_eq, hread]

end

/-! ## What is left of two such states -/

/-- Two states that agree below `n` still do after a change that neither looks at BUF nor writes it. -/
theorem State.sameBelow_map {n : Nat} {s t : State} (h : State.sameBelow n s t) (f : State → State)
    (hf : ∀ x b, f { x with buf := b } = { f x with buf := b } := by intros; rfl) (hbuf : ∀ x, (f x).buf = x.buf := by intros; rfl)
    (hepoch : ∀ x, (f x).epoch = x.epoch := by intros; rfl) : State.sameBelow n (f s) (f t) := by
  obtain ⟨ht, hb⟩ := State.sameBelow_iff.1 h
  refine State.sameBelow_iff.2 ⟨?_, fun a ha => ?_⟩
  · rw [hbuf, ← hf, ← ht]
  · rw [State.bufByte_congr (hbuf s) (hepoch s), State.bufByte_congr (hbuf t) (hepoch t), hb a ha]

/-- The same for a state made of `s` without a look at BUF, and the state made alike with another BUF. -/
theorem State.sameBelow_frame {n : Nat} {s x : State} {b : List Host.Cell} (h : State.sameBelow n s { s with buf := b })
    (hbuf : x.buf = s.buf) (hepoch : x.epoch = s.epoch) : State.sameBelow n x { x with buf := b } := by
  obtain ⟨-, hb⟩ := State.sameBelow_iff.1 h
  refine State.sameBelow_iff.2 ⟨rfl, fun a ha => ?_⟩
  rw [State.bufByte_congr hbuf hepoch, hb a ha]
  exact (State.bufByte_congr (s := { s with buf := b }) (t := { x with buf := b }) rfl hepoch a).symm

theorem State.wrote_sameBelow {s t : State} (h : State.sameBelow s.len.toNat s t) (bs : List Bool) :
    State.sameBelow s.len.toNat (s.wrote bs) (t.wrote bs) := by
  obtain ⟨ht, -⟩ := State.sameBelow_iff.1 h
  have hcursor : t.cursor = s.cursor := by rw [ht]; rfl
  rw [State.wrote, State.wrote, hcursor]
  exact State.sameBelow_map (State.putBits_sameBelow h _ _) (State.advance · bs.length)

/-! ## The operations -/

section
variable {i : Instr} {s x : State} {st : Status} {w : BitVec 3} {r0 r1 : Nat} {b : List Host.Cell}
  (hb : State.sameBelow s.len.toNat s { s with buf := b })
include hb

theorem State.ChainAt.sameBelow {k : Nat} (h : s.ChainAt k) : State.ChainAt { s with buf := b } k :=
  ⟨h.octet, h.pos, h.cap, fun i hi => (congrArg octetF (State.octetAt_sameBelow hb _)).trans (h.more i hi),
    (congrArg octetF (State.octetAt_sameBelow hb _)).trans h.last⟩

theorem State.NoChainAt.sameBelow (h : s.NoChainAt) : State.NoChainAt { s with buf := b } :=
  ⟨h.octet, fun i hi => (congrArg octetF (State.octetAt_sameBelow hb _)).trans (h.more i hi)⟩

theorem State.chainTaken_sameBelow (k : Nat) : State.chainTaken { s with buf := b } k = { s.chainTaken k with buf := b } := by
  rw [State.chainTaken, State.octetsFrom_sameBelow hb]
  rfl

theorem State.framesDecoded_sameBelow (es : List Byte) (blks rest : List PcmBlock) :
    State.framesDecoded { s with buf := b } es blks rest = { s.framesDecoded es blks rest with buf := b } := by
  rw [State.framesDecoded, State.legacyRecords_sameBelow hb]
  rfl

theorem State.groupDecoded_sameBelow (k m : Nat) (blks rest : List PcmBlock) :
    State.groupDecoded { s with buf := b } k m blks rest = { s.groupDecoded k m blks rest with buf := b } := by
  rw [State.groupDecoded, State.octetsFrom_sameBelow hb, State.chainTaken_sameBelow hb]
  exact State.framesDecoded_sameBelow (s := s.chainTaken k) (State.sameBelow_frame hb rfl rfl) _ blks rest

theorem State.groupWarn_sameBelow (k m : Nat) : State.groupWarn { s with buf := b } k m = s.groupWarn k m := by
  rw [State.groupWarn, State.octetsFrom_sameBelow hb, State.chainTaken_sameBelow hb]
  rfl

theorem State.Decodes.sameBelow {k m : Nat} (h : s.Decodes (s.octetsFrom s.cursor k) m) :
    State.Decodes { s with buf := b } (State.octetsFrom { s with buf := b } s.cursor k) m := by
  rw [State.octetsFrom_sameBelow hb]
  exact ⟨h.le, h.valid, h.stop⟩

theorem Emits.sameBelow {frames : List Frame} (h : Emits s frames x st r0 r1) :
    ∃ y, Emits { s with buf := b } frames y st r0 r1 ∧ State.sameBelow s.len.toNat x y := by
  cases h with
  | nothing => exact ⟨_, .nothing, State.sameBelow_frame hb rfl rfl⟩
  | noSpace hf h => exact ⟨_, .noSpace hf h, hb⟩
  | written hf h => exact ⟨_, .written hf h, State.sameBelow_map (State.wrote_sameBelow hb _) (State.setToc · _)⟩

/-- No operation but HM.LD and HM.ST completes in another way when bytes past the region differ, or carries them into the region. -/
theorem Completes.sameBelow (h : Completes s i x st w r0 r1) (hi : ∀ addr len, i ≠ .hmLd addr len ∧ i ≠ .hmSt addr len) :
    ∃ y, Completes { s with buf := b } i y st w r0 r1 ∧ State.sameBelow s.len.toNat x y := by
  have hbits := State.getBits_sameBelow hb
  have hfrom := State.octetsFrom_sameBelow hb
  cases h with
  | badOperand h hk => exact ⟨_, .badOperand h hk, hb⟩
  | bcAttach hlen hpos => exact ⟨_, .bcAttach hlen hpos, State.sameBelow_frame hb rfl rfl⟩
  | bcRd h1 h2 =>
    have h := Completes.bcRd (s := { s with buf := b }) h1 h2
    rw [hbits] at h
    exact ⟨_, h, State.sameBelow_frame hb rfl rfl⟩
  | bcWr h1 h2 =>
    exact ⟨_, .bcWr h1 h2, State.sameBelow_map (State.putBits_sameBelow hb _ _) (State.advance · _)⟩
  | bcRdb h =>
    have hleft : State.octetsLeft { s with buf := b } = s.octetsLeft := by
      funext n
      exact List.map_congr_left fun i _ => State.octetAt_sameBelow hb _
    have h := Completes.bcRdb (s := { s with buf := b }) h
    rw [hleft] at h
    exact ⟨_, h, State.sameBelow_frame hb rfl rfl⟩
  | @bcWrb len src rest h hdin hsrc =>
    have hrest : State.sameBelow s.len.toNat { s with din := rest } { s with buf := b, din := rest } := State.sameBelow_frame hb rfl rfl
    exact ⟨_, .bcWrb h hdin hsrc, State.sameBelow_map (State.putBits_sameBelow hrest _ _) (State.setCursor · _)⟩
  | hsDetect =>
    have h := Completes.hsDetect (s := { s with buf := b })
    rw [State.detectKind_sameBelow hb] at h
    exact ⟨_, h, State.sameBelow_frame hb rfl rfl⟩
  | kindSetNb h => exact ⟨_, .kindSetNb h, State.sameBelow_frame hb rfl rfl⟩
  | kindSetWb h => exact ⟨_, .kindSetWb h, State.sameBelow_frame hb rfl rfl⟩
  | flLookupUnknown h hk => exact ⟨_, .flLookupUnknown h hk, hb⟩
  | flLookupInvalid h hk hv => exact ⟨_, .flLookupInvalid h hk hv, hb⟩
  | flLookup h hv => exact ⟨_, .flLookup h hv, hb⟩
  | tocDecNoData h => exact ⟨_, .tocDecNoData h, hb⟩
  | tocDecMalformed h => exact ⟨_, .tocDecMalformed (h.sameBelow hb), State.sameBelow_frame hb rfl rfl⟩
  | tocDec h =>
    have h := Completes.tocDec (h.sameBelow hb)
    rw [hfrom] at h
    exact ⟨_, h, State.sameBelow_frame hb rfl rfl⟩
  | tocEncNoSpace h1 h2 hdin hsrc hroom => exact ⟨_, .tocEncNoSpace h1 h2 hdin hsrc hroom, State.sameBelow_frame hb rfl rfl⟩
  | @tocEnc k src rest h1 h2 hdin hsrc hroom =>
    have hrest : State.sameBelow s.len.toNat { s with din := rest } { s with buf := b, din := rest } := State.sameBelow_frame hb rfl rfl
    exact ⟨_, .tocEnc h1 h2 hdin hsrc hroom, State.sameBelow_map (State.wrote_sameBelow hrest _) (State.setToc · _)⟩
  | grpDecUnknown h => exact ⟨_, .grpDecUnknown h, hb⟩
  | grpDecNoData hk h => exact ⟨_, .grpDecNoData hk h, hb⟩
  | grpDecMalformed hk h => exact ⟨_, .grpDecMalformed hk (h.sameBelow hb), State.sameBelow_frame hb rfl rfl⟩
  | grpDec hk h hm hd hl =>
    have h := Completes.grpDec (s := { s with buf := b }) hk (h.sameBelow hb) (hm.sameBelow hb) hd hl
    rw [State.groupDecoded_sameBelow hb, State.groupWarn_sameBelow hb] at h
    exact ⟨_, h, State.sameBelow_frame hb rfl rfl⟩
  | grpEncUnknown h => exact ⟨_, .grpEncUnknown h, hb⟩
  | @grpEnc nblk mode blks pin' reps enc' skipped frames _ _ _ _ hk hn h hl hs hf he =>
    have hbase : State.sameBelow s.len.toNat (s.blocksEncoded mode blks pin' enc' skipped)
        (State.blocksEncoded { s with buf := b } mode blks pin' enc' skipped) := State.sameBelow_frame hb rfl rfl
    obtain ⟨y, hy, hsame⟩ := he.sameBelow hbase
    exact ⟨y, .grpEnc hk hn ⟨h.pin, h.enc, h.length, h.contract⟩ hl hs hf hy, hsame⟩
  | csrRd h => exact ⟨_, .csrRd h, hb⟩
  | flgClr => exact ⟨_, .flgClr, State.sameBelow_frame hb rfl rfl⟩
  | hmLd => exact absurd rfl (hi _ _).1
  | hmSt => exact absurd rfl (hi _ _).2
  | nop => exact ⟨_, .nop, hb⟩

theorem Stops.sameBelow {out : Host.Outcome State Fault Refusal} (h : Stops s i out) : Stops { s with buf := b } i out := by
  cases h with
  | bcWrb h hdin => exact .bcWrb h hdin
  | tocEnc h1 h2 hdin => exact .tocEnc h1 h2 hdin
  | hmLd h hdin => exact .hmLd h hdin
  | grpDec hk h hm hd => exact .grpDec hk (h.sameBelow hb) (hm.sameBelow hb) hd
  | waitPin hk hn h hlt => exact .waitPin hk hn ⟨h.pin, h.enc, h.length, h.contract⟩ hlt
  | waitEncode hk hn h hlt hpin => exact .waitEncode hk hn ⟨h.pin, h.enc, h.length, h.contract⟩ hlt hpin
  | recordContract hk hn h hlt hpin hbad => exact .recordContract hk hn ⟨h.pin, h.enc, h.length, h.contract⟩ hlt hpin hbad

end

/-- Settles O13: every way of completing and of stopping is the same in both states, and the response changes both alike. -/
theorem operationsSeeOnlyTheAttachedRegion : Obligations.OperationsSeeOnlyTheAttachedRegion := by
  intro i s t hi h
  obtain ⟨b, rfl⟩ : ∃ b, t = { s with buf := b } := ⟨t.buf, (State.sameBelow_iff.1 h).1⟩
  obtain ⟨x, st, w, r0, r1, hc⟩ | ⟨out, hs⟩ := exec_settled i s
  · obtain ⟨y, hy, hxy⟩ := hc.sameBelow h hi
    exact .inl ⟨_, _, hc.exec_eq, hy.exec_eq, State.sameBelow_map hxy (State.answered · st w r0 r1)⟩
  · have hs' := hs.sameBelow h
    rw [hs.exec_eq, hs'.exec_eq]
    cases out with
    | next t => exact absurd rfl hs.not_next
    | fault r => exact .inr (.inl ⟨r, rfl, rfl⟩)
    | refused r => exact .inr (.inr ⟨r, rfl, rfl⟩)

end Sys2Proof.Machine
end

section
/-! PROOF. The invariant of every operation boundary (10_state.md R32, 40_bit_cursor.md R105 (b)): reset meets it, and each of the changes
that operations are made of keeps it. -/

namespace Sys2Proof.Machine

/-! ## Payload lengths (R105 (b)) -/

theorem flen_le (c : Config) (k : Kind) (ft : Nat) : flen c k ft ≤ 255 := by
  cases k with
  | unknown => exact Nat.zero_le _
  | nb => exact Nat.le_of_lt_succ (BitVec.isLt _)
  | wb => exact Nat.le_of_lt_succ (BitVec.isLt _)

theorem paylen_le (c : Config) (k : Kind) (ft : Nat) : paylen c k ft ≤ 254 := by
  have := flen_le c k ft
  unfold paylen
  split_ifs <;> omega

theorem expectedPay_le (c : Config) (k : Kind) (ents : List Byte) : expectedPay c k ents ≤ ents.length * 254 := by
  have := List.sum_le_card_nsmul (ents.map fun e => paylen c k (octetFt e).toNat) 254 fun n hn => by
    obtain ⟨e, -, rfl⟩ := List.mem_map.1 hn
    exact paylen_le c k _
  simpa [expectedPay] using this

/-! ## Chains that the TOC store may hold (R19, R20) -/

/-- A well-terminated chain of normalised octets under the cap, or no chain at all (R32). -/
structure WellTerminated (ents : List Byte) : Prop where
  cap : ents.length ≤ Config.tocCap
  normalised : ∀ e ∈ ents, e &&& 0xFC = e
  more : ∀ i, i + 1 < ents.length → octetF (ents.getD i 0) = true
  last : ∀ i, i + 1 = ents.length → octetF (ents.getD i 0) = false

theorem State.tocOk_of_wellTerminated {s : State} {ents : List Byte} (h : s.tocIs ents) (he : WellTerminated ents) : s.tocOk :=
  State.tocOk_of_tocIs h he.cap he.normalised he.more he.last

theorem wellTerminated_nil : WellTerminated [] := ⟨by decide, by simp, by simp, by simp⟩

theorem wellTerminated_chainOctets {l : List (BitVec 4 × Bool)} (h : l.length ≤ Config.tocCap) : WellTerminated (chainOctets l) := by
  have hF : ∀ i, i < l.length → octetF ((chainOctets l).getD i 0) = decide (i + 1 < l.length) := fun i hi => by
    rw [List.getD_eq_getElem?_getD, chainOctets_getElem l i hi, Option.getD_some, octetF_tocOctet]
  rw [← chainOctets_length] at hF
  refine ⟨by rwa [chainOctets_length], chainOctets_normalised l, fun i hi => ?_, fun i hi => ?_⟩
  · rw [hF i (by omega)]
    exact decide_eq_true hi
  · rw [hF i (by omega)]
    exact decide_eq_false hi.not_lt

theorem and_FC_and_FC (b : Byte) : b &&& 0xFC &&& 0xFC = b &&& 0xFC := by
  rw [BitVec.and_assoc]
  rfl

theorem State.ChainAt.wellTerminated {s : State} {k : Nat} (h : s.ChainAt k) : WellTerminated (s.octetsFrom s.cursor k) := by
  have hF : ∀ i, i < k → octetF ((s.octetsFrom s.cursor k).getD i 0) = octetF (s.octetAt (s.cursor + 8 * i)) := fun i hi => by
    rw [State.octetsFrom, List.getD_eq_getElem _ _ (by simpa using hi), List.getElem_map, List.getElem_range, octetF_and_FC]
  refine ⟨by simpa using h.cap, fun e he => ?_, fun i hi => ?_, fun i hi => ?_⟩
  · obtain ⟨i, -, rfl⟩ := List.mem_map.1 he
    exact and_FC_and_FC _
  · rw [State.octetsFrom_length] at hi
    rw [hF i (by omega)]
    exact h.more i (by omega)
  · rw [State.octetsFrom_length] at hi
    rw [hF i (by omega), show i = k - 1 by omega]
    exact h.last

/-! ## What keeps the invariant -/

theorem toNat_ofNat_le (n m : Nat) : (BitVec.ofNat n m).toNat ≤ m := (BitVec.toNat_ofNat m n).trans_le (Nat.mod_le _ _)

theorem State.avail_div_le (s : State) : s.avail / 8 ≤ s.len.toNat := by
  unfold State.avail State.limit
  omega

section
variable {s : State} (h : s.Inv)
include h

theorem State.Inv.setCursor {p : Nat} (hp : p ≤ s.limit) : (s.setCursor p).Inv := by
  obtain ⟨hcfg, hbuf, hlen, -, hrest⟩ := h
  have hlim := s.limit_lt
  exact ⟨hcfg, hbuf, hlen, (s.cursor_setCursor (by omega)).trans_le hp, hrest⟩

theorem State.Inv.cursor_wholeBytes_le (n : Nat) : s.cursor + 8 * s.wholeBytes n ≤ s.limit := by
  obtain ⟨-, -, -, hcursor, -⟩ := h
  have hroom := (s.wholeBytes_le n).1
  unfold State.avail at hroom
  omega

theorem State.Inv.advance (m : Nat) : (s.advance m).Inv := h.setCursor (Nat.min_le_right _ _)

theorem State.Inv.putBits (a : Nat) (bs : List Bool) : (s.putBits a bs).Inv := by
  obtain ⟨hcfg, ⟨hwf, hcap⟩, hlen, hrest⟩ := h
  have hbuf : Memory.wf (s.putBits a bs).buf ∧ ∀ c ∈ (s.putBits a bs).buf, c.1 < s.cfg.bufmax :=
    ⟨State.putBits_wf hwf a bs, fun c hc => (State.mem_putBits hc).elim (fun hc => hc.trans_le hlen) (hcap c)⟩
  rw [State.putBits_eq]
  exact ⟨hcfg, hbuf, hlen, hrest⟩

theorem State.Inv.wrote (bs : List Bool) : (s.wrote bs).Inv := (h.putBits s.cursor bs).advance _

theorem State.Inv.memWrite {a : Nat} {bs : List Byte} (ha : a + bs.length ≤ s.cfg.bufmax) : (s.memWrite a bs).Inv := by
  obtain ⟨hcfg, ⟨hwf, hcap⟩, hrest⟩ := h
  refine ⟨hcfg, ⟨State.memWrite_wf hwf a bs, fun c hc => ?_⟩, hrest⟩
  obtain ⟨-, hin⟩ | hold := Memory.mem_storeAll hc
  · exact hin.trans_le ha
  · exact hcap c hold

theorem State.Inv.setToc {ents : List Byte} (he : WellTerminated ents) : (s.setToc ents).Inv := by
  obtain ⟨hcfg, hbuf, hlen, hcursor, -, hrest⟩ := h
  exact ⟨hcfg, hbuf, hlen, hcursor, State.tocOk_of_wellTerminated (s.setToc_tocIs ents he.cap) he, hrest⟩

theorem State.Inv.answered (st : Status) (w : BitVec 3) (r0 r1 : Nat) : (s.answered st w r0 r1).Inv := by
  obtain ⟨hcfg, hbuf, hlen, hcursor, htoc, herr, hrest⟩ := h
  refine ⟨hcfg, hbuf, hlen, hcursor, htoc, ?_, hrest⟩
  show errAfter s.err st ∈ _
  unfold errAfter
  split_ifs
  · exact herr
  · cases st <;> decide

theorem State.Inv.attach {len pos0 : Word} (hlen : len.toNat ≤ s.cfg.bufmax) (hpos : pos0.toNat ≤ 8 * len.toNat) :
    State.Inv { s with len := BitVec.ofNat 29 len.toNat, pos := pos0 } := by
  obtain ⟨hcfg, hbuf, -, -, hrest⟩ := h
  obtain ⟨-, hmax, -⟩ := id hcfg
  have hl : (BitVec.ofNat 29 len.toNat).toNat = len.toNat := by
    rw [BitVec.toNat_ofNat]
    omega
  refine ⟨hcfg, hbuf, hl.trans_le hlen, ?_, hrest⟩
  show pos0.toNat ≤ 8 * (BitVec.ofNat 29 len.toNat).toNat
  rwa [hl]

theorem State.Inv.clear (flags : BitVec 3) (clearErr : Bool) :
    State.Inv { s with flags := flags, err := if clearErr then 0 else s.err } := by
  obtain ⟨hcfg, hbuf, hlen, hcursor, htoc, herr, hrest⟩ := h
  refine ⟨hcfg, hbuf, hlen, hcursor, htoc, ?_, hrest⟩
  cases clearErr with
  | false => exact herr
  | true => exact List.mem_cons_self

theorem State.Inv.chainTaken {k : Nat} (hc : s.ChainAt k) : (s.chainTaken k).Inv := by
  obtain ⟨hcfg, hbuf, hlen, hcursor, htoc, herr, -, -, hskip⟩ := (h.advance (8 * k)).setToc hc.wellTerminated
  have hexp := expectedPay_le s.cfg s.kind (s.octetsFrom s.cursor k)
  rw [State.octetsFrom_length] at hexp
  have hk := hc.cap
  refine ⟨hcfg, hbuf, hlen, hcursor, htoc, herr, ?_, ?_, hskip⟩
  · exact (toNat_ofNat_le _ _).trans (hexp.trans (Nat.mul_le_mul_right 254 hk))
  · exact (toNat_ofNat_le _ _).trans ((State.avail_div_le _).trans hlen)

theorem State.Inv.framesDecoded (es : List Byte) (blks rest : List PcmBlock) : (s.framesDecoded es blks rest).Inv :=
  h.setCursor (h.cursor_wholeBytes_le (expectedPay s.cfg s.kind es))

theorem State.Inv.blocksEncoded {skipped : Nat} (hs : skipped ≤ Config.tocCap) (mode : Word) (blks pin' : List PcmBlock)
    (enc' : List EncReply) : (s.blocksEncoded mode blks pin' enc' skipped).Inv := by
  obtain ⟨hcfg, hbuf, hlen, hcursor, htoc, herr, hexp, hrem, -⟩ := h
  exact ⟨hcfg, hbuf, hlen, hcursor, htoc, herr, hexp, hrem, (toNat_ofNat_le _ _).trans hs⟩

end

/-! ## Every step -/

section
variable {i : Instr} {s x : State} {st : Status} {w : BitVec 3} {r0 r1 : Nat}

theorem Emits.inv {frames : List Frame} (he : Emits s frames x st r0 r1) (h : s.Inv) (hcap : frames.length ≤ Config.tocCap) : x.Inv := by
  cases he with
  | nothing => exact h.setToc wellTerminated_nil
  | noSpace => exact h
  | written => exact (h.wrote _).setToc (wellTerminated_chainOctets ((List.length_map _).trans_le hcap))

/-- Every operation that completes keeps the invariant, from every state that meets it. -/
theorem Completes.inv (hc : Completes s i x st w r0 r1) (h : s.Inv) : x.Inv := by
  cases hc with
  | bcAttach hlen hpos => exact h.attach hlen hpos
  | bcRd => exact h.advance _
  | bcWr => exact (h.putBits _ _).advance _
  | bcRdb => exact h.setCursor (h.cursor_wholeBytes_le _)
  | @bcWrb len src rest =>
    have hdin : State.Inv { s with din := rest } := h
    exact (hdin.putBits _ _).setCursor ((h.cursor_wholeBytes_le _).trans_eq (State.limit_putBits { s with din := rest } _ _).symm)
  | tocDecMalformed => exact (h.advance _).setToc wellTerminated_nil
  | tocDec hchain => exact (h.advance _).setToc hchain.wellTerminated
  | @tocEnc k src rest _ h2 _ hsrc =>
    have hdin : State.Inv { s with din := rest } := h
    exact (hdin.wrote _).setToc (wellTerminated_chainOctets (by rw [List.length_map, hsrc]; exact h2))
  | grpDecMalformed => exact (h.advance _).setToc wellTerminated_nil
  | grpDec _ hchain => exact (h.chainTaken hchain).framesDecoded _ _ _
  | grpEnc _ hn hblocks hl hs hf he =>
    refine he.inv (h.blocksEncoded (hs.trans_le ((Nat.sub_le _ _).trans hn)) _ _ _ _) ?_
    rw [hf, keptFrames_length]
    exact (keptReplies_length_le _ _ _).trans ((hblocks.length.trans hl).trans_le hn)
  | flgClr => exact h.clear _ _
  | @hmLd addr len src rest hin _ hsrc =>
    have hdin : State.Inv { s with din := rest } := h
    exact hdin.memWrite (hin.trans' (Nat.add_le_add_left hsrc.le _))
  | _ => exact h

end

theorem exec_keeps_inv {i : Instr} {s t : State} (h : s.Inv) (hexec : exec i s = .next t) : t.Inv := by
  obtain ⟨x, st, w, r0, r1, hc, rfl⟩ := exec_next_iff.1 hexec
  exact (hc.inv h).answered st w r0 r1

/-- A step on a word the decoder reads as an operation (R25). -/
theorem step_of_decode_ok {s : State} {w : CmdWord} {ws : List CmdWord} {i : Instr} (h : s.cmds = w :: ws) (hi : decode w = .ok i) :
    step s = exec i { s with cmds := ws } := by
  simp only [step, fetch_of_cmds h, hi]

/-- A step with no word presented (R226). -/
theorem step_of_cmds_nil {s : State} (h : s.cmds = []) : step s = .fault .noCommand := by simp only [step, fetch, h]

/-- Settles O7: the word taken is the first one, and the decoder's answer selects the operation. -/
theorem stepRunsTheDecodedOperation : Obligations.StepRunsTheDecodedOperation :=
  ⟨fun _ _ _ _ => step_of_decode_ok, fun _ => step_of_cmds_nil⟩

/-- Settles O8: the word placed is the first one, before the others with the old first one dropped. -/
theorem placedWordIsRunNext : Obligations.PlacedWordIsRunNext := by
  intro s w i h
  have hdecode : decode (tableWord 72 w) = .ok i := by
    rw [decodeTableWord, if_pos (le_refl 72)] at h
    split at h
    · cases h
      assumption
    · cases h
  exact step_of_decode_ok (ws := s.cmds.drop 1) rfl hdecode

/-- Settles O12: a step is an operation or the answer to an illegal word, on the state with the command word taken. -/
theorem stepKeepsTheInvariant : Obligations.StepKeepsTheInvariant := by
  intro s t h hstep
  cases hcmds : s.cmds with
  | nil => cases (step_of_cmds_nil hcmds).symm.trans hstep
  | cons word words =>
    have htaken : State.Inv { s with cmds := words } := h
    cases hdecode : decode word with
    | error e =>
      cases (step_of_decode_error hcmds hdecode).symm.trans hstep
      exact htaken.answered .illegalOp 0 0 0
    | ok i => exact exec_keeps_inv htaken ((step_of_decode_ok hcmds hdecode).symm.trans hstep)

/-! ## Reset -/

theorem State.resetWith_inv {c : Config} (h : c.wf) : (State.resetWith c).Inv :=
  ⟨h, ⟨State.reset_wf c, by simp [State.resetWith]⟩, Nat.zero_le _, le_refl 0,
    State.tocOk_of_wellTerminated (ents := []) ⟨rfl, fun i _ => State.resetWith_tocEntry c i⟩ wellTerminated_nil,
    List.mem_cons_self, Nat.zero_le _, Nat.zero_le _, Nat.zero_le _⟩

theorem defaultConfig_wf : defaultConfig.wf := by decide

/-- Settles O10: the empty TOC store, the empty BUF and the zero registers meet every bound, and a session begins with idle channels and no
codec engine. -/
theorem resetMeetsTheInvariant : Obligations.ResetMeetsTheInvariant := by
  refine ⟨fun c h => ⟨State.resetWith_inv h, State.resetWith_inv h, rfl, rfl, rfl, Nat.zero_le _, ?_, ?_, ?_⟩,
    State.resetWith_inv defaultConfig_wf⟩
  · simp [Session.start]
  · simp [Session.start, State.resetWith]
  · simp [Session.start, State.resetWith]

end Sys2Proof.Machine
end

section
/-! PROOF. The bit cursor at the end of the region, in bytes and in bits, and back and forth (40_bit_cursor.md sections 1 to 6, 20_memory.md
sections 2, 3 and 5). -/

namespace Sys2Proof.Machine

/-! ## At and past the end of the region (R92, R94) -/

theorem State.avail_of_end {s : State} (h : s.cursor = s.limit) : s.avail = 0 := by
  rw [State.avail, h, Nat.sub_self]

theorem State.setCursor_cursor (s : State) : s.setCursor s.cursor = s := by simp [State.setCursor, State.cursor]

theorem State.advance_of_end {s : State} (h : s.cursor = s.limit) (n : Nat) : s.advance n = s := by
  rw [State.advance, Nat.min_eq_right (by omega), ← h, State.setCursor_cursor]

theorem State.putBits_past {s : State} {a : Nat} (h : s.limit ≤ a) (bs : List Bool) : s.putBits a bs = s := by
  induction bs generalizing a with
  | nil => rfl
  | cons b bs ih => rw [State.putBits, State.putBit_past h, ih (by omega)]

/-- The bits at the cursor are those left, and zeros after them (R94). -/
theorem State.getBits_cursor_eq (s : State) {n : Nat} (h : s.avail ≤ n) :
    s.getBits s.cursor n = s.getBits s.cursor s.avail ++ List.replicate (n - s.avail) false := by
  have hpast : s.limit ≤ s.cursor + s.avail := by unfold State.avail; omega
  conv_lhs => rw [← Nat.add_sub_cancel' h, State.getBits_add, State.getBits_past _ _ _ hpast]

section
variable {s : State} {n value : Word} (h : s.cursor = s.limit) (h1 : 1 ≤ n.toNat) (h2 : n.toNat ≤ 32)
include h h1 h2

theorem exec_bcRd_of_end : exec (.bcRd n) s = .next (s.answered .ok 1 0 0) := by
  rw [exec_bcRd_eq h1 h2, State.advance_of_end h, State.avail_of_end h, State.getBits_past _ _ _ h.ge, bitsValue_replicate_false,
    truncWarn_of_lt h1, Nat.min_zero]
  rfl

theorem exec_bcWr_of_end : exec (.bcWr n value) s = .next (s.answered .ok 1 0 0) := by
  rw [exec_bcWr_eq h1 h2, State.putBits_past h.ge, State.advance_of_end h, State.avail_of_end h, truncWarn_of_lt h1, Nat.min_zero]
  rfl

end

/-- Settles O30: with no bit left nothing is read or put, and the advance saturates where the cursor is. -/
theorem cursorStaysAtTheEnd : Obligations.CursorStaysAtTheEnd := fun _ _ _ h h1 h2 =>
  ⟨exec_bcRd_of_end h h1 h2, _, exec_bcWr_of_end h h1 h2, rfl⟩

theorem toNat_ofNat_of_le {n m k : Nat} (hk : k < 2 ^ n) (h : m ≤ k) : (BitVec.ofNat n m).toNat = m := by
  rw [BitVec.toNat_ofNat, Nat.mod_eq_of_lt (h.trans_lt hk)]

/-- A field of at most 32 bits fits in a result (R66). -/
theorem State.toNat_ofNat_bitsValue (s : State) (a : Nat) {n : Nat} (h : n ≤ 32) :
    (BitVec.ofNat 32 (bitsValue (s.getBits a n))).toNat = bitsValue (s.getBits a n) := by
  have hlt := bitsValue_lt (s.getBits a n)
  rw [State.getBits_length] at hlt
  rw [BitVec.toNat_ofNat, Nat.mod_eq_of_lt (hlt.trans_le (Nat.pow_le_pow_right (by decide) h))]

/-- Settles O24: the bits read are those left and then zeros, which stand at the low end. -/
theorem bcRdPadsZerosAtTheLowEnd : Obligations.BcRdPadsZerosAtTheLowEnd := by
  intro s t n r h1 h2 hshort hexec hrsps
  cases (exec_bcRd_eq h1 h2).symm.trans hexec
  rw [State.answered_rsps, State.advance_rsps, List.append_cancel_left_eq, List.singleton_inj] at hrsps
  subst hrsps
  refine ⟨?_, ?_, truncWarn_of_lt hshort⟩
  · rw [State.toNat_ofNat_bitsValue _ _ h2, s.getBits_cursor_eq hshort.le, bitsValue_append, bitsValue_replicate_false,
      List.length_replicate, Nat.add_zero, Nat.mul_comm]
  · rw [Nat.min_eq_right hshort.le]
    exact toNat_ofNat_of_le (k := 32) (by decide) (hshort.le.trans h2)

/-! ## Bytes at any bit address (20_memory.md sections 2 and 3) -/

/-- The octet at bit address `a` inside the region, made of the two bytes it straddles (R47). -/
theorem State.octetAt_eq_shift (s : State) {a : Nat} (h : a + 8 ≤ s.limit) :
    s.octetAt a = if a % 8 = 0 then s.bufByte (a / 8)
      else (s.bufByte (a / 8) <<< (a % 8)) ||| (s.bufByte (a / 8 + 1) >>> (8 - a % 8)) := by
  apply BitVec.eq_of_getLsbD_eq
  intro j hj
  have hbit : (s.octetAt a).getLsbD j = s.bufBit (a + (7 - j)) := by
    rw [← State.getBit_of_lt (by omega), ← State.octetAt_getLsbD s a (show 7 - j < 8 by omega), show 7 - (7 - j) = j by omega]
  rw [hbit, State.bufBit]
  split_ifs with h0
  · rw [show (a + (7 - j)) / 8 = a / 8 by omega, show 7 - (a + (7 - j)) % 8 = j by omega]
  · rw [BitVec.getLsbD_or, BitVec.getLsbD_shiftLeft, BitVec.getLsbD_ushiftRight]
    rcases Nat.lt_or_ge j (a % 8) with hlow | hhigh
    · rw [show (a + (7 - j)) / 8 = a / 8 + 1 by omega, show 7 - (a + (7 - j)) % 8 = 8 - a % 8 + j by omega]
      simp [hlow]
    · rw [show (a + (7 - j)) / 8 = a / 8 by omega, show 7 - (a + (7 - j)) % 8 = j - a % 8 by omega,
        BitVec.getLsbD_of_ge _ (8 - a % 8 + j) (by omega)]
      simp [hj, hhigh]

theorem State.octet_in_region (s : State) {len i : Nat} (h : i < s.wholeBytes len) : s.cursor + 8 * i + 8 ≤ s.limit := by
  have := (s.wholeBytes_le len).1
  unfold State.avail at this
  omega

/-- Settles O27: byte `i` pushed is the octet at bit address `POS + 8*i`. -/
theorem unalignedCopyShiftsAdjacentBytes : Obligations.UnalignedCopyShiftsAdjacentBytes := by
  intro s t len i hlen hexec hi
  cases (exec_bcRdb_eq hlen).symm.trans hexec
  rw [State.answered_dout, State.pushDout_dout, State.setCursor_dout, List.getD_append_right _ _ _ _ (Nat.le_add_right _ _),
    Nat.add_sub_cancel_left, s.octetsLeft_getD hi, s.octetAt_eq_shift (s.octet_in_region hi), Nat.add_mul_mod_self_left,
    Nat.add_mul_div_left _ _ (by decide)]

theorem State.bitsValue_getBits_eight (s : State) (a : Nat) : bitsValue (s.getBits a 8) = (s.octetAt a).toNat := by
  rw [← State.fieldBits_octetAt, bitsValue_fieldBits, Nat.mod_eq_of_lt (BitVec.isLt _)]

/-- Settles O28: both read the octet at the cursor. -/
theorem byteCopyAgreesWithBitRead : Obligations.ByteCopyAgreesWithBitRead := by
  intro s h8 hmax
  have hone : s.wholeBytes 1 = 1 := s.wholeBytes_room 1 h8
  have hleft : s.octetsLeft 1 = [s.octetAt s.cursor] := by rw [State.octetsLeft, hone]; rfl
  refine ⟨_, _, s.octetAt s.cursor, exec_bcRdb_eq (len := 1) hmax, exec_bcRd_eq (n := 8) (by decide) (by decide), ?_, ?_, ?_⟩
  · exact congrArg (s.dout ++ ·) hleft
  · show s.rsps ++ [⟨.ok, truncWarn 8 s.avail, BitVec.ofNat 32 (bitsValue (s.getBits s.cursor 8)), BitVec.ofNat 32 (min 8 s.avail)⟩] = _
    rw [truncWarn_of_le h8, s.bitsValue_getBits_eight, BitVec.ofNat_toNat, Nat.min_eq_left h8]
    rfl
  · show BitVec.ofNat 32 (s.cursor + 8 * s.wholeBytes 1) = BitVec.ofNat 32 (min (s.cursor + 8) s.limit)
    have hfits := s.octet_in_region (len := 1) (i := 0) (by omega)
    rw [hone, Nat.min_eq_left hfits]

/-! ## Written and read back (40_bit_cursor.md sections 4 and 6) -/

/-- `t` is `s` with the cursor moved to `p`, as far as reading and writing at the cursor go: FLAGS, ERR and the responses are left out. -/
structure State.SoughtTo (s : State) (p : Word) (t : State) : Prop where
  pos : t.pos = p
  cfg : t.cfg = s.cfg
  buf : t.buf = s.buf
  epoch : t.epoch = s.epoch
  len : t.len = s.len
  kind : t.kind = s.kind
  din : t.din = s.din
  pout : t.pout = s.pout
  engReqs : t.engReqs = s.engReqs
  decReps : t.decReps = s.decReps

/-- BC.SEEK (R79): an attachment of the region attached already, so only POS changes. -/
theorem exec_pseudoSeek {s : State} {p : Word} (hlen : s.len.toNat ≤ s.cfg.bufmax) (hp : p.toNat ≤ s.limit) :
    ∃ t, exec (pseudoSeek s p) s = .next t ∧ s.SoughtTo p t := by
  have hwide : (s.len.setWidth 32).toNat = s.len.toNat := by
    rw [BitVec.toNat_setWidth, Nat.mod_eq_of_lt (s.len.isLt.trans (by decide))]
  refine ⟨_, exec_bcAttach_accepted (hwide.trans_le hlen) (by rwa [hwide]), rfl, rfl, rfl, rfl, ?_, rfl, rfl, rfl, rfl, rfl⟩
  rw [State.answered_len, hwide, BitVec.ofNat_toNat, BitVec.setWidth_eq]

section
variable {s t : State} {p : Word} (h : s.SoughtTo p t)
include h

theorem State.SoughtTo.cursor_eq : t.cursor = p.toNat := congrArg BitVec.toNat h.pos

theorem State.SoughtTo.limit_eq : t.limit = s.limit := State.limit_congr h.len

/-- With the cursor at `p` the bits from there to the end of the region are left. -/
theorem State.SoughtTo.room {n : Nat} (hp : p.toNat + n ≤ s.limit) : n ≤ t.avail := by
  rw [State.avail, h.limit_eq, h.cursor_eq]
  omega

theorem State.SoughtTo.len_le (hlen : s.len.toNat ≤ s.cfg.bufmax) : t.len.toNat ≤ t.cfg.bufmax := by rwa [h.len, h.cfg]

theorem State.SoughtTo.getBits_eq (a n : Nat) : t.getBits a n = s.getBits a n := State.getBits_congr h.buf h.epoch h.len a n

theorem State.SoughtTo.holdsAt {bs : List Byte} (hs : s.holdsAt p.toNat bs) : t.holdsAt t.cursor bs := by
  rw [h.cursor_eq]
  exact (State.holdsAt_congr h.buf h.epoch h.len _ _).2 hs

end

/-- BC.RD of a field that stands at the cursor. -/
theorem exec_bcRd_field {s : State} {n v : Word} (h1 : 1 ≤ n.toNat) (h2 : n.toNat ≤ 32) (hroom : n.toNat ≤ s.avail)
    (hv : v.toNat < 2 ^ n.toNat) (hbits : s.getBits s.cursor n.toNat = fieldBits n.toNat v.toNat) :
    exec (.bcRd n) s = .next ((s.advance n.toNat).answered .ok 0 v.toNat n.toNat) := by
  rw [exec_bcRd_eq h1 h2, hbits, bitsValue_fieldBits, Nat.mod_eq_of_lt hv, truncWarn_of_le hroom, Nat.min_eq_left hroom]

/-- BC.RDB of bytes that stand at the cursor. -/
theorem exec_bcRdb_bytes {s : State} {m : Word} {bs : List Byte} (hm : m.toNat ≤ s.cfg.bufmax) (hl : bs.length = m.toNat)
    (h : s.holdsAt s.cursor bs) :
    exec (.bcRdb m) s = .next (((s.setCursor (s.cursor + 8 * m.toNat)).pushDout bs).answered .ok 0 m.toNat 0) := by
  have hroom : s.wholeBytes m.toNat = m.toNat := s.wholeBytes_room _ (by have := h.1; unfold State.avail; omega)
  have hbytes : s.octetsLeft m.toNat = bs := by rw [State.octetsLeft, hroom, ← hl, State.octets_of_holdsAt h]
  rw [exec_bcRdb_eq hm, hbytes, hroom, truncWarn_of_le (le_refl _)]

theorem BitVec_ofNat_toNat_self {n : Nat} (x : BitVec n) : BitVec.ofNat n x.toNat = x := by rw [BitVec.ofNat_toNat, BitVec.setWidth_eq]

/-- BC.WR where there is room for the field: the field stands at the cursor, and the configuration and the region are kept. -/
theorem exec_bcWr_field {s : State} {n v : Word} (h1 : 1 ≤ n.toNat) (h2 : n.toNat ≤ 32) (hroom : n.toNat ≤ s.avail) :
    ∃ t, exec (.bcWr n v) s = .next t ∧ t.cfg = s.cfg ∧ t.len = s.len ∧ t.getBits s.cursor n.toNat = fieldBits n.toNat v.toNat := by
  refine ⟨_, exec_bcWr_eq h1 h2, by simp, by simp, ?_⟩
  have hput := s.getBits_putBits_same s.cursor (fieldBits n.toNat v.toNat) (by rw [fieldBits_length]; unfold State.avail at hroom; omega)
  rw [fieldBits_length] at hput
  exact (State.getBits_congr rfl rfl rfl _ _).trans hput

/-- Settles O31: the field written stands at the position, and its value is that of the operand, which fits in it. -/
theorem bitsWrittenAreReadBack : Obligations.BitsWrittenAreReadBack := by
  intro s n v p _ hlen h1 h2 hv hp
  obtain ⟨s1, hseek1, hs1⟩ := exec_pseudoSeek (p := p) hlen (by omega)
  obtain ⟨s2, hwrite, hcfg, hl, hfield⟩ := exec_bcWr_field (v := v) h1 h2 (hs1.room hp)
  have hlimit : s2.limit = s.limit := (State.limit_congr hl).trans hs1.limit_eq
  have hlen2 : s2.len.toNat ≤ s2.cfg.bufmax := by
    rw [hl, hcfg]
    exact hs1.len_le hlen
  obtain ⟨s3, hseek2, hs3⟩ := exec_pseudoSeek (s := s2) (p := p) hlen2 (by omega)
  refine ⟨s1, s2, s3, _, hseek1, hwrite, hseek2, exec_bcRd_field h1 h2 (hs3.room (by omega)) hv ?_, ?_⟩
  · rw [hs3.cursor_eq, hs3.getBits_eq, ← hs1.cursor_eq, hfield]
  · rw [State.answered_rsps, BitVec_ofNat_toNat_self, BitVec_ofNat_toNat_self]
    rfl

/-- BC.WRB where there is room for all its bytes: they stand at the cursor, and the configuration and the region are kept. -/
theorem exec_bcWrb_bytes {s : State} {m : Word} {bs rest : List Byte} (hm : m.toNat ≤ s.cfg.bufmax) (hdin : s.din = bs ++ rest)
    (hl : bs.length = m.toNat) (hc : s.cursor ≤ s.limit) (hroom : 8 * m.toNat ≤ s.avail) :
    ∃ t, exec (.bcWrb m) s = .next t ∧ t.cfg = s.cfg ∧ t.len = s.len ∧ t.holdsAt s.cursor bs := by
  have hfit : s.fittingBits bs = bytesBits bs := by
    rw [State.fittingBits, s.wholeBytes_room _ (by rwa [hl]), List.take_length]
  have hholds := State.wrote_holdsAt { s with din := rest } bs hc (by rw [hl]; exact hroom)
  rw [← hfit] at hholds
  exact ⟨_, exec_bcWrb_eq hm hdin hl, by simp, by simp, (State.holdsAt_congr rfl rfl rfl _ _).1 hholds⟩

/-- Settles O32: the bytes written stand at the position (`State.wrote_holdsAt`). -/
theorem bytesWrittenAreCopiedBack : Obligations.BytesWrittenAreCopiedBack := by
  intro s d rest m p _ hlen hdin hd hp
  have hm : m.toNat ≤ s.cfg.bufmax := by unfold State.limit at hp; omega
  obtain ⟨s1, hseek1, hs1⟩ := exec_pseudoSeek (p := p) hlen (by omega)
  have hc : s1.cursor ≤ s1.limit := by rw [hs1.cursor_eq, hs1.limit_eq]; omega
  obtain ⟨s2, hwrite, hcfg, hl, hholds⟩ := exec_bcWrb_bytes (m := m) (by rwa [hs1.cfg]) (hs1.din.trans hdin) hd hc (hs1.room hp)
  have hlimit : s2.limit = s.limit := (State.limit_congr hl).trans hs1.limit_eq
  have hlen2 : s2.len.toNat ≤ s2.cfg.bufmax := by
    rw [hl, hcfg]
    exact hs1.len_le hlen
  obtain ⟨s3, hseek2, hs3⟩ := exec_pseudoSeek (s := s2) (p := p) hlen2 (by omega)
  rw [hs1.cursor_eq] at hholds
  refine ⟨s1, s2, s3, _, hseek1, hwrite, hseek2, exec_bcRdb_bytes ?_ hd (hs3.holdsAt hholds), rfl, ?_⟩
  · rwa [hs3.cfg, hcfg, hs1.cfg]
  · rw [State.answered_rsps, BitVec_ofNat_toNat_self]
    rfl

/-! ## HM.LD and HM.ST (20_memory.md section 5) -/

theorem State.memRead_memWrite (s : State) (a : Nat) (bs : List Byte) : (s.memWrite a bs).memRead a bs.length = bs := by
  apply List.ext_getElem (by simp)
  intro i hi' hi
  rw [← List.getD_eq_getElem _ 0 hi', State.memRead_getD _ _ hi, State.bufByte_memWrite, if_pos (by omega), Nat.add_sub_cancel_left,
    List.getD_eq_getElem _ _ hi]

/-- Settles O55: MemRead of the bytes MemWrite has just written. -/
theorem loadedBytesAreStoredBack : Obligations.LoadedBytesAreStoredBack := by
  intro s addr len src rest h hdin hsrc
  refine ⟨_, _, exec_hmLd_eq h hdin hsrc, exec_hmSt_eq h, ?_⟩
  rw [← hsrc]
  exact congrArg (s.dout ++ ·) (State.memRead_memWrite _ _ _)

end Sys2Proof.Machine
end

section
/-! PROOF. The TOC codec in the large (42_toc_codec.md sections 1 and 2): it always finishes, it ends a chain the region cuts, and what
TOC.ENC writes TOC.DEC reads; and the bounds of the frame-length tables (43_frame_tables.md section 1). -/

namespace Sys2Proof.Machine

/-! ## TOC.DEC always finishes -/

/-- Settles O37: of the three cases two read at most the 20 octets of the cap, and the cursor saturates at the end of the region. -/
theorem tocDecAlwaysFinishes : Obligations.TocDecAlwaysFinishes := by
  intro s hc
  obtain h | ⟨k, h⟩ | h := s.chain_cases
  · exact ⟨_, _, exec_tocDec_noData h, rfl, .inr (.inl rfl), rfl, le_refl _, Nat.le_add_right _ _, hc⟩
  · have hmove : (s.advance (8 * k)).cursor = min (s.cursor + 8 * k) s.limit := s.cursor_advance _
    have hk := h.cap
    refine ⟨_, _, (Completes.tocDec h).exec_eq, rfl, .inl rfl, rfl, ?_⟩
    show s.cursor ≤ (s.advance (8 * k)).cursor ∧ (s.advance (8 * k)).cursor ≤ s.cursor + 160 ∧ (s.advance (8 * k)).cursor ≤ s.limit
    rw [hmove]
    unfold Config.tocCap at hk
    omega
  · have hmove : (s.advance 160).cursor = min (s.cursor + 160) s.limit := s.cursor_advance _
    refine ⟨_, _, (Completes.tocDecMalformed h).exec_eq, rfl, .inr (.inr rfl), rfl, ?_⟩
    show s.cursor ≤ (s.advance 160).cursor ∧ (s.advance 160).cursor ≤ s.cursor + 160 ∧ (s.advance 160).cursor ≤ s.limit
    rw [hmove]
    omega

/-! ## A chain cut by the end of the region -/

/-- Past the region the octets read are 0 (R43). -/
theorem State.octetAt_past {s : State} {a : Nat} (h : s.limit ≤ a) : s.octetAt a = 0 := by
  rw [State.octetAt, State.getBits_past _ _ _ h, bitsValue_replicate_false]
  rfl

theorem State.octetsFrom_succ (s : State) (a k : Nat) :
    s.octetsFrom a (k + 1) = s.octetsFrom a k ++ [s.octetAt (a + 8 * k) &&& 0xFC] := by simp [State.octetsFrom, List.range_succ]

/-- Settles O38: the octet after the last one in the region is 0, so it ends the chain, and it is the only one that is cut. -/
theorem tocDecEndsACutChain : Obligations.TocDecEndsACutChain := by
  intro s j h1 hj havail hc hF
  have hend : s.cursor + 8 * j = s.limit := by unfold State.avail at havail; omega
  have hzero : s.octetAt (s.cursor + 8 * j) = 0 := State.octetAt_past hend.ge
  have hchain : s.ChainAt (j + 1) := ⟨by omega, by omega, by unfold Config.tocCap; omega, hF, by
    rw [Nat.add_sub_cancel, hzero]
    rfl⟩
  have hmove : min (s.cursor + 8 * (j + 1)) s.limit = s.limit := by omega
  have hents : s.octetsFrom s.cursor (j + 1) = (List.range j).map (fun i => s.octetAt (s.cursor + 8 * i) &&& 0xFC) ++ [0] := by
    rw [State.octetsFrom_succ, hzero]
    rfl
  refine ⟨_, (Completes.tocDec hchain).exec_eq, ?_, ?_, ?_⟩
  · exact (s.cursor_advance _).trans hmove
  · rw [← hents]
    exact State.setToc_tocIs (s.advance (8 * (j + 1))) _ (by rw [State.octetsFrom_length]; exact hchain.cap)
  · rw [State.answered_rsps, truncWarn_of_lt (by omega), hmove, show (s.limit - s.cursor) / 8 = j by omega]
    rfl

/-! ## Chains written and read back -/

/-- A chain that stands at the cursor is the one TocRead finds there (R131, R133). -/
theorem State.chainAt_of_holdsAt {s : State} {l : List (BitVec 4 × Bool)} (h1 : 1 ≤ l.length) (h2 : l.length ≤ Config.tocCap)
    (h : s.holdsAt s.cursor (chainOctets l)) : s.ChainAt l.length := by
  have hin := h.1
  rw [chainOctets_length] at hin
  refine ⟨by unfold State.avail; omega, h1, h2, fun i hi => ?_, ?_⟩
  · rw [State.octetF_of_holdsAt h (by omega)]
    exact decide_eq_true (by omega)
  · rw [State.octetF_of_holdsAt h (by omega)]
    exact decide_eq_false (by omega)

theorem State.octetsFrom_of_holdsAt {s : State} {l : List (BitVec 4 × Bool)} (h : s.holdsAt s.cursor (chainOctets l)) :
    s.octetsFrom s.cursor l.length = chainOctets l := by
  have hread := State.octetsFrom_holdsAt h (chainOctets_normalised l)
  rwa [chainOctets_length] at hread

/-- TOC.DEC of a chain that stands at the cursor. -/
theorem exec_tocDec_holdsAt {s : State} {l : List (BitVec 4 × Bool)} (h1 : 1 ≤ l.length) (h2 : l.length ≤ Config.tocCap)
    (h : s.holdsAt s.cursor (chainOctets l)) :
    exec .tocDec s = .next ((((s.advance (8 * l.length)).setToc (chainOctets l)).pushDout (chainOctets l)).answered .ok 0 l.length
      l.length) := by
  have hin := h.1
  rw [chainOctets_length] at hin
  have hexec := (Completes.tocDec (s.chainAt_of_holdsAt h1 h2 h)).exec_eq
  rwa [State.octetsFrom_of_holdsAt h, truncWarn_of_le (by unfold State.avail; omega), Nat.min_eq_left hin, Nat.add_sub_cancel_left,
    Nat.mul_div_cancel_left _ (by decide)] at hexec

/-- TOC.ENC where there is room: the chain stands at the cursor, and the configuration and the region are kept. -/
theorem exec_tocEnc_octets {s : State} {k : Word} {src rest : List Byte} (h1 : 1 ≤ k.toNat) (h2 : k.toNat ≤ Config.tocCap)
    (hdin : s.din = src ++ rest) (hsrc : src.length = k.toNat) (hc : s.cursor ≤ s.limit) (hroom : 8 * k.toNat ≤ s.avail) :
    ∃ t, exec (.tocEnc k) s = .next t ∧ t.cfg = s.cfg ∧ t.len = s.len ∧ t.holdsAt s.cursor (reencoded src) := by
  have hholds := State.wrote_holdsAt { s with din := rest } (reencoded src) hc (by rw [reencoded_length, hsrc]; exact hroom)
  exact ⟨_, exec_tocEnc_room h1 h2 hdin hsrc hroom, by simp, by simp, (State.holdsAt_congr rfl rfl rfl _ _).1 hholds⟩

theorem reencoded_getD_eq_tocOctet {src : List Byte} {i : Nat} (h : i < src.length) :
    (reencoded src).getD i 0 = tocOctet (decide (i + 1 < src.length)) (octetFt (src.getD i 0)) (octetQ (src.getD i 0)) := by
  rw [reencoded, List.getD_eq_getElem?_getD, chainOctets_getElem _ i (by rwa [List.length_map]), Option.getD_some,
    List.getD_eq_getElem _ _ h]
  simp only [List.getElem_map, List.length_map]

/-- Settles O40: the chain TOC.ENC writes stands at the position, and TOC.DEC reads the chain that stands there. -/
theorem tocChainsRoundTrip : Obligations.TocChainsRoundTrip := by
  intro s k p src rest _ hlen h1 h2 hdin hsrc hp
  obtain ⟨s1, hseek1, hs1⟩ := exec_pseudoSeek (p := p) hlen (by omega)
  have hc : s1.cursor ≤ s1.limit := by rw [hs1.cursor_eq, hs1.limit_eq]; omega
  obtain ⟨s2, hwrite, hcfg, hl, hholds⟩ := exec_tocEnc_octets h1 h2 (hs1.din.trans hdin) hsrc hc (hs1.room hp)
  have hlimit : s2.limit = s.limit := (State.limit_congr hl).trans hs1.limit_eq
  have hlen2 : s2.len.toNat ≤ s2.cfg.bufmax := by
    rw [hl, hcfg]
    exact hs1.len_le hlen
  obtain ⟨s3, hseek2, hs3⟩ := exec_pseudoSeek (s := s2) (p := p) hlen2 (by omega)
  rw [hs1.cursor_eq] at hholds
  have hcount : (src.map fun b => (octetFt b, octetQ b)).length = k.toNat := (List.length_map _).trans hsrc
  have hread := exec_tocDec_holdsAt (by rwa [hcount]) (by rwa [hcount]) (hs3.holdsAt hholds)
  refine ⟨s1, s2, s3, _, reencoded src, hseek1, hwrite, hseek2, hread, ?_, rfl, (reencoded_length src).trans hsrc, fun i hi => ?_⟩
  · rw [State.answered_rsps, hcount, BitVec_ofNat_toNat_self]
    rfl
  · rw [← hsrc] at hi ⊢
    rw [reencoded_getD_eq_tocOctet hi, octetF_tocOctet, octetFt_tocOctet, octetQ_tocOctet]
    exact ⟨rfl, rfl, rfl⟩

/-! ## The bounds of the tables -/

/-- The largest value of a list of bytes, and of `m`: none exceeds it, and it is one of them. -/
theorem foldl_max_spec (l : List Byte) (m : Nat) :
    (m ≤ l.foldl (fun m b => max m b.toNat) m ∧ ∀ b ∈ l, b.toNat ≤ l.foldl (fun m b => max m b.toNat) m) ∧
      (l.foldl (fun m b => max m b.toNat) m = m ∨ ∃ b ∈ l, b.toNat = l.foldl (fun m b => max m b.toNat) m) := by
  induction l generalizing m with
  | nil => simp
  | cons b l ih =>
    obtain ⟨⟨hm, hall⟩, hone⟩ := ih (max m b.toNat)
    simp only [List.foldl_cons, List.mem_cons]
    refine ⟨⟨(le_max_left _ _).trans hm, fun x hx => ?_⟩, ?_⟩
    · obtain rfl | hx := hx
      · exact (le_max_right _ _).trans hm
      · exact hall x hx
    · obtain heq | ⟨x, hx, hmax⟩ := hone
      · rcases le_total b.toNat m with hle | hle
        · exact .inl (heq.trans (max_eq_left hle))
        · exact .inr ⟨b, .inl rfl, (heq.trans (max_eq_right hle)).symm⟩
      · exact .inr ⟨x, .inr hx, hmax⟩

theorem flenWB_le_engMax (c : Config) (i : Fin 16) : (c.flenWB[i]).toNat ≤ engMax c .wb :=
  (foldl_max_spec c.flenWB.toList 0).1.2 _ (by simp)

/-- The wideband table has an entry, so the largest one is attained even when it is 0. -/
theorem exists_flenWB_eq_engMax (c : Config) : ∃ i : Fin 16, (c.flenWB[i]).toNat = engMax c .wb := by
  obtain hzero | ⟨b, hb, hmax⟩ := (foldl_max_spec c.flenWB.toList 0).2
  · exact ⟨0, Nat.le_antisymm (flenWB_le_engMax c 0) (hzero.trans_le (Nat.zero_le _))⟩
  · obtain ⟨i, hi, rfl⟩ := List.getElem_of_mem hb
    refine ⟨⟨i, by simpa using hi⟩, Eq.trans ?_ hmax⟩
    rw [Vector.getElem_toList]
    rfl

theorem flen_past (c : Config) (k : Kind) {i : Nat} (h : 16 ≤ i) : flen c k i = 0 := by
  cases k with
  | unknown => rfl
  | nb | wb =>
    rw [flen, List.getD_eq_default _ _ (by simpa using h)]
    rfl

theorem flen_le_engMax {c : Config} (h : c.wf) (k : Kind) (i : Nat) : flen c k i ≤ engMax c k := by
  obtain ⟨-, -, -, hnb, -⟩ := h
  rcases Nat.lt_or_ge i 16 with hi | hi
  · cases k with
    | unknown => exact le_refl 0
    | nb => exact (flen_nb c ⟨i, hi⟩).trans_le (hnb ⟨i, hi⟩)
    | wb => exact (flen_wb c ⟨i, hi⟩).trans_le (flenWB_le_engMax c ⟨i, hi⟩)
  · exact (flen_past c k hi).trans_le (Nat.zero_le _)

theorem engMax_le (c : Config) (k : Kind) : engMax c k ≤ 255 := by
  cases k with
  | unknown => exact Nat.zero_le _
  | nb => exact of_decide_eq_true rfl
  | wb =>
    obtain ⟨i, hi⟩ := exists_flenWB_eq_engMax c
    rw [← hi]
    exact Nat.le_of_lt_succ (BitVec.isLt _)

/-- Settles O41: the wideband bound is the largest entry of the table, and the narrowband one is a constraint of the configuration. -/
theorem recordLengthsFitTheBound : Obligations.RecordLengthsFitTheBound :=
  ⟨fun c => ⟨rfl, rfl, flenWB_le_engMax c, exists_flenWB_eq_engMax c⟩, fun c k i h => ⟨flen_le_engMax h k i, engMax_le c k⟩⟩

/-- Settles O43: the configuration's constraints fix the entry and a maximum that reaches it. -/
theorem narrowbandTypeSevenIsSourced : Obligations.NarrowbandTypeSevenIsSourced := by
  rintro s ⟨-, -, hseven, -, hmax, -⟩ hkind
  have hentry : flen s.cfg s.kind 7 = 32 := by
    rw [hkind]
    exact (flen_nb s.cfg 7).trans hseven
  have hvalid : validFt s.cfg s.kind 7 = true := (validFt_iff _ _ _).2 ⟨by simp [hkind], by rwa [hkind], by omega⟩
  have hexec := exec_flLookup_valid (s := s) (ft := 7) (by decide) hvalid
  rwa [show (7 : Word).toNat = 7 from rfl, hentry] at hexec

end Sys2Proof.Machine
end

section
/-! PROOF. Groups in the large (44_frame_demux.md sections 1 to 3, 45_frame_mux.md section 3): requests and blocks one to one, well-formed
groups, groups with an invalid entry, and what GRP.ENC writes decoded again. -/

namespace Sys2Proof.Machine

/-! ## One request per block -/

/-- From `s` to `t` some decode requests were made and as many blocks pushed on POUT, which are the replies taken; one response counts them in
`R0`, and each record has the table's length for the valid frame type in its byte 0, where F is 0 (R161, R167). -/
def State.DecodedTo (s t : State) : Prop :=
  ∃ (records : List (List Byte)) (blks : List PcmBlock) (r : Rsp), t.engReqs = s.engReqs ++ records.map EngReq.decode ∧
    t.pout = s.pout ++ blks ∧ s.decReps = blks ++ t.decReps ∧ records.length = blks.length ∧ blks.length ≤ 20 ∧
    t.rsps = s.rsps ++ [r] ∧ r.r0.toNat = blks.length ∧
    ∀ record ∈ records, record.length = flen s.cfg s.kind (octetFt (record.headD 0)).toNat ∧
      validFt s.cfg s.kind (octetFt (record.headD 0)).toNat = true ∧ octetF (record.headD 0) = false

/-- A GRP.DEC that ends before its frames. -/
theorem State.decodedTo_answered {s x : State} (st : Status) (w : BitVec 3) (r1 : Nat)
    (hx : x.engReqs = s.engReqs ∧ x.pout = s.pout ∧ x.decReps = s.decReps ∧ x.rsps = s.rsps) :
    s.DecodedTo (x.answered st w 0 r1) := by
  obtain ⟨hreqs, hpout, hdec, hrsps⟩ := hx
  refine ⟨[], [], ⟨st, w, 0, BitVec.ofNat 32 r1⟩, ?_, ?_, hdec.symm, rfl, Nat.zero_le _, ?_, rfl, by simp⟩
  · rw [State.answered_engReqs, hreqs, List.map_nil, List.append_nil]
  · rw [State.answered_pout, hpout, List.append_nil]
  · rw [State.answered_rsps, hrsps]
    rfl

theorem exec_grpDec_decodedTo {s t : State} (h : exec .grpDec s = .next t) : s.DecodedTo t := by
  by_cases hkind : s.kind = .unknown
  · cases (exec_grpDec_unknownFormat hkind).symm.trans h
    exact State.decodedTo_answered _ _ _ ⟨rfl, rfl, rfl, rfl⟩
  obtain hnone | ⟨k, hc⟩ | hc := s.chain_cases
  · cases (exec_grpDec_noData hkind hnone).symm.trans h
    exact State.decodedTo_answered _ _ _ ⟨rfl, rfl, rfl, rfl⟩
  · rw [exec_grpDec_chain hkind hc.octet hc.pos hc.cap hc.more hc.last] at h
    obtain ⟨records, blks, r, -, hreqs, hpout, hdec, hcount, hle, hrsps, hr0, -, -, -, -, -, -, hrecords, -⟩ := grpDecFrames_next h
    rw [State.octetsFrom_length] at hle
    have hcap : blks.length ≤ 20 := hle.trans hc.cap
    refine ⟨records, blks, r, hreqs, hpout, hdec, hcount, hcap, hrsps, ?_, hrecords⟩
    rw [hr0, Nat.zero_add]
    exact toNat_ofNat_of_le (k := 20) (by decide) hcap
  · cases (exec_grpDec_malformed hkind hc.octet hc.more).symm.trans h
    exact State.decodedTo_answered _ _ _ ⟨rfl, rfl, rfl, rfl⟩

/-- Settles O47: before the frames nothing is requested, and the frames make one request each (`grpDecFrames_next`). -/
theorem grpDecMakesOneRequestPerBlock : Obligations.GrpDecMakesOneRequestPerBlock := fun _ _ => exec_grpDec_decodedTo

/-! ## Frames that stand whole in the region -/

/-- `s` after the frames are decoded whose payloads stand at the cursor (R161, R167). -/
def State.framesRead (s : State) (frames : List Frame) (blks rest : List PcmBlock) : State :=
  { s with
    pos := BitVec.ofNat 32 (s.cursor + 8 * (frames.flatMap Frame.payload).length)
    pout := s.pout ++ blks, decReps := rest
    engReqs := s.engReqs ++ frames.map fun f : Frame => EngReq.decode (tocOctet false f.ft f.q :: f.payload) }

theorem State.framesRead_cursor {s : State} {frames : List Frame} (h : s.holdsAt s.cursor (frames.flatMap Frame.payload))
    (blks rest : List PcmBlock) : (s.framesRead frames blks rest).cursor = s.cursor + 8 * (frames.flatMap Frame.payload).length :=
  State.cursor_setCursor s (h.1.trans_lt s.limit_lt)

section
variable {s : State} {l : List (BitVec 4 × Bool)} {frames : List Frame} {es more : List Byte} {blks rest : List PcmBlock}
  (hkind : s.kind ≠ .unknown) (h1 : 1 ≤ l.length) (h2 : l.length ≤ Config.tocCap)
  (hholds : s.holdsAt s.cursor (chainOctets l ++ frames.flatMap Frame.payload))

section
include hholds

theorem State.holdsAt_chain : s.holdsAt s.cursor (chainOctets l) := (State.holdsAt_append.1 hholds).1

theorem State.chainTaken_cursor_of_holdsAt : (s.chainTaken l.length).cursor = s.cursor + 8 * l.length := by
  have hin := (State.holdsAt_chain hholds).1
  rw [chainOctets_length] at hin
  rw [State.chainTaken_cursor, Nat.min_eq_left hin]

theorem State.chainTaken_holdsAt : (s.chainTaken l.length).holdsAt (s.chainTaken l.length).cursor (frames.flatMap Frame.payload) := by
  have hpay := (State.holdsAt_append.1 hholds).2
  rw [chainOctets_length] at hpay
  rw [State.chainTaken_cursor_of_holdsAt hholds]
  exact (State.holdsAt_congr rfl rfl rfl _ _).2 hpay

/-- The cursor after the frames is after the chain and their payloads. -/
theorem State.framesRead_chainTaken_cursor :
    ((s.chainTaken l.length).framesRead frames blks rest).cursor =
      s.cursor + 8 * (chainOctets l ++ frames.flatMap Frame.payload).length := by
  rw [State.framesRead_cursor (State.chainTaken_holdsAt hholds), State.chainTaken_cursor_of_holdsAt hholds, List.length_append,
    chainOctets_length, Nat.mul_add, Nat.add_assoc]

/-- The state after the frames, written out against the state before the operation. -/
theorem State.framesRead_chainTaken : (s.chainTaken l.length).framesRead frames blks rest = { s with
    pos := BitVec.ofNat 32 (s.cursor + 8 * (chainOctets l ++ frames.flatMap Frame.payload).length)
    tocn := (s.chainTaken l.length).tocn, tocbuf := (s.chainTaken l.length).tocbuf
    exppay := BitVec.ofNat 32 (expectedPay s.cfg s.kind (chainOctets l)), rempay := BitVec.ofNat 32 ((s.avail - 8 * l.length) / 8)
    pout := s.pout ++ blks, decReps := rest
    engReqs := s.engReqs ++ frames.map fun f : Frame => EngReq.decode (tocOctet false f.ft f.q :: f.payload) } := by
  have hpos := State.framesRead_chainTaken_cursor (blks := blks) (rest := rest) hholds
  rw [← hpos, ← State.octetsFrom_of_holdsAt (State.holdsAt_chain hholds), ← State.avail_advance, State.cursor, BitVec_ofNat_toNat_self]
  rfl

theorem State.framesRead_chainTaken_tocIs (h2 : l.length ≤ Config.tocCap) :
    ((s.chainTaken l.length).framesRead frames blks rest).tocIs (chainOctets l) := by
  have htoc := s.chainTaken_tocIs h2
  rwa [State.octetsFrom_of_holdsAt (State.holdsAt_chain hholds)] at htoc

end

include hkind h1 h2 hholds in
/-- GRP.DEC of a chain whose first entries are those of well-formed frames goes on with the entries after them. -/
theorem exec_grpDec_frames (hchain : chainOctets l = es ++ more)
    (hfields : List.Forall₂ (fun e (f : Frame) => octetFt e = f.ft ∧ octetQ e = f.q) es frames)
    (hwf : ∀ f ∈ frames, f.wf s.cfg s.kind) (hd : s.decReps = blks ++ rest) (hl : blks.length = frames.length) :
    exec .grpDec s = grpDecFrames s.cursor more frames.length
      ((Run.begin ((s.chainTaken l.length).framesRead frames blks rest)).warn
        (plmWarn (expectedPay s.cfg s.kind (chainOctets l)) ((s.avail - 8 * l.length) / 8))) := by
  have hc := s.chainAt_of_holdsAt h1 h2 (State.holdsAt_chain hholds)
  have hin := (State.holdsAt_chain hholds).1
  rw [chainOctets_length] at hin
  rw [exec_grpDec_chain hkind hc.octet hc.pos hc.cap hc.more hc.last, State.octetsFrom_of_holdsAt (State.holdsAt_chain hholds),
    State.avail_advance, truncWarn_of_le (by unfold State.avail; omega), BitVec.ofNat_eq_ofNat, BitVec.zero_or]
  conv_lhs => rw [hchain]
  rw [grpDecFrames_wf s.cursor es more frames 0 _ blks rest hfields hwf
    ((State.holdsAt_congr rfl rfl rfl _ _).2 (State.chainTaken_holdsAt hholds)) hd hl, Nat.zero_add, hchain]
  rfl

end

theorem State.tocIs.answered {s : State} {ents : List Byte} (h : s.tocIs ents) (st : Status) (w : BitVec 3) (r0 r1 : Nat) :
    (s.answered st w r0 r1).tocIs ents := h

theorem grpDecFrames_nil (pos0 nblk : Nat) (o : Run) :
    grpDecFrames pos0 [] nblk o = o.respond .ok nblk ((o.st.cursor - pos0) / 8) := rfl

/-- Settles O45: the whole chain is that of the frames, so GRP.DEC ends after them, at the end of the group. -/
theorem grpDecDecodesAWellFormedGroup : Obligations.GrpDecDecodesAWellFormedGroup := by
  intro s frames blks rest exp rem hkind h1 h2 hwf hholds hd hl hexp hrem
  have hcount : (frames.map fun f => (f.ft, f.q)).length = frames.length := List.length_map _
  have hpay : expectedPay s.cfg s.kind (chainOctets (frames.map fun f => (f.ft, f.q))) = exp :=
    (expectedPay_frames s.cfg s.kind frames hwf).trans hexp.symm
  have hbytes : (s.cursor + 8 * (groupBytes frames).length - s.cursor) / 8 = frames.length + exp := by
    rw [groupBytes_length, groupLength, ← hexp]
    omega
  have hcursor : ((s.chainTaken _).framesRead frames blks rest).cursor = s.cursor + 8 * (groupBytes frames).length :=
    State.framesRead_chainTaken_cursor hholds
  have hstate := State.framesRead_chainTaken (blks := blks) (rest := rest) hholds
  have htoc := State.framesRead_chainTaken_tocIs (blks := blks) (rest := rest) hholds (by rwa [hcount])
  have hexec := exec_grpDec_frames hkind (by rwa [hcount]) (by rwa [hcount]) hholds (List.append_nil _).symm (groupOctets_fields frames) hwf
    hd hl
  rw [grpDecFrames_nil, Run.cursor_warn, Run.begin_st, hcursor, hbytes, hpay, Run.begin_warn_respond] at hexec
  rw [hcount, ← hrem] at hexec
  rw [hcount, hpay, ← hrem] at hstate
  rw [hcount] at htoc
  refine ⟨_, hexec, htoc.answered _ _ _ _, ?_⟩
  conv_lhs => rw [hstate]
  rfl

/-! ## An entry of invalid type -/

/-- The entries before one of a chain all have F = 1 (R136). -/
theorem chainOctets_append_cons (xs : List (BitVec 4 × Bool)) (y : BitVec 4 × Bool) (ys : List (BitVec 4 × Bool)) :
    chainOctets (xs ++ y :: ys) = xs.map (fun e => tocOctet true e.1 e.2) ++ chainOctets (y :: ys) := by
  induction xs with
  | nil => rfl
  | cons x xs ih =>
    rw [List.map_cons, List.cons_append, List.cons_append, ← ih]
    cases xs <;> rfl

theorem chainOctets_cons (y : BitVec 4 × Bool) (ys : List (BitVec 4 × Bool)) :
    ∃ f rest, chainOctets (y :: ys) = tocOctet f y.1 y.2 :: rest := by
  cases ys with
  | nil => exact ⟨false, [], rfl⟩
  | cons z zs => exact ⟨true, chainOctets (z :: zs), rfl⟩

/-- Settles O46: the entries before the invalid one are those of the frames, and it ends the operation (`grpDecFrames_invalid`). -/
theorem grpDecStopsAtAnInvalidFrameType : Obligations.GrpDecStopsAtAnInvalidFrameType := by
  intro s frames bad more blks rest chain hkind h2 hwf hbad hchain hholds hd hl
  subst hchain
  have hcount : ((frames.map fun f => (f.ft, f.q)) ++ bad :: more).length = frames.length + 1 + more.length := by
    simp only [List.length_append, List.length_map, List.length_cons]
    omega
  obtain ⟨f, tail, hcons⟩ := chainOctets_cons bad more
  have hsplit := chainOctets_append_cons (frames.map fun f => (f.ft, f.q)) bad more
  rw [hcons, List.map_map] at hsplit
  have hfields : List.Forall₂ (fun e (f : Frame) => octetFt e = f.ft ∧ octetQ e = f.q)
      (frames.map ((fun e : BitVec 4 × Bool => tocOctet true e.1 e.2) ∘ fun f => (f.ft, f.q))) frames :=
    List.forall₂_map_left_iff.2 (List.forall₂_same.2 fun f _ => ⟨octetFt_tocOctet _ _ _, octetQ_tocOctet _ _ _⟩)
  have hexec := exec_grpDec_frames hkind (by omega) (hcount.trans_le h2) hholds hsplit hfields hwf hd hl
  have hcursor := State.framesRead_chainTaken_cursor (blks := blks) (rest := rest) hholds
  rw [grpDecFrames_invalid (by rwa [octetFt_tocOctet]), Run.cursor_warn, Run.begin_st, hcursor, Nat.add_sub_cancel_left,
    Nat.mul_div_cancel_left _ (by decide), Run.begin_warn_respond] at hexec
  refine ⟨_, hexec, (State.framesRead_chainTaken_tocIs hholds (hcount.trans_le h2)).answered _ _ _ _,
    rfl, rfl, rfl, rfl, hcursor, rfl, _, rfl⟩

/-! ## What GRP.ENC writes GRP.DEC decodes -/

/-- GRP.ENC of replies that are all kept, with room for their group: the group stands at the cursor, the cursor is after it, and the
configuration, the region, the kind and the decoding side are kept. -/
theorem exec_grpEnc_group {s : State} {nblk mode : Word} {blks pin' : List PcmBlock} {reps enc' : List EncReply} {frames : List Frame}
    (hkind : s.kind ≠ .unknown) (hn : nblk.toNat ≤ Config.tocCap) (h : s.BlocksAt blks pin' reps enc') (hl : blks.length = nblk.toNat)
    (hframes : keptFrames s.cfg s.kind reps = frames) (hf : frames ≠ []) (hroom : 8 * (groupBytes frames).length ≤ s.avail) :
    ∃ t, exec (.grpEnc nblk mode) s = .next t ∧ t.cfg = s.cfg ∧ t.len = s.len ∧ t.kind = s.kind ∧ t.pout = s.pout ∧
      t.decReps = s.decReps ∧ t.pos = BitVec.ofNat 32 (s.cursor + 8 * (groupBytes frames).length) ∧
      t.holdsAt s.cursor (groupBytes frames) := by
  have hc : s.cursor ≤ s.limit := by
    have := groupBytes_length_pos hf
    unfold State.avail at hroom
    omega
  have hbits : (bytesBits (groupBytes frames)).length = 8 * (groupBytes frames).length := bytesBits_length _
  have hexec := (Completes.grpEnc (mode := mode) hkind hn h hl rfl hframes.symm (.written hf hroom)).exec_eq
  have hwrote := State.wrote_room_eq (s := s.blocksEncoded mode blks pin' enc' (nblk.toNat - (keptReplies s.cfg s.kind reps).length)) hc
    (hbits.trans_le hroom)
  have hholds := State.wrote_holdsAt (s.blocksEncoded mode blks pin' enc' (nblk.toNat - (keptReplies s.cfg s.kind reps).length)) _ hc hroom
  refine ⟨_, hexec, ?_, ?_, ?_, ?_, ?_, ?_, (State.holdsAt_congr rfl rfl rfl _ _).1 hholds⟩
  case refine_6 =>
    rw [hbits] at hwrote
    rw [State.answered_pos, State.setToc_pos, hwrote]
    rfl
  all_goals simp [State.blocksEncoded]

/-- Settles O50: the group stands where GRP.ENC began, and GRP.DEC decodes a well-formed group that stands at the cursor. -/
theorem encodedGroupsAreDecodedBack : Obligations.EncodedGroupsAreDecodedBack := by
  intro s nblk mode blks pin' out dec' reps enc' frames _ hlen hkind h1 h2 hpin hblks henc hreps hplausible hframes hwf hroom hdec hout
  have hall : keptReplies s.cfg s.kind reps = reps := List.filter_eq_self.2 fun r hr => (hplausible r hr).1
  have hkept : keptFrames s.cfg s.kind reps = frames := by
    rw [keptFrames, hall, hframes]
    rfl
  have hcount : frames.length = nblk.toNat := by rw [← hkept, keptFrames_length, hall, hreps]
  have hf : frames ≠ [] := List.ne_nil_of_length_pos (by omega)
  obtain ⟨s1, henc1, hcfg, hl, hk, hpout, hdec1, hpos, hholds⟩ := exec_grpEnc_group (mode := mode) hkind h2
    ⟨hpin, henc, hreps.trans hblks.symm, fun r hr _ => (hplausible r hr).2⟩ hblks hkept hf hroom
  have hp : s.pos.toNat ≤ s1.limit := Nat.le_of_add_right_le hholds.1
  obtain ⟨s2, hseek, hs2⟩ := exec_pseudoSeek (s := s1) (p := s.pos) (by rwa [hl, hcfg]) hp
  obtain ⟨t, hdecode, -, ht⟩ := grpDecDecodesAWellFormedGroup s2 frames out dec' _ _ (by rwa [hs2.kind, hk]) (hcount ▸ h1) (hcount ▸ h2)
    (by rwa [hs2.cfg, hs2.kind, hcfg, hk]) (hs2.holdsAt hholds) ((hs2.decReps.trans hdec1).trans hdec) (hout.trans hcount.symm) rfl rfl
  refine ⟨s1, s2, t, henc1, hseek, hdecode, ?_, ?_, ?_, ?_⟩ <;> rw [ht]
  · show s2.pout ++ out = _
    rw [hs2.pout, hpout]
  · show s2.kind = _
    rw [hs2.kind, hk]
  · show BitVec.ofNat 32 (s2.cursor + _) = _
    rw [hs2.cursor_eq, hpos]
    rfl
  · show s2.engReqs ++ _ = _
    rw [hs2.engReqs]

end Sys2Proof.Machine
end

section
/-! PROOF. The first operation after reset (70_reset_and_hazards.md section 2): the region is empty and the cursor at its end, the kind is
unknown, and every register is 0. -/

namespace Sys2Proof.Machine

section
variable {s : State} (h : s.cursor = s.limit)
include h

theorem State.wholeBytes_of_end (n : Nat) : s.wholeBytes n = 0 := by
  rw [State.wholeBytes, State.avail_of_end h]
  exact Nat.min_zero n

/-- BC.RDB at the end of the region. -/
theorem exec_bcRdb_of_end {len : Word} (h1 : 1 ≤ len.toNat) (hlen : len.toNat ≤ s.cfg.bufmax) :
    exec (.bcRdb len) s = .next (s.answered .ok 1 0 0) := by
  have hnone : s.pushDout [] = s := by rw [State.pushDout, List.append_nil]
  rw [exec_bcRdb_eq hlen, State.octetsLeft, State.wholeBytes_of_end h, truncWarn_of_lt h1, Nat.mul_zero, Nat.add_zero,
    State.setCursor_cursor, List.range_zero, List.map_nil, hnone]
  rfl

/-- BC.WRB at the end of the region pops its bytes and writes none of them. -/
theorem exec_bcWrb_of_end {len : Word} {src rest : List Byte} (h1 : 1 ≤ len.toNat) (hlen : len.toNat ≤ s.cfg.bufmax)
    (hdin : s.din = src ++ rest) (hsrc : src.length = len.toNat) :
    exec (.bcWrb len) s = .next ({ s with din := rest }.answered .ok 1 0 0) := by
  have hnone : s.fittingBits src = [] := by
    rw [State.fittingBits, State.wholeBytes_of_end h]
    rfl
  rw [exec_bcWrb_eq hlen hdin hsrc, hnone, State.wholeBytes_of_end h, truncWarn_of_lt (hsrc ▸ h1), Nat.mul_zero, Nat.add_zero]
  exact congrArg (fun x : State => Host.Outcome.next (x.answered .ok 1 0 0)) (State.setCursor_cursor { s with din := rest })

end

theorem State.resetWith_detectKind (c : Config) : (State.resetWith c).detectKind = .unknown := by
  have hempty : (State.resetWith c).memRead 0 (State.resetWith c).len.toNat = [] := rfl
  rw [State.detectKind_eq_unknown_iff, hempty, List.prefix_nil, List.prefix_nil]
  decide

theorem State.resetWith_csr (c : Config) {idx : Nat} (h : idx ≤ 8 ∨ 16 ≤ idx ∧ idx ≤ 35) : (State.resetWith c).csr idx = some 0 := by
  obtain h | ⟨h1, h2⟩ := h
  · interval_cases idx <;> rfl
  · obtain ⟨i, rfl⟩ := Nat.exists_eq_add_of_le h1
    rw [State.csr_tocEntry _ (by unfold Config.tocCap; omega), State.resetWith_tocEntry]
    rfl

theorem State.resetWith_clearFlags (c : Config) (mask : Word) :
    { State.resetWith c with
      flags := clearFlags (State.resetWith c).flags mask, err := if mask.getLsbD 8 then 0 else (State.resetWith c).err } =
    State.resetWith c := by
  have hflags : clearFlags 0 mask = 0 := BitVec.zero_and
  have herr : (if mask.getLsbD 8 then 0 else 0 : BitVec 8) = 0 := ite_self 0
  show { State.resetWith c with flags := clearFlags 0 mask, err := if mask.getLsbD 8 then 0 else 0 } = _
  rw [hflags, herr]
  rfl

/-- Settles O11: each operation's own equation at the reset state. -/
theorem firstOperationAfterReset : Obligations.FirstOperationAfterReset := by
  rintro c r hc rfl
  have hend : (State.resetWith c).cursor = (State.resetWith c).limit := rfl
  have hend' : ∀ bs, State.cursor { State.resetWith c with din := bs } = State.limit { State.resetWith c with din := bs } := fun _ => rfl
  refine ⟨fun n v h1 h2 => ⟨exec_bcRd_of_end hend h1 h2, exec_bcWr_of_end hend h1 h2⟩, fun len => exec_bcRdb_of_end hend,
    fun len bs h1 hlen hbs => ?_, ?_, fun ft hft => exec_flLookup_unknownFormat hft rfl, exec_grpDec_unknownFormat rfl,
    fun nblk mode => exec_grpEnc_unknownFormat rfl, exec_tocDec_noData ?_, fun k bs h1 h2 hbs => ?_,
    fun len pos0 hlen hpos => exec_bcAttach_accepted (s := State.resetWith c) hlen hpos, exec_kindSet_nb _ rfl, exec_kindSet_wb _ rfl,
    fun idx hidx => exec_csrRd_register (State.resetWith_csr c hidx), exec_csrRd_register rfl, fun mask => ?_,
    fun addr len bs h hbs => ?_, fun addr len h => ⟨_, State.memRead_length _ _ _, exec_hmSt_eq h⟩, exec_nop_eq _⟩
  · exact exec_bcWrb_of_end (hend' bs) h1 hlen (List.take_append_drop _ bs).symm (List.length_take_of_le hbs)
  · exact exec_hsDetect_eq (State.resetWith_detectKind c)
  · exact of_decide_eq_true rfl
  · exact exec_tocEnc_noSpace h1 h2 (List.take_append_drop _ bs).symm (List.length_take_of_le hbs)
      (Nat.mul_pos (by decide) h1)
  · rw [exec_flgClr_eq, State.resetWith_clearFlags]
  · refine ⟨_, exec_hmLd_eq h (List.append_nil bs).symm hbs, rfl, fun i hi => ?_⟩
    rw [State.bufByte_answered, State.bufByte_memWrite, if_pos (by omega), Nat.add_sub_cancel_left]

end Sys2Proof.Machine
end

section
/-! PROOF. Sessions (48_host_sequences.md, 70_reset_and_hazards.md section 3): what the operations do to the streams and the codec engine's
replies, what each action of the host keeps, and the duties under which presenting an operation has a meaning. -/

namespace Sys2Proof.Machine

/-! ## The streams and the replies -/

section
variable {i : Instr} {s x : State} {st : Status} {w : BitVec 3} {r0 r1 : Nat}

/-- An operation pops exactly the bytes of DIN that its operands call for (R102, R137, R204). -/
theorem Completes.din (h : Completes s i x st w r0 r1) : x.din = s.din.drop (dinTaken s.cfg i) := by
  have htaken : ∀ {src rest : List Byte} {n : Nat}, s.din = src ++ rest → src.length = n → rest = s.din.drop n := fun hdin hsrc => by
    rw [hdin, ← hsrc, List.drop_left]
  cases h with
  | badOperand hbad => simp [dinTaken, hbad]
  | bcWr => simp [dinTaken]
  | @bcWrb len src rest hlen hdin hsrc =>
    have hgood : (Instr.bcWrb len).wellFormed s.cfg = true := decide_eq_true hlen
    simpa [dinTaken, hgood] using htaken hdin hsrc
  | @tocEncNoSpace k src rest h1 h2 hdin hsrc =>
    have hgood : (Instr.tocEnc k).wellFormed s.cfg = true := decide_eq_true ⟨h1, h2⟩
    simpa [dinTaken, hgood] using htaken hdin hsrc
  | @tocEnc k src rest h1 h2 hdin hsrc =>
    have hgood : (Instr.tocEnc k).wellFormed s.cfg = true := decide_eq_true ⟨h1, h2⟩
    simpa [dinTaken, hgood] using htaken hdin hsrc
  | @hmLd addr len src rest hlen hdin hsrc =>
    have hgood : (Instr.hmLd addr len).wellFormed s.cfg = true := decide_eq_true hlen
    simpa [dinTaken, hgood] using htaken hdin hsrc
  | grpDec =>
    simp [dinTaken]
    rfl
  | grpEnc _ _ _ _ _ _ he =>
    rw [he.frame]
    simp [dinTaken, State.blocksEncoded]
  | _ => simp [dinTaken]

/-- GRP.ENC pops `nblk` blocks of PIN, and no other operation any (R181). -/
theorem Completes.pin (h : Completes s i x st w r0 r1) : x.pin = s.pin.drop (pinTaken s.kind i) := by
  cases h with
  | badOperand hbad =>
    cases i with
    | grpEnc nblk mode =>
      have hover : ¬ nblk.toNat ≤ Config.tocCap := of_decide_eq_false hbad
      simp [pinTaken, hover]
    | _ => rfl
  | bcWr | bcWrb | tocEnc => simp [pinTaken]
  | grpEncUnknown hk => simp [pinTaken, hk]
  | grpEnc hk hn hblocks hl _ _ he =>
    rw [he.frame, pinTaken, if_pos ⟨hk, hn⟩, hblocks.pin, ← hl, List.drop_left]
    rfl
  | _ => rfl

/-- The decode replies left are the last of those there were: GRP.DEC takes from the front (R29). -/
theorem Completes.decReps (h : Completes s i x st w r0 r1) : x.decReps <:+ s.decReps := by
  cases h with
  | grpDec _ _ _ hd => exact ⟨_, hd.symm⟩
  | bcWr | bcWrb | tocEnc => simp
  | grpEnc _ _ _ _ _ _ he =>
    rw [he.frame]
    exact List.suffix_refl _
  | _ => exact List.suffix_refl _

theorem Completes.encReps (h : Completes s i x st w r0 r1) : x.encReps <:+ s.encReps := by
  cases h with
  | bcWr | bcWrb | tocEnc => simp
  | grpEnc _ _ hblocks _ _ _ he =>
    rw [he.frame]
    exact ⟨_, hblocks.enc.symm⟩
  | _ => exact List.suffix_refl _

/-- What is pushed on DOUT comes after what is there (R27). -/
theorem Completes.dout (h : Completes s i x st w r0 r1) : s.dout <+: x.dout := by
  cases h with
  | bcRdb | tocDec | hmSt => exact List.prefix_append _ _
  | bcWr | bcWrb | tocEnc => simp
  | grpEnc _ _ _ _ _ _ he =>
    rw [he.frame]
    exact List.prefix_refl _
  | _ => exact List.prefix_refl _

theorem Completes.pout (h : Completes s i x st w r0 r1) : s.pout <+: x.pout := by
  cases h with
  | grpDec => exact List.prefix_append _ _
  | bcWr | bcWrb | tocEnc => simp
  | grpEnc _ _ _ _ _ _ he =>
    rw [he.frame]
    exact List.prefix_refl _
  | _ => exact List.prefix_refl _

/-- KIND is written by HS.DETECT and by a KIND.SET with a legal operand only (R120). -/
theorem Completes.kind (h : Completes s i x st w r0 r1) (hf : fixesKind i = false) : x.kind = s.kind := by
  cases h with
  | hsDetect => cases hf
  | kindSetNb hk => simp [fixesKind, hk] at hf
  | kindSetWb hk => simp [fixesKind, hk] at hf
  | bcWr | bcWrb | tocEnc => simp
  | grpEnc _ _ _ _ _ _ he =>
    rw [he.frame]
    rfl
  | _ => rfl

end
end Sys2Proof.Machine
end

section
/-! PROOF. Sessions (48_host_sequences.md, 70_reset_and_hazards.md section 3): what presenting a command word can do, and what each other
action of the host keeps. -/

namespace Sys2Proof.Machine

section
variable {h h' : Session} {w : CmdWord} {din : List Byte} {pin : List HostBlock}

/-! ## Presenting a command word -/

/-- Presenting an operation has a meaning exactly when no duty is broken, the operation gives a next state and it has its room (R225). -/
theorem Session.act_issue_of_ok {i : Instr} (hd : decode w = .ok i) :
    h.act (.issue w din pin) = .next h' ↔
      Session.breach { h with st := h.st.supply din pin } i pin = none ∧ exec i (h.st.supply din pin) = .next h'.st ∧
      (∀ r ∈ h'.st.rsps, r.status ≠ .noSpace) ∧ h'.codec = h.codec ∧ h'.kindFixed = (h.kindFixed || fixesKind i) ∧
      h'.outBytes = h.outBytes ∧ h'.outBlocks = h.outBlocks := by
  unfold Session.act
  rw [Session.issue_next, operationOf_ok hd]
  refine and_congr_right fun hb => ?_
  rw [step_presentCommand _ _ ((Session.breach_none _ _ _).1 hb).1, hd]

/-- An illegal word is presented like a NOP and answered E_ILLEGAL_OP (R64). -/
theorem Session.act_issue_of_error {e : DecodeError} (hd : decode w = .error e) :
    h.act (.issue w din pin) = .next h' ↔
      Session.breach { h with st := h.st.supply din pin } .nop pin = none ∧
      h' = { h with st := (h.st.supply din pin).answered .illegalOp 0 0 0 } := by
  unfold Session.act
  rw [Session.issue_next, operationOf_error hd]
  refine and_congr_right fun hb => ?_
  obtain ⟨hcmds, hrsps, -⟩ := (Session.breach_none _ _ _).1 hb
  rw [step_presentCommand _ _ hcmds, hd]
  simp only [execIllegal_eq, Host.Outcome.next.injEq]
  constructor
  · rintro ⟨hst, -, hc, hk, hb, hp⟩
    cases h'
    simp_all [fixesKind]
  · rintro rfl
    refine ⟨rfl, fun r hr => ?_, rfl, (Bool.or_false _).symm, rfl, rfl⟩
    have hr' : r ∈ h.st.rsps ++ [⟨.illegalOp, 0, 0, 0⟩] := hr
    have hnil : h.st.rsps = [] := hrsps
    rw [hnil, List.nil_append, List.mem_singleton] at hr'
    simp [hr']

/-- What a presented command word that has a meaning does, be it legal or not: the operation whose duties it carries completes, though an
illegal word is answered with another status than NOP. -/
theorem Session.act_issue_completes (ha : h.act (.issue w din pin) = .next h') :
    Session.breach { h with st := h.st.supply din pin } (operationOf w) pin = none ∧ h'.codec = h.codec ∧
      h'.kindFixed = (h.kindFixed || fixesKind (operationOf w)) ∧ h'.outBytes = h.outBytes ∧ h'.outBlocks = h.outBlocks ∧
      ∃ x st st' wn r0 r1, Completes (h.st.supply din pin) (operationOf w) x st wn r0 r1 ∧ h'.st = x.answered st' wn r0 r1 := by
  cases hd : decode w with
  | ok i =>
    obtain ⟨hb, hexec, -, hc, hk, hbytes, hblocks⟩ := (Session.act_issue_of_ok hd).1 ha
    obtain ⟨x, st, wn, r0, r1, hcomp, hst⟩ := exec_next_iff.1 hexec
    rw [operationOf_ok hd]
    exact ⟨hb, hc, hk, hbytes, hblocks, x, st, st, wn, r0, r1, hcomp, hst⟩
  | error e =>
    obtain ⟨hb, rfl⟩ := (Session.act_issue_of_error hd).1 ha
    rw [operationOf_error hd]
    exact ⟨hb, rfl, (Bool.or_false _).symm, rfl, rfl, _, _, .illegalOp, _, _, _, .nop, rfl⟩

/-! ## The other actions -/

/-- Receiving takes the oldest response, if there is one, and nothing else (R25). -/
theorem State.takeResponse_getD (s : State) : (s.takeResponse.map Prod.snd).getD s = { s with rsps := s.rsps.tail } := by
  unfold State.takeResponse
  split
  next hr =>
    rw [hr]
    show s = { s with rsps := [] }
    rw [← hr]
  next hr => rw [hr]; rfl

/-- The codec engine settles a reply only while it lives, and one within its contract for its kind (R29). -/
theorem Session.codecSettles_next {ok : Kind → Bool} {t : State} :
    h.codecSettles ok t = .next h' ↔ ∃ k, h.codec = .live k ∧ ok k = true ∧ { h with st := t } = h' := by
  unfold Session.codecSettles
  cases h.codec with
  | live k => cases hk : ok k <;> simp [hk]
  | _ => simp

theorem Session.act_createCodec {k : Kind} :
    h.act (.createCodec k) = .next h' ↔ (h.codec = .absent ∧ k ≠ .unknown) ∧ { h with codec := .live k } = h' := by
  rw [Session.act]
  split_ifs with hc <;> simp [hc]

theorem Session.act_destroyCodec :
    h.act .destroyCodec = .next h' ↔ ∃ c, h.codec.destroy = some c ∧ { h with st := h.st.dropReplies, codec := c } = h' := by
  rw [Session.act]
  cases h.codec.destroy <;> simp

/-- A stream is finished only when no codec engine is left undestroyed (R224). -/
theorem Session.act_finishStream :
    h.act .finishStream = .next h' ↔ h.codec.exists = false ∧ { h with kindFixed := false, codec := .absent } = h' := by
  rw [Session.act]
  split_ifs with hc <;> simp [hc]

theorem CodecLife.kind_of_not_exists {c : CodecLife} (hc : c.exists = false) : c.kind = .unknown := by
  cases c with
  | live => cases hc
  | _ => rfl

theorem CodecLife.destroy_ne_live {c c' : CodecLife} (hc : c.destroy = some c') (k : Kind) : c' ≠ .live k := by
  rintro rfl
  cases c <;> simp [CodecLife.destroy] at hc

theorem CodecLife.afterReset_ne_live (c : CodecLife) (k : Kind) : c.afterReset ≠ .live k := by
  unfold CodecLife.afterReset
  split <;> simp

/-- Only presenting an operation adds to what has been pushed on DOUT and POUT, and no action takes out of it (R226). -/
theorem Session.act_pushed {a : HostAction} (ha : h.act a = .next h') (hne : ∀ w din pin, a ≠ .issue w din pin) :
    h'.pushedBytes = h.pushedBytes ∧ h'.pushedBlocks = h.pushedBlocks := by
  cases a with
  | issue w din pin => exact absurd rfl (hne w din pin)
  | receive =>
    rw [Session.act, State.takeResponse_getD] at ha
    cases ha
    exact ⟨rfl, rfl⟩
  | drainDout n =>
    cases ha
    exact ⟨h.drainBytes_pushedBytes n, h.drainBytes_pushedBlocks n⟩
  | drainPout n =>
    cases ha
    exact ⟨h.drainBlocks_pushedBytes n, h.drainBlocks_pushedBlocks n⟩
  | createCodec k =>
    obtain ⟨-, rfl⟩ := Session.act_createCodec.1 ha
    exact ⟨rfl, rfl⟩
  | destroyCodec =>
    obtain ⟨c, -, rfl⟩ := Session.act_destroyCodec.1 ha
    exact ⟨rfl, rfl⟩
  | finishStream =>
    obtain ⟨-, rfl⟩ := Session.act_finishStream.1 ha
    exact ⟨rfl, rfl⟩
  | codecDecodes | codecEncodes =>
    obtain ⟨k, -, -, rfl⟩ := Session.codecSettles_next.1 ha
    exact ⟨rfl, rfl⟩
  | reset =>
    cases ha
    exact ⟨h.resetEngine_pushedBytes, h.resetEngine_pushedBlocks⟩

/-- Within a stream no other action writes KIND, or unfixes it (R125). -/
theorem Session.act_kind {a : HostAction} (ha : h.act a = .next h') (hne : ∀ w din pin, a ≠ .issue w din pin)
    (hfinish : a ≠ .finishStream) (hreset : a ≠ .reset) : h'.kindFixed = h.kindFixed ∧ h'.st.kind = h.st.kind := by
  cases a with
  | issue w din pin => exact absurd rfl (hne w din pin)
  | receive =>
    rw [Session.act, State.takeResponse_getD] at ha
    cases ha
    exact ⟨rfl, rfl⟩
  | drainDout | drainPout =>
    cases ha
    exact ⟨rfl, rfl⟩
  | createCodec k =>
    obtain ⟨-, rfl⟩ := Session.act_createCodec.1 ha
    exact ⟨rfl, rfl⟩
  | destroyCodec =>
    obtain ⟨c, -, rfl⟩ := Session.act_destroyCodec.1 ha
    exact ⟨rfl, rfl⟩
  | finishStream => exact absurd rfl hfinish
  | codecDecodes | codecEncodes =>
    obtain ⟨k, -, -, rfl⟩ := Session.codecSettles_next.1 ha
    exact ⟨rfl, rfl⟩
  | reset => exact absurd rfl hreset

/-! ## The invariant of sessions -/

/-- A presented command word that has a meaning leaves one response, no command and no surplus: the operation pops all that was supplied. -/
theorem Session.Inv.issue (hi : h.Inv) (ha : h.act (.issue w din pin) = .next h') : h'.Inv := by
  obtain ⟨hst, -, -, -, -, hlive, hdec, henc⟩ := hi
  obtain ⟨hb, hcodec, -, -, -, x, st, st', wn, r0, r1, hc, hx⟩ := Session.act_issue_completes ha
  obtain ⟨hcmds, hrsps, -, -, hdin, hpin, -⟩ := (Session.breach_none _ _ _).1 hb
  obtain ⟨hcfg, -, hxcmds, hxrsps⟩ := hc.channels
  have hxst : x.Inv := hc.inv hst
  have hxdin : x.din = [] := hc.din.trans (List.drop_eq_nil_of_le hdin.le)
  have hxpin : x.pin = [] := hc.pin.trans (List.drop_eq_nil_of_le hpin.le)
  unfold Session.Inv
  rw [hx, hcodec]
  refine ⟨hxst.answered _ _ _ _, hxcmds.trans hcmds, hxdin, hxpin, ?_, hlive, fun blk hm => hdec blk (hc.decReps.subset hm), ?_⟩
  · show (x.rsps ++ [_]).length ≤ 1
    rw [hxrsps.trans hrsps]
    exact Nat.le_refl _
  · intro rep hm
    obtain ⟨hk, hrep⟩ := henc rep (hc.encReps.subset hm)
    refine ⟨hk, ?_⟩
    show rep.contract x.cfg h.codec.kind
    rwa [hcfg]

/-- While no codec engine exists there are no replies either. -/
theorem Session.Inv.replies_nil (hi : h.Inv) (hk : h.codec.kind = .unknown) : h.st.decReps = [] ∧ h.st.encReps = [] := by
  obtain ⟨-, -, -, -, -, -, hdec, henc⟩ := hi
  exact ⟨List.eq_nil_iff_forall_not_mem.2 fun blk hm => (hdec blk hm).1 hk, List.eq_nil_iff_forall_not_mem.2 fun rep hm => (henc rep hm).1 hk⟩

theorem Session.Inv.live_ne_unknown {k : Kind} (hi : h.Inv) (hc : h.codec = .live k) : k ≠ .unknown := by
  obtain ⟨-, -, -, -, -, hlive, -⟩ := hi
  rintro rfl
  exact hlive hc

theorem Session.Inv.act {a : HostAction} (hi : h.Inv) (ha : h.act a = .next h') : h'.Inv := by
  obtain ⟨hst, hcmds, hdin, hpin, hrsps, hlive, hdec, henc⟩ := id hi
  cases a with
  | issue w din pin => exact hi.issue ha
  | receive =>
    rw [Session.act, State.takeResponse_getD] at ha
    cases ha
    exact ⟨hst, hcmds, hdin, hpin, (List.length_tail.trans_le (Nat.sub_le _ _)).trans hrsps, hlive, hdec, henc⟩
  | drainDout | drainPout =>
    cases ha
    exact hi
  | createCodec k =>
    obtain ⟨⟨habsent, hk⟩, rfl⟩ := Session.act_createCodec.1 ha
    obtain ⟨hnodec, hnoenc⟩ := hi.replies_nil (by rw [habsent]; rfl)
    exact ⟨hst, hcmds, hdin, hpin, hrsps, by simp [hk], by simp [hnodec], by simp [hnoenc]⟩
  | destroyCodec =>
    obtain ⟨c, hc, rfl⟩ := Session.act_destroyCodec.1 ha
    exact ⟨hst, hcmds, hdin, hpin, hrsps, CodecLife.destroy_ne_live hc _, by simp [State.dropReplies], by simp [State.dropReplies]⟩
  | finishStream =>
    obtain ⟨hc, rfl⟩ := Session.act_finishStream.1 ha
    obtain ⟨hnodec, hnoenc⟩ := hi.replies_nil (CodecLife.kind_of_not_exists hc)
    exact ⟨hst, hcmds, hdin, hpin, hrsps, by simp, by simp [hnodec], by simp [hnoenc]⟩
  | codecDecodes blk =>
    obtain ⟨k, hc, hok, rfl⟩ := Session.codecSettles_next.1 ha
    refine ⟨hst, hcmds, hdin, hpin, hrsps, hlive, fun b hm => ?_, henc⟩
    rcases List.mem_append.1 hm with hm | hm
    · exact hdec b hm
    · show h.codec.kind ≠ .unknown ∧ b.length = nsamp h.codec.kind
      rw [List.mem_singleton.1 hm, hc]
      exact ⟨hi.live_ne_unknown hc, of_decide_eq_true hok⟩
  | codecEncodes rep =>
    obtain ⟨k, hc, hok, rfl⟩ := Session.codecSettles_next.1 ha
    refine ⟨hst, hcmds, hdin, hpin, hrsps, hlive, hdec, fun r hm => ?_⟩
    rcases List.mem_append.1 hm with hm | hm
    · exact henc r hm
    · show h.codec.kind ≠ .unknown ∧ r.contract h.st.cfg h.codec.kind
      rw [List.mem_singleton.1 hm, hc]
      exact ⟨hi.live_ne_unknown hc, of_decide_eq_true hok⟩
  | reset =>
    cases ha
    exact ⟨State.resetWith_inv hst.1, rfl, rfl, rfl, Nat.zero_le _, CodecLife.afterReset_ne_live _ _, by
      simp [Session.resetEngine, State.dropReplies], by simp [Session.resetEngine, State.dropReplies]⟩

end
end Sys2Proof.Machine
end

section
/-! PROOF. The host's contract (48_host_sequences.md, 70_reset_and_hazards.md section 3): the invariant of sessions, the duties under which
an action has a meaning, the kind of a stream, and the blocks that group operations carry. -/

namespace Sys2Proof.Machine

/-- Settles O58: the action of presenting a word pops all its input and keeps the engine's invariant (`Session.Inv.issue`), the others keep
each field of the invariant (`Session.Inv.act`); operations push at the end, and the other actions push nothing (`Session.act_pushed`). -/
theorem actionsKeepTheSessionInvariant : Obligations.ActionsKeepTheSessionInvariant := by
  refine ⟨fun h h' a hi ha => hi.act ha, fun h h' a ha => ?_⟩
  by_cases hissue : ∃ w din pin, a = .issue w din pin
  · obtain ⟨w, din, pin, rfl⟩ := hissue
    obtain ⟨-, -, -, hbytes, hblocks, x, st, st', wn, r0, r1, hc, hx⟩ := Session.act_issue_completes ha
    obtain ⟨bs, hbs⟩ := hc.dout
    obtain ⟨blks, hblks⟩ := hc.pout
    refine ⟨bs, blks, ?_, ?_, fun hne => absurd rfl (hne w din pin)⟩
    · rw [hbytes, hx, List.append_assoc]
      exact congrArg _ hbs.symm
    · rw [hblocks, hx, List.append_assoc]
      exact congrArg _ hblks.symm
  · obtain ⟨hbytes, hblocks⟩ := Session.act_pushed ha fun w din pin h => hissue ⟨w, din, pin, h⟩
    exact ⟨[], [], hbytes.trans (List.append_nil _).symm, hblocks.trans (List.append_nil _).symm, fun _ => ⟨rfl, rfl⟩⟩

/-! ## The kind of a stream -/

/-- Once the kind is fixed, an operation that writes it would break a duty, so it is kept (R125). -/
theorem Session.act_keeps_fixed_kind {h h' : Session} {a : HostAction} (ha : h.act a = .next h') (hfixed : h.kindFixed = true)
    (hfinish : a ≠ .finishStream) (hreset : a ≠ .reset) : h'.kindFixed = true ∧ h'.st.kind = h.st.kind := by
  by_cases hissue : ∃ w din pin, a = .issue w din pin
  · obtain ⟨w, din, pin, rfl⟩ := hissue
    obtain ⟨hb, -, hkind, -, -, x, st, st', wn, r0, r1, hc, hx⟩ := Session.act_issue_completes ha
    obtain ⟨-, -, hfix, -⟩ := (Session.breach_none _ _ _).1 hb
    have hkeeps : fixesKind (operationOf w) = false := Bool.eq_false_iff.2 fun hf => Bool.false_ne_true ((hfix hf).symm.trans hfixed)
    rw [hx, hkind, hfixed]
    exact ⟨rfl, hc.kind hkeeps⟩
  · obtain ⟨hkind, hst⟩ := Session.act_kind ha (fun w din pin h => hissue ⟨w, din, pin, h⟩) hfinish hreset
    exact ⟨hkind.trans hfixed, hst⟩

/-- Creating a codec engine for a known kind: at once when no codec engine stands in its way, else not (R224). -/
theorem Session.act_createCodec_of_absent {h : Session} {k : Kind} (hc : h.codec = .absent) (hk : k ≠ .unknown) :
    h.act (.createCodec k) = .next { h with codec := .live k } := Session.act_createCodec.2 ⟨⟨hc, hk⟩, rfl⟩

theorem Session.act_createCodec_of_leftOver {h : Session} {k : Kind} (hc : h.codec = .leftOver) :
    h.act (.createCodec k) = .refused .codecLifetime := by
  rw [Session.act, if_neg (by simp [hc])]

/-- A codec engine left over by a reset has no replies left, so destroying it changes the engine in nothing (R262). -/
theorem Session.act_destroyCodec_after_reset {h : Session} (hc : h.codec.exists = true) :
    h.resetEngine.act .destroyCodec = .next { h.resetEngine with codec := .absent } := by
  have hleft : h.resetEngine.codec = .leftOver := if_pos hc
  rw [Session.act, hleft]
  rfl

/-- Settles O59: an operation that would write a fixed kind breaks a duty (`Session.act_keeps_fixed_kind`); finishing needs that no codec
engine exists, and reset turns one that does into one left over. -/
theorem kindIsFixedWithinAStream : Obligations.KindIsFixedWithinAStream := by
  refine ⟨fun h h' a ha hfixed hf hr => Session.act_keeps_fixed_kind ha hfixed hf hr, fun h => ?_, fun h => ⟨_, rfl⟩, ?_⟩
  · rw [← CodecLife.exists_eq_false]
    exact ⟨fun ⟨h', ha⟩ => (Session.act_finishStream.1 ha).1, fun hc => ⟨_, Session.act_finishStream.2 ⟨hc, rfl⟩⟩⟩
  rintro h h' a k (rfl | rfl) ha hk
  · obtain ⟨hc, rfl⟩ := Session.act_finishStream.1 ha
    refine ⟨rfl, by simp, fun _ => Session.act_createCodec_of_absent rfl hk, fun habsent hdestroyed => ?_⟩
    exact absurd (CodecLife.exists_eq_false.1 hc) (not_or.2 ⟨habsent, hdestroyed⟩)
  · cases ha
    refine ⟨rfl, CodecLife.afterReset_ne_live _, fun hc => ?_, fun habsent hdestroyed => ?_⟩
    · have hnone : h.codec.exists = false := CodecLife.exists_eq_false.2 hc
      exact Session.act_createCodec_of_absent (if_neg (by simp [hnone])) hk
    · have hsome : h.codec.exists = true := by
        rw [← Bool.not_eq_false, CodecLife.exists_eq_false]
        exact not_or.2 ⟨habsent, hdestroyed⟩
      exact ⟨Session.act_createCodec_of_leftOver (if_pos hsome), _, Session.act_destroyCodec_after_reset hsome, rfl,
        Session.act_createCodec_of_absent rfl hk⟩

/-! ## The duties -/

theorem fixesKind_iff (i : Instr) : fixesKind i = true ↔ i = .hsDetect ∨ i = .kindSet 1 ∨ i = .kindSet 2 := by
  cases i with
  | kindSet kind =>
    have h1 : kind.toNat = 1 ↔ kind = 1 := BitVec.toNat_inj (y := (1 : Word))
    have h2 : kind.toNat = 2 ↔ kind = 2 := BitVec.toNat_inj (y := (2 : Word))
    simp [fixesKind, h1, h2]
  | _ => simp [fixesKind]

theorem usesCodec_iff (i : Instr) : usesCodec i = true ↔ i = .grpDec ∨ ∃ n m, i = .grpEnc n m := by
  cases i <;> simp [usesCodec]

theorem needsKind_iff (i : Instr) : needsKind i = true ↔ usesCodec i = true ∨ ∃ ft, i = .flLookup ft := by
  cases i <;> simp [needsKind, usesCodec]

theorem State.supply_nil (s : State) : s.supply [] [] = s := by simp [State.supply, State.supplyDin]

/-- A run has a result exactly when every action has a meaning and no codec engine is left undestroyed (R224, R226). -/
theorem Session.run_next {h : Session} {as : List HostAction} {res : RunResult} :
    h.run as = .next res ↔ ∃ h', h.acts as = .next h' ∧ h'.codec.exists = false ∧ ⟨h'.st, h'.pushedBytes, h'.pushedBlocks⟩ = res := by
  unfold Session.run
  cases h.acts as with
  | next h' => simp [Session.finish_next]
  | _ => simp

/-- Settles O57: the duties are those that `Session.breach` tests (`Session.breach_none`), each in the words of its rule; an illegal word
has NOP's; and a run's result is that of its last session (`Session.run_next`). -/
theorem acceptedOperationsKeepTheHostsDuties : Obligations.AcceptedOperationsKeepTheHostsDuties := by
  refine ⟨?_, ?_, ?_⟩
  · intro h h' w i din pin writesKind group samples rate bytes blocks hd hsamples hrate hbytes hblocks hwrites hgroup
    have hbytes' : bytes = dinTaken h.st.cfg i := by
      rw [hbytes]
      cases i <;> simp [dinTaken, Instr.wellFormed, Config.tocCap]
    have hblocks' : blocks = pinTaken h.st.kind i := by
      rw [hblocks]
      cases i <;> rfl
    have hsamples' : samples = nsamp h.st.kind := by
      rw [hsamples]
      cases h.st.kind <;> rfl
    have hrate' : rate = sampleRate h.st.kind := by
      rw [hrate]
      cases h.st.kind <;> rfl
    rw [← fixesKind_iff] at hwrites
    rw [← usesCodec_iff] at hgroup
    rw [Session.act_issue_of_ok hd, Session.breach_none, hwrites, hgroup, ← needsKind_iff, hbytes', hblocks', hsamples', hrate',
      ← CodecLife.serves_iff, Bool.eq_iff_iff (a := h'.kindFixed), Bool.or_eq_true]
    simp only [and_assoc]
    exact Iff.rfl
  · intro h h' w e din pin hd
    rw [Session.act_issue_of_error hd, Session.breach_none]
    constructor
    · rintro ⟨⟨hcmds, hrsps, -, -, hdin, hpin, -⟩, rfl⟩
      have hdin' : h.st.din ++ din = [] := List.length_eq_zero_iff.1 hdin
      have hpin' : h.st.pin ++ pin.map HostBlock.samples = [] := List.length_eq_zero_iff.1 hpin
      obtain ⟨hpin0, hmap⟩ := List.append_eq_nil_iff.1 hpin'
      obtain rfl := (List.append_eq_nil_iff.1 hdin').2
      obtain rfl := List.map_eq_nil_iff.1 hmap
      exact ⟨hcmds, hrsps, hdin', hpin0, rfl, by rw [State.supply_nil]⟩
    · rintro ⟨hcmds, hrsps, hdin, hpin, rfl, rfl⟩
      obtain rfl := (List.append_eq_nil_iff.1 hdin).2
      simp only [State.supply_nil]
      simp_all [fixesKind, needsKind, usesCodec, dinTaken, pinTaken]
  · intro h as res
    rw [Session.run_next]
    refine exists_congr fun h' => and_congr_right fun _ => ?_
    rw [CodecLife.exists_eq_false]
    refine and_congr_right fun _ => ?_
    cases res
    simp only [RunResult.mk.injEq, eq_comm]
    exact Iff.rfl

/-! ## The blocks of the group operations -/

/-- GRP.DEC pushes as many of the codec engine's blocks as it answers in R0, at most 20, and none under an unknown kind (R161). -/
theorem Completes.grpDec_blocks {s x : State} {st : Status} {w : BitVec 3} {r0 r1 : Nat} (h : Completes s .grpDec x st w r0 r1) :
    ∃ blks rest, s.decReps = blks ++ rest ∧ x.pout = s.pout ++ blks ∧ blks.length = r0 ∧ r0 ≤ Config.tocCap ∧
      (s.kind = .unknown → blks = []) := by
  cases h with
  | @grpDec k m blks rest hk hc hm hd hl =>
    exact ⟨blks, rest, hd, rfl, hl, hm.le.trans ((s.octetsFrom_length s.cursor k).trans_le hc.cap), fun h => absurd h hk⟩
  | _ => exact ⟨[], s.decReps, rfl, (List.append_nil _).symm, rfl, Nat.zero_le _, fun _ => rfl⟩

/-- GRP.ENC requests the encoding of blocks of PIN, in the mode of its operand (R181). -/
theorem Completes.grpEnc_requests {s x : State} {nblk mode : Word} {st : Status} {w : BitVec 3} {r0 r1 : Nat}
    (h : Completes s (.grpEnc nblk mode) x st w r0 r1) :
    ∃ blks pin', s.pin = blks ++ pin' ∧ x.engReqs = s.engReqs ++ blks.map (EngReq.encode · mode) := by
  cases h with
  | @grpEnc _ _ blks pin' _ _ _ _ _ _ _ _ hk hn hb hl hs hf he =>
    refine ⟨blks, pin', hb.pin, ?_⟩
    rw [he.frame]
    rfl
  | badOperand | grpEncUnknown => exact ⟨[], s.pin, rfl, (List.append_nil _).symm⟩

/-- Settles O60: GRP.DEC's blocks are replies of the codec engine, which serves the stream's kind, so the invariant of sessions gives their
lengths; GRP.ENC's are blocks of PIN, whose lengths the host's duty gives. -/
theorem groupOperationsCarryWholeBlocks : Obligations.GroupOperationsCarryWholeBlocks := by
  intro h h' w din pin samples hi ha hsamples
  obtain rfl : samples = nsamp h.st.kind := by
    rw [hsamples]
    cases h.st.kind <;> rfl
  obtain ⟨hb, -, -, -, -, x, st, st', wn, r0, r1, hc, hx⟩ := Session.act_issue_completes ha
  obtain ⟨-, hrsps, -, -, -, -, hlen, -, hserves⟩ := (Session.breach_none _ _ _).1 hb
  rw [hx]
  constructor
  · intro hd
    rw [operationOf_ok hd] at hc hserves
    obtain ⟨blks, rest, hreps, hpout, hcount, hcap, hnone⟩ := hc.grpDec_blocks
    obtain ⟨-, -, -, hxrsps⟩ := hc.channels
    have hwhole : ∀ n ∈ blks.map List.length, n = nsamp h.st.kind := by
      by_cases hk : h.st.kind = .unknown
      · rw [hnone hk]
        simp
      · have hlive : h.codec = .live h.st.kind := (CodecLife.serves_iff.1 (hserves rfl)).2 hk
        obtain ⟨-, -, -, -, -, -, hdec, -⟩ := hi
        rw [hlive] at hdec
        intro n hn
        obtain ⟨blk, hm, rfl⟩ := List.mem_map.1 hn
        have hmem : blk ∈ h.st.decReps := by
          show blk ∈ (h.st.supply din pin).decReps
          rw [hreps]
          exact List.mem_append_left _ hm
        exact (hdec blk hmem).2
    refine ⟨blks, ⟨st', wn, BitVec.ofNat 32 r0, BitVec.ofNat 32 r1⟩, hpout, ?_, ?_⟩
    · show x.rsps ++ [_] = _
      rw [hxrsps.trans hrsps, List.nil_append]
    · rw [List.sum_eq_card_nsmul _ _ hwhole, List.length_map, hcount, smul_eq_mul]
      show r0 * _ = (BitVec.ofNat 32 r0).toNat * _
      rw [toNat_ofNat_of_le (k := Config.tocCap) (by decide) hcap]
  · intro nblk mode hd
    rw [operationOf_ok hd] at hc
    obtain ⟨blks, pin', hpin, hreqs⟩ := hc.grpEnc_requests
    refine ⟨blks.map (EngReq.encode · mode), hreqs, fun q hq => ?_⟩
    obtain ⟨blk, hm, rfl⟩ := List.mem_map.1 hq
    refine ⟨blk, rfl, hlen blk ?_⟩
    show blk ∈ (h.st.supply din pin).pin
    rw [hpin]
    exact List.mem_append_left _ hm

end Sys2Proof.Machine
end
